-- ==== Sys2Proof/Word.lean ====
section
/-! DEFINITION. The words of BME: a byte (00_scope.md R11), a 32-bit command, length or response word (20_memory.md R54,
30_encoding.md R70) and a byte string (R11: `s[0]` is the first byte on the stream and the head of the list). -/

namespace Sys2Proof

abbrev Byte := BitVec 8

abbrev Word := BitVec 32

abbrev Bytes := List Byte

end Sys2Proof
end

