-- ==== Sys2Proof/Machine/Bytes.lean ====
section
/-! DEFINITION. The byte-string primitives of the rules (00_scope.md R11, R12; 40_common.md R102, R103). -/

namespace Sys2Proof.Machine

/-- R11: `0^n`. -/
def zeros (n : Nat) : Bytes := List.replicate n 0

/-- R11: `s[i..j)`, the bytes `i` to `j-1`. -/
def slice (s : Bytes) (i j : Nat) : Bytes := (s.take j).drop i

/-- R11, R102: bytewise exclusive or; every rule uses it on strings of one length. -/
def xorBytes (a b : Bytes) : Bytes := List.zipWith (fun x y => x ^^^ y) a b

/-- R12: the number whose least significant byte is the first. -/
def le : Bytes → Nat
  | [] => 0
  | b :: s => b.toNat + 256 * le s

/-- R12: the number whose most significant byte is the first. -/
def be (s : Bytes) : Nat := le s.reverse

/-- R12: `le_n(v)`, for `v < 256^n` the `n`-byte string with `le (leBytes n v) = v`. -/
def leBytes : Nat → Nat → Bytes
  | 0, _ => []
  | n + 1, v => BitVec.ofNat 8 v :: leBytes n (v / 256)

/-- R12: `be_n(v)`. -/
def beBytes (n v : Nat) : Bytes := (leBytes n v).reverse

/-- R103: the first `count` consecutive pieces of `size` bytes, in order. -/
def chunks (size : Nat) : Nat → Bytes → List Bytes
  | 0, _ => []
  | count + 1, s => s.take size :: chunks size count (s.drop size)

/-- `div` rounded up, as in `ceil(L / BS)` of 48_cts.md R241. -/
def ceilDiv (a b : Nat) : Nat := (a + b - 1) / b

end Sys2Proof.Machine
end

