-- ==== Sys2Proof/Syntax.lean ====
section
/-! DEFINITION. The commands of BME, one constructor per row of the opcode table (30_encoding.md R80, R81), the packets that
carry them (R70) and the events a host can put to the engine (70_reset_and_hazards.md R281, R286). -/

namespace Sys2Proof

/-- R70: one command as the host delivers it: the 32-bit words `W0` (and `W1`, `W2`), then the payload or data bytes. -/
structure Packet where
  words : List Word
  bytes : Bytes
deriving DecidableEq, Repr

/-- What the outside can put to the engine: a command (R286), taking the response that stands on the port (20_memory.md R57,
R286), or a reset input (R281), which may arrive while a command is in progress. -/
inductive HostEvent where
  | command (k : Packet)
  | receive
  | reset (inProgress : Option Packet)
deriving DecidableEq, Repr

/-- The commands. `pay` is the payload (R76, R77), whose length is `PLEN`; `data` is the input data of ENC and DEC, whose
length is `ILEN`, and `olen` the announced output capacity (R73); `seg` is the SEG field of CFBS (R71); `blk` and `off` are
the operands of SEEK (R74). -/
inductive Instr where
  | initCtr32be (pay : Bytes)
  | initCtr32le (pay : Bytes)
  | initCtr64be (pay : Bytes)
  | initCtr64le (pay : Bytes)
  | initCtr128be (pay : Bytes)
  | initCtr128le (pay : Bytes)
  | initBelt (pay : Bytes)
  | initCbc (pay : Bytes)
  | initCfb (pay : Bytes)
  | initCfb8 (pay : Bytes)
  | initCfbs (seg : Byte) (pay : Bytes)
  | initOfb (pay : Bytes)
  | initPcbc (pay : Bytes)
  | initIge (pay : Bytes)
  | initXts (pay : Bytes)
  | initCbccs1 (pay : Bytes)
  | initCbccs2 (pay : Bytes)
  | initCbccs3 (pay : Bytes)
  | initEcbcs1 (pay : Bytes)
  | initEcbcs2 (pay : Bytes)
  | initEcbcs3 (pay : Bytes)
  | ldstCbc (pay : Bytes)
  | ldstCfb (pay : Bytes)
  | ldstCfb8 (pay : Bytes)
  | ldstCfbs (seg : Byte) (pay : Bytes)
  | ldstOfb (pay : Bytes)
  | ldstPcbc (pay : Bytes)
  | ldstIge (pay : Bytes)
  | ldstXts (pay : Bytes)
  | enc (olen : Word) (data : Bytes)
  | dec (olen : Word) (data : Bytes)
  | seek (blk : BitVec 128) (off : Byte)
  | getpos
  | getrem
  | getst
  | wipe
deriving DecidableEq, Repr

/-- The payload bytes of INIT and LDST (R76, R77); the other commands carry none of free length. -/
def Instr.payload : Instr → Bytes
  | .initCtr32be pay | .initCtr32le pay | .initCtr64be pay | .initCtr64le pay | .initCtr128be pay | .initCtr128le pay
  | .initBelt pay | .initCbc pay | .initCfb pay | .initCfb8 pay | .initCfbs _ pay | .initOfb pay | .initPcbc pay
  | .initIge pay | .initXts pay | .initCbccs1 pay | .initCbccs2 pay | .initCbccs3 pay | .initEcbcs1 pay | .initEcbcs2 pay
  | .initEcbcs3 pay | .ldstCbc pay | .ldstCfb pay | .ldstCfb8 pay | .ldstCfbs _ pay | .ldstOfb pay | .ldstPcbc pay
  | .ldstIge pay | .ldstXts pay => pay
  | .enc _ _ | .dec _ _ | .seek _ _ | .getpos | .getrem | .getst | .wipe => []

/-- The input data of ENC and DEC (R73); the other commands have none. -/
def Instr.inputData : Instr → Bytes
  | .enc _ data | .dec _ data => data
  | .initCtr32be _ | .initCtr32le _ | .initCtr64be _ | .initCtr64le _ | .initCtr128be _ | .initCtr128le _
  | .initBelt _ | .initCbc _ | .initCfb _ | .initCfb8 _ | .initCfbs _ _ | .initOfb _ | .initPcbc _
  | .initIge _ | .initXts _ | .initCbccs1 _ | .initCbccs2 _ | .initCbccs3 _ | .initEcbcs1 _ | .initEcbcs2 _
  | .initEcbcs3 _ | .ldstCbc _ | .ldstCfb _ | .ldstCfb8 _ | .ldstCfbs _ _ | .ldstOfb _ | .ldstPcbc _
  | .ldstIge _ | .ldstXts _ | .seek _ _ | .getpos | .getrem | .getst | .wipe => []

end Sys2Proof
end

