-- ==== Sys2Proof/WellFormed.lean ====
section
/-! DEFINITION. When a command can be encoded: its lengths fit the fields that announce them (30_encoding.md R71, R73).
Whether an encodable command is legal at an engine's `BS` and in its state is decided by the meanings (R82). -/

namespace Sys2Proof

/-- `PLEN` is 8 bits (R71) and `ILEN` is 32 bits (R73, 00_scope.md R9). -/
def Instr.wellFormed (i : Instr) : Bool :=
  decide (i.payload.length < 2 ^ 8) && decide (i.inputData.length < 2 ^ 32)

end Sys2Proof
end

