-- ==== Sys2Proof/Decode.lean ====
section
/-! DEFINITION. The command encoding of 30_encoding.md: the fields of `W0` (R71), how many words and bytes a packet has (R70,
R84), the legal words (R81, R84), the encoder written from the same table, and the two forms in which the host of this
project hands over a word of the opcode table. -/

namespace Sys2Proof

open Machine

/-- R11: `w[hi:lo]`, an unsigned field. -/
def field (w : Word) (hi lo : Nat) : Nat := w.toNat / 2 ^ lo % 2 ^ (hi + 1 - lo)

/-- R71. -/
def opcOf (w : Word) : Nat := field w 31 28

/-- R71. -/
def plenOf (w : Word) : Nat := field w 7 0

/-- Why a packet is no command of the table. The first three say that the transport delivered other counts than the words
announce (20_memory.md R57), the last two that the word is reserved (R83, R84). -/
inductive DecodeError where
  | noCommandWord
  | wordCount
  | byteCount
  | reservedOpcode
  | reservedField
deriving DecidableEq, Repr

/-- R83, R84: how the opcode alone fixes what follows `W0`. -/
inductive Framing where
  /-- OPC 1, 2, 5: `PLEN` payload bytes. -/
  | payload
  /-- OPC 3, 4: `W1 = ILEN`, `W2 = OLEN` and `ILEN` data bytes. -/
  | data
  /-- Any other OPC: nothing. -/
  | bare
deriving DecidableEq, Repr

/-- R84. -/
def framingOf (w : Word) : Framing :=
  match opcOf w with
  | 1 | 2 | 5 => .payload
  | 3 | 4 => .data
  | _ => .bare

/-- R57, R70: whether the packet holds exactly what its words announce; `none` when it does. -/
def framingError (w : Word) (ws : List Word) (bytes : Bytes) : Option DecodeError :=
  match framingOf w, ws with
  | .payload, [] => if bytes.length = plenOf w then none else some .byteCount
  | .payload, _ :: _ => some .wordCount
  | .data, [ilen, _] => if bytes.length = ilen.toNat then none else some .byteCount
  | .data, _ => some .wordCount
  | .bare, [] => if bytes.length = 0 then none else some .byteCount
  | .bare, _ :: _ => some .wordCount

/-- The INIT rows of R81: MODE, SUB and SEG fields; RSV must be 0 (R84). SEG of CFBS is a free field, whose range 1 to `BS`
the meaning checks (log entry 8). -/
def decodeInit (w : Word) (pay : Bytes) : Option Instr :=
  match field w 11 8, field w 27 24, field w 23 20, field w 19 12 with
  | 0, 1, 0, 0 => some (.initCtr32be pay)
  | 0, 1, 1, 0 => some (.initCtr32le pay)
  | 0, 1, 2, 0 => some (.initCtr64be pay)
  | 0, 1, 3, 0 => some (.initCtr64le pay)
  | 0, 1, 4, 0 => some (.initCtr128be pay)
  | 0, 1, 5, 0 => some (.initCtr128le pay)
  | 0, 1, 6, 0 => some (.initBelt pay)
  | 0, 2, 0, 0 => some (.initCbc pay)
  | 0, 3, 0, 0 => some (.initCfb pay)
  | 0, 4, 0, 0 => some (.initCfb8 pay)
  | 0, 5, 0, seg => some (.initCfbs (BitVec.ofNat 8 seg) pay)
  | 0, 6, 0, 0 => some (.initOfb pay)
  | 0, 7, 0, 0 => some (.initPcbc pay)
  | 0, 8, 0, 0 => some (.initIge pay)
  | 0, 9, 0, 0 => some (.initXts pay)
  | 0, 10, 1, 0 => some (.initCbccs1 pay)
  | 0, 10, 2, 0 => some (.initCbccs2 pay)
  | 0, 10, 3, 0 => some (.initCbccs3 pay)
  | 0, 11, 1, 0 => some (.initEcbcs1 pay)
  | 0, 11, 2, 0 => some (.initEcbcs2 pay)
  | 0, 11, 3, 0 => some (.initEcbcs3 pay)
  | _, _, _, _ => none

/-- The LDST rows of R81. -/
def decodeLdst (w : Word) (pay : Bytes) : Option Instr :=
  match field w 11 8, field w 27 24, field w 23 20, field w 19 12 with
  | 0, 2, 0, 0 => some (.ldstCbc pay)
  | 0, 3, 0, 0 => some (.ldstCfb pay)
  | 0, 4, 0, 0 => some (.ldstCfb8 pay)
  | 0, 5, 0, seg => some (.ldstCfbs (BitVec.ofNat 8 seg) pay)
  | 0, 6, 0, 0 => some (.ldstOfb pay)
  | 0, 7, 0, 0 => some (.ldstPcbc pay)
  | 0, 8, 0, 0 => some (.ldstIge pay)
  | 0, 9, 0, 0 => some (.ldstXts pay)
  | _, _, _, _ => none

/-- R74: the payload of SEEK is `BLK` as 16 little-endian bytes, then `OFF`. -/
def decodeSeek (pay : Bytes) : Instr :=
  .seek (BitVec.ofNat 128 (le (slice pay 0 16))) (pay.getD 16 0)

/-- The row of R81 that a well-framed packet matches. -/
def decodeRow (w : Word) (ws : List Word) (bytes : Bytes) : Option Instr :=
  match opcOf w with
  | 1 => decodeInit w bytes
  | 2 => decodeLdst w bytes
  | 3 => if w = 0x30000000#32 then some (.enc (ws.getD 1 0) bytes) else none
  | 4 => if w = 0x40000000#32 then some (.dec (ws.getD 1 0) bytes) else none
  | 5 => if w = 0x50000011#32 then some (decodeSeek bytes) else none
  | 6 => if w = 0x60000000#32 then some .getpos else none
  | 7 => if w = 0x70000000#32 then some .getrem else none
  | 8 => if w = 0x80000000#32 then some .getst else none
  | 9 => if w = 0x90000000#32 then some .wipe else none
  | _ => none

/-- R80: the opcodes that are not reserved. -/
def opcodeAssigned (w : Word) : Bool := decide (1 ≤ opcOf w ∧ opcOf w ≤ 9)

/-- The decoder, total on packets: framing first (the packet's length depends on its words alone, R84), then the table. -/
def decode (k : Packet) : Except DecodeError Instr :=
  match k.words with
  | [] => .error .noCommandWord
  | w :: ws =>
    match framingError w ws k.bytes with
    | some e => .error e
    | none =>
      match decodeRow w ws k.bytes with
      | some i => .ok i
      | none => .error (if opcodeAssigned w then .reservedField else .reservedOpcode)

/-- Format I (R72): the row's match word with `PLEN` and, for CFBS, `SEG` at bit 12. -/
def encodeI (row : Nat) (seg : Byte) (pay : Bytes) : Packet :=
  ⟨[BitVec.ofNat 32 (row + seg.toNat * 2 ^ 12 + pay.length)], pay⟩

/-- Format D (R73). -/
def encodeD (row : Word) (olen : Word) (data : Bytes) : Packet :=
  ⟨[row, BitVec.ofNat 32 data.length, olen], data⟩

/-- The packet of a command, from the match words of R81. -/
def encode : Instr → Packet
  | .initCtr32be pay => encodeI 0x11000000 0 pay
  | .initCtr32le pay => encodeI 0x11100000 0 pay
  | .initCtr64be pay => encodeI 0x11200000 0 pay
  | .initCtr64le pay => encodeI 0x11300000 0 pay
  | .initCtr128be pay => encodeI 0x11400000 0 pay
  | .initCtr128le pay => encodeI 0x11500000 0 pay
  | .initBelt pay => encodeI 0x11600000 0 pay
  | .initCbc pay => encodeI 0x12000000 0 pay
  | .initCfb pay => encodeI 0x13000000 0 pay
  | .initCfb8 pay => encodeI 0x14000000 0 pay
  | .initCfbs seg pay => encodeI 0x15000000 seg pay
  | .initOfb pay => encodeI 0x16000000 0 pay
  | .initPcbc pay => encodeI 0x17000000 0 pay
  | .initIge pay => encodeI 0x18000000 0 pay
  | .initXts pay => encodeI 0x19000000 0 pay
  | .initCbccs1 pay => encodeI 0x1A100000 0 pay
  | .initCbccs2 pay => encodeI 0x1A200000 0 pay
  | .initCbccs3 pay => encodeI 0x1A300000 0 pay
  | .initEcbcs1 pay => encodeI 0x1B100000 0 pay
  | .initEcbcs2 pay => encodeI 0x1B200000 0 pay
  | .initEcbcs3 pay => encodeI 0x1B300000 0 pay
  | .ldstCbc pay => encodeI 0x22000000 0 pay
  | .ldstCfb pay => encodeI 0x23000000 0 pay
  | .ldstCfb8 pay => encodeI 0x24000000 0 pay
  | .ldstCfbs seg pay => encodeI 0x25000000 seg pay
  | .ldstOfb pay => encodeI 0x26000000 0 pay
  | .ldstPcbc pay => encodeI 0x27000000 0 pay
  | .ldstIge pay => encodeI 0x28000000 0 pay
  | .ldstXts pay => encodeI 0x29000000 0 pay
  | .enc olen data => encodeD 0x30000000#32 olen data
  | .dec olen data => encodeD 0x40000000#32 olen data
  | .seek blk off => ⟨[0x50000011#32], leBytes 16 blk.toNat ++ [off]⟩
  | .getpos => ⟨[0x60000000#32], []⟩
  | .getrem => ⟨[0x70000000#32], []⟩
  | .getst => ⟨[0x80000000#32], []⟩
  | .wipe => ⟨[0x90000000#32], []⟩

/-- The packet whose bits are `w`, numbered as the opcode table numbers them (bit 0 the least significant bit of `W0`, the
later words and bytes counting on) and zero above `nbits`: what follows `W0` is what its opcode announces (R84). -/
def tablePacket (nbits w : Nat) : Packet :=
  let v := w % 2 ^ nbits
  let w0 : Word := BitVec.ofNat 32 v
  match framingOf w0 with
  | .payload => ⟨[w0], leBytes (plenOf w0) (v / 2 ^ 32)⟩
  | .data =>
    let ilen : Word := BitVec.ofNat 32 (v / 2 ^ 32)
    ⟨[w0, ilen, BitVec.ofNat 32 (v / 2 ^ 64)], leBytes ilen.toNat (v / 2 ^ 96)⟩
  | .bare => ⟨[w0], []⟩

/-- The command the decoder reads from that packet. -/
def decodeTableWord (nbits w : Nat) : Option Instr :=
  match decode (tablePacket nbits w) with
  | .ok i => some i
  | .error _ => none

end Sys2Proof
end

