-- ==== Sys2Proof/Config.lean ====
section
/-! DEFINITION. What is fixed for one engine and is not state (00_scope.md R5 to R10): the parameters, what makes them
admissible, and the parameters of the machine this model runs. The cipher capabilities, `REM_BITS`, `CS1_SHORT_POS` and the
free bytes are constants without a body, so a claim holds whatever they are. -/

namespace Sys2Proof

/-- R8: where the CTS variant CS1 places the short block. -/
inductive ShortPos where
  | penultimate
  | last
deriving DecidableEq, Repr, Inhabited

/-- The implementation parameters of 00_scope.md section 3. `PAR` (R6) has no architectural effect and is left out
(log entry 10); `LEN_BITS` (R9) is fixed at 32. -/
structure Params where
  /-- R5: the block size in bytes. -/
  bs : Nat
  /-- R10: `encrypt_block` of the main cipher. -/
  E : Bytes → Bytes
  /-- R10: `decrypt_block` of the main cipher. -/
  D : Bytes → Bytes
  /-- R10: `encrypt_block` of the XTS tweaker. -/
  T : Bytes → Bytes
  /-- R7: the width to which GETREM saturates. -/
  remBits : Nat
  /-- R8. -/
  cs1ShortPos : ShortPos
  /-- The bytes drawn where the spec leaves a register unspecified (U1, U2 of 93_implementation_defined.md). -/
  free : Nat → Byte

/-- What R5, R7 and R10 require of the parameters of an engine: `E` and `D` are inverse permutations of `BS`-byte strings
and `T` is a permutation of 16-byte strings. -/
structure Params.Valid (p : Params) : Prop where
  bs_pos : 1 ≤ p.bs
  bs_le : p.bs ≤ 127
  E_length : ∀ b : Bytes, b.length = p.bs → (p.E b).length = p.bs
  D_length : ∀ b : Bytes, b.length = p.bs → (p.D b).length = p.bs
  D_E : ∀ b : Bytes, b.length = p.bs → p.D (p.E b) = b
  E_D : ∀ b : Bytes, b.length = p.bs → p.E (p.D b) = b
  T_length : ∀ b : Bytes, b.length = 16 → (p.T b).length = 16
  T_injective : ∀ a b : Bytes, a.length = 16 → b.length = 16 → p.T a = p.T b → a = b
  remBits_pos : 1 ≤ p.remBits
  remBits_le : p.remBits ≤ 128

/-- A `BS`-byte array (R10). -/
abbrev Block (n : Nat) := { b : Bytes // b.length = n }

/-- The first `n` bytes of a string, completed with zeros: a block of `n` bytes is itself. -/
def Block.ofBytes (n : Nat) (b : Bytes) : Block n :=
  ⟨(b ++ List.replicate n 0).take n, by simp⟩

/-- The capability that a permutation of blocks gives, as a function of byte strings. -/
def Block.lift {n : Nat} (f : Block n → Block n) (b : Bytes) : Bytes := (f (Block.ofBytes n b)).val

namespace Config

/-- The block size of the machine this model runs: R5's default, the size at which every command of the table can run.
DESIGN CHOICE (log entry 1); the meanings take any `Params`. -/
abbrev BS : Nat := 16

/-- R10: the keyed main cipher, any permutation of blocks (log entry 2). -/
opaque mainCipher : Equiv.Perm (Block BS)

/-- R10: the keyed XTS tweaker, any permutation of 16-byte blocks (log entry 2). -/
opaque tweakCipher : Equiv.Perm (Block 16)

/-- R7: `REM_BITS - 1`; the width is any of 1 to 128 (log entry 3). -/
opaque remBitsIndex : Fin 128

/-- R8: either value (log entry 3). -/
opaque cs1ShortPos : ShortPos

/-- The free bytes of U1 and U2: nothing is known of them (log entry 4). -/
opaque freeByte : Nat → Byte

/-- The parameters of the machine that `exec` and `step` run. -/
def params : Params where
  bs := BS
  E := Block.lift mainCipher
  D := Block.lift mainCipher.symm
  T := Block.lift tweakCipher
  remBits := remBitsIndex.val + 1
  cs1ShortPos := cs1ShortPos
  free := freeByte

end Config

end Sys2Proof
end

