-- ==== Sys2Proof/Machine/State.lean ====
section
/-! DEFINITION. The state of BME (10_state.md R20 to R35) as plain data, the response port (30_encoding.md R78), what the
host does next (70_reset_and_hazards.md R286), and the state after reset (R280). -/

namespace Sys2Proof.Machine

/-- R23: the mode engine now selected. The reserved codes 12 to 15 are never held, so they have no constructor
(log entry 9). -/
inductive Mode where
  | none
  | ctr
  | cbc
  | cfb
  | cfb8
  | cfbs
  | ofb
  | pcbc
  | ige
  | xts
  | cbccts
  | ecbcts
deriving DecidableEq, Repr

/-- R24: the counter layout; code 0 is the first constructor (log entry 9). -/
inductive Flavor where
  | ctr32be
  | ctr32le
  | ctr64be
  | ctr64le
  | ctr128be
  | ctr128le
  | belt
deriving DecidableEq, Repr

/-- R25: the stealing variant; code 0, held when no CTS mode is selected, is `none` (log entry 9). -/
inductive Variant where
  | none
  | cs1
  | cs2
  | cs3
deriving DecidableEq, Repr

/-- R78: a response, the status word `R0` and the output bytes. -/
structure Response where
  r0 : Word
  out : Bytes
deriving DecidableEq, Repr

/-- The state. The first thirteen fields are R20's registers. `resp` is the response port: the response to the
last command, from when the command is done until the host receives it (20_memory.md R57). `pending` (what the host puts to the
engine next, in order) and `draws` (how many free bytes have been drawn) are the model's own (log entries 5 and 4). -/
structure State where
  mode : Mode
  flavor : Flavor
  variant : Variant
  seg : Byte
  pos : Byte
  ctr : BitVec 128
  nonce : Bytes
  ksbuf : Bytes
  iv : Bytes
  fb : Bytes
  x : Bytes
  y : Bytes
  tw : Bytes
  resp : Option Response
  pending : List HostEvent
  draws : Nat
deriving DecidableEq, Repr

/-- BME has no trap and no stuck state (60_exceptions.md R268, 93_implementation_defined.md section 1: nothing gets the
treatment `stuck`): an error is a status in the response, after which the engine goes on. So nothing raises a fault. -/
inductive Fault where
deriving DecidableEq, Repr

/-- Why a step has no meaning. -/
inductive Refusal where
  /-- Raised by `exec` for a command that has no meaning yet (none is left). Safe. -/
  | notModelled (mnemonic : String)
  /-- Raised by `step` for a packet whose word or byte counts differ from what its words announce: 20_memory.md R57 gives it
  no meaning "and a model refuses it" (U3; log entry 7). Safe: nothing is claimed beyond it. -/
  | malformedPacket
  /-- Raised by `step` for a command that the host issues before it has the response to the previous one: 20_memory.md R57
  forbids it, and U3 of 93_implementation_defined.md says `refuse` (log entry 7). Safe: nothing is claimed beyond it. -/
  | earlyCommand
deriving DecidableEq, Repr

/-- R280: every register zero and `MODE = NONE`, at the block size of this machine. No event is put to it, no response
stands on the port and no free byte has been drawn (log entries 4 and 5). -/
def State.reset : State where
  mode := .none
  flavor := .ctr32be
  variant := .none
  seg := 0
  pos := 0
  ctr := 0
  nonce := zeros Config.BS
  ksbuf := zeros Config.BS
  iv := zeros Config.BS
  fb := zeros Config.BS
  x := zeros Config.BS
  y := zeros Config.BS
  tw := zeros 16
  resp := none
  pending := []
  draws := 0

end Sys2Proof.Machine
end

