-- ==== Sys2Proof/Machine/Flags.lean ====
section
/-! DEFINITION. BME has no status flags, condition codes or sticky error bits (10_state.md R37). What stands in their place is
the status of a response: the four statuses, their codes and the response word (30_encoding.md R78, R79; 60_exceptions.md
R260). -/

namespace Sys2Proof.Machine

/-- R79, R260. -/
inductive Status where
  | ok
  | lengthError
  | constructionError
  | illegalCommand
deriving DecidableEq, Repr

/-- R78, R79: `R0`, the code in bits 3:0 and zero above. -/
def Status.word : Status → Word
  | .ok => 0
  | .lengthError => 1
  | .constructionError => 2
  | .illegalCommand => 3

end Sys2Proof.Machine
end

