-- ==== Sys2Proof/Machine/Ops.lean ====
section
/-! DEFINITION. The shared operations: ending a command with a response (30_encoding.md R78), raising an error
(60_exceptions.md R264), clearing the registers (40_common.md R114, R118, R124), running a rule's loop, drawing an
unspecified value, and taking the host's next event. BME has no trap entry and no trap return (R268, R269): `raise` is the
one exceptional exit of every command, and there is nothing to return from. -/

namespace Sys2Proof.Machine

/-- `return OK, Out`. -/
def State.finish (s : State) (out : Bytes) : State :=
  { s with resp := some ⟨Status.ok.word, out⟩ }

/-- `raise <Error>` (00_scope.md R13): no register is written and no output returned (R264). -/
def State.raise (s : State) (e : Status) : State :=
  { s with resp := some ⟨e.word, []⟩ }

/-- `every register <- 0` (R114, R118, R124; R280). -/
def State.clear (s : State) (p : Params) : State :=
  { s with
    mode := .none, flavor := .ctr32be, variant := .none, seg := 0, pos := 0, ctr := 0,
    nonce := zeros p.bs, ksbuf := zeros p.bs, iv := zeros p.bs, fb := zeros p.bs, x := zeros p.bs, y := zeros p.bs,
    tw := zeros 16 }

/-- R13: `for` over pieces of the input in order, each yielding output bytes that are appended to `Out`. -/
def fold {α : Type} (f : State → α → State × Bytes) : State → List α → State × Bytes
  | s, [] => (s, [])
  | s, a :: as =>
    let here := f s a
    let rest := fold f here.1 as
    (rest.1, here.2 ++ rest.2)

/-- The next `n` free bytes: the arbitrary value of a register the spec leaves unspecified (U1, U2; log entry 4). -/
def freeBytes (p : Params) (s : State) (n : Nat) : Bytes := (List.range n).map fun k => p.free (s.draws + k)

/-- `TW <- unspecified` (47_xts.md R230). -/
def State.dropTw (s : State) (p : Params) : State :=
  { s with tw := freeBytes p s 16, draws := s.draws + 16 }

/-- `IV <- unspecified` (48_cts.md R249). -/
def State.dropIv (s : State) (p : Params) : State :=
  { s with iv := freeBytes p s p.bs, draws := s.draws + p.bs }

/-- The reset input (70_reset_and_hazards.md R281): the registers as R280 says, no response to a command in progress. What
the host does later stays pending (log entry 6). -/
def State.hardReset (s : State) (p : Params) : State :=
  { s.clear p with resp := none }

/-- What the engine finds when it is ready for the next event; `early` is a command issued before its time (R57). -/
inductive Taken where
  | idle
  | early
  | received (s : State)
  | reset (s : State)
  | command (k : Packet) (s : State)
deriving DecidableEq, Repr

/-- The response on the port is the host's, and the port is empty (R57). With an empty port nothing changes. -/
def State.receive (s : State) : State := { s with resp := none }

/-- R58: the oldest event the host puts to the engine, taken off the list. R57: the host issues a command, also one that a reset
input then cuts short, only with the response to the previous one received. -/
def State.take (s : State) : Taken :=
  match s.pending, s.resp with
  | [], _ => .idle
  | .receive :: rest, _ => .received (State.receive { s with pending := rest })
  | .reset Option.none :: rest, _ => .reset { s with pending := rest }
  | .reset (some _) :: rest, Option.none => .reset { s with pending := rest }
  | .command k :: rest, Option.none => .command k { s with pending := rest }
  | .reset (some _) :: _, some _ => .early
  | .command _ :: _, some _ => .early

/-- What becomes of a packet that is no command: reserved words get `IllegalCommand` (30_encoding.md R83, R84), a packet
with wrong counts has no meaning (20_memory.md R57). -/
def answerUndecoded (e : DecodeError) (s : State) : Host.Outcome State Fault Refusal :=
  match e with
  | .reservedOpcode | .reservedField => .next (s.raise .illegalCommand)
  | .noCommandWord | .wordCount | .byteCount => .refused .malformedPacket

/-- The host receives what stands on the response port and issues a packet ahead of everything pending: the engine takes it
next. -/
def State.issueFirst (s : State) (k : Packet) : State :=
  { s.receive with pending := .command k :: s.pending }

end Sys2Proof.Machine
end

