-- ==== Sys2Proof/Machine/Operands.lean ====
section
/-! DEFINITION. What a command's operands must satisfy and how its payload is used: the lengths of payloads (30_encoding.md
R76, R77), the lengths of data (40_common.md R111), the modes a block size can carry (41_ctr.md R131, 47_xts.md R220), and
the common parts of INIT and LDST (R114, R118). -/

namespace Sys2Proof.Machine

/-- R76: `IVLEN(MODE)`. -/
def ivLen (p : Params) : Mode → Nat
  | .ige => 2 * p.bs
  | .xts => 16
  | .none | .ecbcts => 0
  | .ctr | .cbc | .cfb | .cfb8 | .cfbs | .ofb | .pcbc | .cbccts => p.bs

/-- R77: `STLEN(MODE)`; LDST does not exist for the modes given 0. -/
def stLen (p : Params) : Mode → Nat
  | .ige => 2 * p.bs
  | .xts => 16
  | .none | .ctr | .cbccts | .ecbcts => 0
  | .cbc | .cfb | .cfb8 | .cfbs | .ofb | .pcbc => p.bs

/-- R71, R84: the SEG field of CFBS is 1 to `BS`. -/
def segInRange (p : Params) (seg : Byte) : Bool := decide (1 ≤ seg.toNat ∧ seg.toNat ≤ p.bs)

/-- R111: `len_ok(MODE, L)`. -/
def lenOk (p : Params) (s : State) (len : Nat) : Bool :=
  match s.mode with
  | .none | .ctr | .ofb | .cfb | .cfb8 => true
  | .cfbs => decide (len % s.seg.toNat = 0)
  | .cbc | .pcbc | .ige => decide (len % p.bs = 0)
  | .xts | .cbccts | .ecbcts => decide (p.bs ≤ len)

/-- R114: the common part of INIT. `runnable` says that the fields are in range and that this `BS` can carry the mode;
`arm` is the init arm of R115. -/
def initWith (p : Params) (mode : Mode) (runnable : Bool) (pay : Bytes) (arm : State → State) (s : State) :
    Host.Outcome State Fault Refusal :=
  if runnable = false then .next (s.raise .illegalCommand)
  else if pay.length ≠ ivLen p mode then .next (s.raise .constructionError)
  else .next ((arm { s.clear p with mode := mode }).finish [])

/-- R118: the position bytes a GETST of the mode can have produced. -/
def sposOk (p : Params) (mode : Mode) (spos : Byte) : Bool :=
  match mode with
  | .cfb | .ofb => decide (spos.toNat < p.bs)
  | .none | .ctr | .cbc | .cfb8 | .cfbs | .pcbc | .ige | .xts | .cbccts | .ecbcts => decide (spos = 0)

/-- R118: the common part of LDST: the checks, the clearing, then `load` with the saved state and `SPOS`. -/
def loadWith (p : Params) (mode : Mode) (runnable : Bool) (pay : Bytes) (load : State → Bytes → Byte → State) (s : State) :
    Host.Outcome State Fault Refusal :=
  let n := stLen p mode
  let spos := pay.getD n 0
  if runnable = false then .next (s.raise .illegalCommand)
  else if pay.length ≠ n + 1 then .next (s.raise .constructionError)
  else if sposOk p mode spos = false then .next (s.raise .constructionError)
  else .next ((load { s.clear p with mode := mode } (slice pay 0 n) spos).finish [])

/-- R110: the checks of ENC and DEC, then the arm of the mode for the direction. -/
def transformWith (p : Params) (arm : State → Bytes → State × Bytes) (olen : Word) (data : Bytes) (s : State) :
    Host.Outcome State Fault Refusal :=
  if s.mode = .none then .next (s.raise .illegalCommand)
  else if olen.toNat ≠ data.length then .next (s.raise .lengthError)
  else if lenOk p s data.length = false then .next (s.raise .lengthError)
  else .next ((arm s data).1.finish (arm s data).2)

end Sys2Proof.Machine
end

