-- ==== Sys2Proof/Machine/Cbc.lean ====
section
/-! DEFINITION. The CBC feedback engine (42_cbc.md). -/

namespace Sys2Proof.Machine

/-- R161: one block of ENC. -/
def cbcEncBlock (p : Params) (s : State) (b : Bytes) : State × Bytes :=
  let c := p.E (xorBytes b s.iv)
  ({ s with iv := c }, c)

/-- R162: one block of DEC; the chaining value is the ciphertext block as received. -/
def cbcDecBlock (p : Params) (s : State) (b : Bytes) : State × Bytes :=
  ({ s with iv := b }, xorBytes (p.D b) s.iv)

/-- R161. -/
def cbcEncArm (p : Params) (s : State) (data : Bytes) : State × Bytes :=
  fold (cbcEncBlock p) s (chunks p.bs (data.length / p.bs) data)

/-- R162. -/
def cbcDecArm (p : Params) (s : State) (data : Bytes) : State × Bytes :=
  fold (cbcDecBlock p) s (chunks p.bs (data.length / p.bs) data)

/-- R160. -/
def execInitCbc (pay : Bytes) (s : State) (p : Params := Config.params) : Host.Outcome State Fault Refusal :=
  initWith p .cbc true pay (fun t => { t with iv := pay }) s

/-- R118, R165. -/
def execLdstCbc (pay : Bytes) (s : State) (p : Params := Config.params) : Host.Outcome State Fault Refusal :=
  loadWith p .cbc true pay (fun t saved _ => { t with iv := saved }) s

end Sys2Proof.Machine
end

