-- ==== Sys2Proof/Machine/Cfb.lean ====
section
/-! DEFINITION. The CFB engines (43_cfb.md): buffered full-block CFB, CFB-8 and the generalised feedback width. -/

namespace Sys2Proof.Machine

/-- R171, R172: the ciphertext byte `c` replaces the keystream byte it used; a complete block is encrypted at once. -/
def cfbFeed (p : Params) (s : State) (c : Byte) : State :=
  let fb := s.fb.set s.pos.toNat c
  if s.pos.toNat + 1 = p.bs then { s with fb := p.E fb, pos := 0 }
  else { s with fb := fb, pos := BitVec.ofNat 8 (s.pos.toNat + 1) }

/-- R171: one byte of ENC. -/
def cfbEncByte (p : Params) (s : State) (b : Byte) : State × Bytes :=
  let c := b ^^^ s.fb.getD s.pos.toNat 0
  (cfbFeed p s c, [c])

/-- R172: one byte of DEC. -/
def cfbDecByte (p : Params) (s : State) (b : Byte) : State × Bytes :=
  (cfbFeed p s b, [b ^^^ s.fb.getD s.pos.toNat 0])

/-- R171. -/
def cfbEncArm (p : Params) (s : State) (data : Bytes) : State × Bytes := fold (cfbEncByte p) s data

/-- R172. -/
def cfbDecArm (p : Params) (s : State) (data : Bytes) : State × Bytes := fold (cfbDecByte p) s data

/-- R178, R180: the shift register loses its oldest bytes and takes the ciphertext at the tail. -/
def shiftIn (s : State) (c : Bytes) : State := { s with iv := s.iv.drop c.length ++ c }

/-- R178: one byte of ENC. -/
def cfb8EncByte (p : Params) (s : State) (b : Byte) : State × Bytes :=
  let o := b ^^^ (p.E s.iv).getD 0 0
  (shiftIn s [o], [o])

/-- R178: one byte of DEC; the byte fed back is the input byte. -/
def cfb8DecByte (p : Params) (s : State) (b : Byte) : State × Bytes :=
  (shiftIn s [b], [b ^^^ (p.E s.iv).getD 0 0])

/-- R178. -/
def cfb8EncArm (p : Params) (s : State) (data : Bytes) : State × Bytes := fold (cfb8EncByte p) s data

/-- R178. -/
def cfb8DecArm (p : Params) (s : State) (data : Bytes) : State × Bytes := fold (cfb8DecByte p) s data

/-- R180: one segment of ENC. -/
def cfbsEncSeg (p : Params) (s : State) (b : Bytes) : State × Bytes :=
  let o := xorBytes b (slice (p.E s.iv) 0 s.seg.toNat)
  (shiftIn s o, o)

/-- R180: one segment of DEC. -/
def cfbsDecSeg (p : Params) (s : State) (b : Bytes) : State × Bytes :=
  (shiftIn s b, xorBytes b (slice (p.E s.iv) 0 s.seg.toNat))

/-- R180. -/
def cfbsEncArm (p : Params) (s : State) (data : Bytes) : State × Bytes :=
  fold (cfbsEncSeg p) s (chunks s.seg.toNat (data.length / s.seg.toNat) data)

/-- R180. -/
def cfbsDecArm (p : Params) (s : State) (data : Bytes) : State × Bytes :=
  fold (cfbsDecSeg p) s (chunks s.seg.toNat (data.length / s.seg.toNat) data)

/-- R170. -/
def execInitCfb (pay : Bytes) (s : State) (p : Params := Config.params) : Host.Outcome State Fault Refusal :=
  initWith p .cfb true pay (fun t => { t with fb := p.E pay, pos := 0 }) s

/-- R177. -/
def execInitCfb8 (pay : Bytes) (s : State) (p : Params := Config.params) : Host.Outcome State Fault Refusal :=
  initWith p .cfb8 true pay (fun t => { t with iv := pay }) s

/-- R179. -/
def execInitCfbs (seg : Byte) (pay : Bytes) (s : State) (p : Params := Config.params) : Host.Outcome State Fault Refusal :=
  initWith p .cfbs (segInRange p seg) pay (fun t => { t with seg := seg, iv := pay }) s

/-- R118, R175: no call of `E`. -/
def execLdstCfb (pay : Bytes) (s : State) (p : Params := Config.params) : Host.Outcome State Fault Refusal :=
  loadWith p .cfb true pay (fun t saved spos => { t with fb := saved, pos := spos }) s

/-- R118, R182. -/
def execLdstCfb8 (pay : Bytes) (s : State) (p : Params := Config.params) : Host.Outcome State Fault Refusal :=
  loadWith p .cfb8 true pay (fun t saved _ => { t with iv := saved }) s

/-- R118, R182. -/
def execLdstCfbs (seg : Byte) (pay : Bytes) (s : State) (p : Params := Config.params) : Host.Outcome State Fault Refusal :=
  loadWith p .cfbs (segInRange p seg) pay (fun t saved _ => { t with seg := seg, iv := saved }) s

end Sys2Proof.Machine
end

