-- ==== Sys2Proof/Machine/Ctr.lean ====
section
/-! DEFINITION. The CTR engine (41_ctr.md): flavors and counter blocks, the stream adapter, INIT in CTR mode, SEEK, GETPOS and
GETREM. -/

namespace Sys2Proof.Machine

/-- R24: `W`, the counter width in bits. -/
def Flavor.width : Flavor → Nat
  | .ctr32be | .ctr32le => 32
  | .ctr64be | .ctr64le => 64
  | .ctr128be | .ctr128le | .belt => 128

/-- R131: whether a block size supports the flavor. -/
def Flavor.supported (f : Flavor) (bs : Nat) : Bool :=
  match f with
  | .ctr32be | .ctr32le => decide (4 ≤ bs)
  | .ctr64be | .ctr64le => decide (8 ≤ bs)
  | .ctr128be | .ctr128le | .belt => decide (bs = 16)

/-- R133, big-endian flavors: the segment is the last `S` bytes. -/
def blockForBe (p : Params) (w : Nat) (nonce : Bytes) (i : Nat) : Bytes :=
  let seg := w / 8
  nonce.take (p.bs - seg) ++ beBytes seg ((be (nonce.drop (p.bs - seg)) + i) % 2 ^ w)

/-- R133, little-endian flavors: the segment is the first `S` bytes. -/
def blockForLe (w : Nat) (nonce : Bytes) (i : Nat) : Bytes :=
  let seg := w / 8
  leBytes seg ((le (nonce.take seg) + i) % 2 ^ w) ++ nonce.drop seg

/-- R133, R135: BelT-CTR counts before each use. -/
def blockForBelt (nonce : Bytes) (i : Nat) : Bytes := leBytes 16 ((le nonce + 1 + i) % 2 ^ 128)

/-- R133: `block_for(NONCE, i)`. -/
def blockFor (p : Params) (f : Flavor) (nonce : Bytes) (i : Nat) : Bytes :=
  match f with
  | .ctr32be | .ctr64be | .ctr128be => blockForBe p f.width nonce i
  | .ctr32le | .ctr64le | .ctr128le => blockForLe f.width nonce i
  | .belt => blockForBelt nonce i

/-- R134: keystream block `i`. -/
def keystream (p : Params) (f : Flavor) (nonce : Bytes) (i : Nat) : Bytes := p.E (blockFor p f nonce i)

/-- R136: `(CTR + 1) mod 2^W`. -/
def Flavor.next (f : Flavor) (c : Nat) : Nat := (c + 1) % 2 ^ f.width

/-- R126: `(CTR - 1) mod 2^W`. -/
def Flavor.prev (f : Flavor) (c : Nat) : Nat := (c + (2 ^ f.width - 1)) % 2 ^ f.width

/-- R126: `(POS + 1) mod BS`. -/
def nextPos (p : Params) (pos : Byte) : Byte := BitVec.ofNat 8 ((pos.toNat + 1) % p.bs)

/-- R137: a new keystream block, generated when its first byte is needed. -/
def ctrRefill (p : Params) (s : State) : State :=
  if s.pos = 0 then
    { s with ksbuf := keystream p s.flavor s.nonce s.ctr.toNat, ctr := BitVec.ofNat 128 (s.flavor.next s.ctr.toNat) }
  else s

/-- R137: one byte of ENC or DEC. -/
def ctrByte (p : Params) (s : State) (b : Byte) : State × Bytes :=
  let t := ctrRefill p s
  ({ t with pos := nextPos p t.pos }, [b ^^^ t.ksbuf.getD t.pos.toNat 0])

/-- R137: ENC and DEC in CTR mode. -/
def ctrArm (p : Params) (s : State) (data : Bytes) : State × Bytes := fold (ctrByte p) s data

/-- R132: INIT in CTR mode, with the `NONCE` the flavor keeps. -/
def initCtr (p : Params) (f : Flavor) (pay : Bytes) (s : State) : Host.Outcome State Fault Refusal :=
  initWith p .ctr (f.supported p.bs) pay
    (fun t => { t with flavor := f, nonce := if f = .belt then p.E pay else pay, ctr := 0, pos := 0, ksbuf := zeros p.bs }) s

def execInitCtr32be (pay : Bytes) (s : State) (p : Params := Config.params) : Host.Outcome State Fault Refusal :=
  initCtr p .ctr32be pay s

def execInitCtr32le (pay : Bytes) (s : State) (p : Params := Config.params) : Host.Outcome State Fault Refusal :=
  initCtr p .ctr32le pay s

def execInitCtr64be (pay : Bytes) (s : State) (p : Params := Config.params) : Host.Outcome State Fault Refusal :=
  initCtr p .ctr64be pay s

def execInitCtr64le (pay : Bytes) (s : State) (p : Params := Config.params) : Host.Outcome State Fault Refusal :=
  initCtr p .ctr64le pay s

def execInitCtr128be (pay : Bytes) (s : State) (p : Params := Config.params) : Host.Outcome State Fault Refusal :=
  initCtr p .ctr128be pay s

def execInitCtr128le (pay : Bytes) (s : State) (p : Params := Config.params) : Host.Outcome State Fault Refusal :=
  initCtr p .ctr128le pay s

def execInitBelt (pay : Bytes) (s : State) (p : Params := Config.params) : Host.Outcome State Fault Refusal :=
  initCtr p .belt pay s

/-- R139: the logical position's block, `PBLK`. -/
def pblk (s : State) : Nat := if s.pos = 0 then s.ctr.toNat else s.flavor.prev s.ctr.toNat

/-- R140: SEEK on a CTR stream, to byte `OFF` of block `BLK mod 2^W`. -/
def seekTo (p : Params) (s : State) (blk : BitVec 128) (off : Byte) : State :=
  let b := blk.toNat % 2 ^ s.flavor.width
  if off = 0 then { s with ctr := BitVec.ofNat 128 b, pos := 0 }
  else
    { s with
      ksbuf := keystream p s.flavor s.nonce b, ctr := BitVec.ofNat 128 (s.flavor.next b), pos := off }

/-- R140. -/
def execSeek (blk : BitVec 128) (off : Byte) (s : State) (p : Params := Config.params) : Host.Outcome State Fault Refusal :=
  if s.mode ≠ .ctr then .next (s.raise .illegalCommand)
  else if p.bs ≤ off.toNat then .next (s.raise .illegalCommand)
  else .next ((seekTo p s blk off).finish [])

/-- R142. -/
def execGetpos (s : State) : Host.Outcome State Fault Refusal :=
  if s.mode ≠ .ctr then .next (s.raise .illegalCommand)
  else .next (s.finish (leBytes 16 (pblk s) ++ [s.pos]))

/-- R144. -/
def execGetrem (s : State) (p : Params := Config.params) : Host.Outcome State Fault Refusal :=
  if s.mode ≠ .ctr then .next (s.raise .illegalCommand)
  else .next (s.finish (leBytes 16 (min (2 ^ s.flavor.width - 1 - s.ctr.toNat) (2 ^ p.remBits - 1))))

end Sys2Proof.Machine
end

