-- ==== Sys2Proof/Machine/Cts.lean ====
section
/-! DEFINITION. The CTS engines (48_cts.md): CS1, CS2 and CS3 over a CBC and over an ECB base. -/

namespace Sys2Proof.Machine

/-- R242: the base transform of ENC on one full block. -/
def baseEnc (p : Params) (s : State) (b : Bytes) : State × Bytes :=
  if s.mode = .cbccts then cbcEncBlock p s b else (s, p.E b)

/-- R242: the base transform of DEC on one full block. -/
def baseDec (p : Params) (s : State) (b : Bytes) : State × Bytes :=
  if s.mode = .cbccts then cbcDecBlock p s b else (s, p.D b)

/-- R241: the number of blocks, the last possibly short. -/
def ctsBlocks (p : Params) (len : Nat) : Nat := ceilDiv len p.bs

/-- R241: the length of the last block. -/
def ctsLast (p : Params) (len : Nat) : Nat := len - (ctsBlocks p len - 1) * p.bs

/-- R244: whether the short block goes before the full one. (`VARIANT` 0 is never held in a CTS mode, R25.) -/
def shortFirst (p : Params) (v : Variant) (d : Nat) : Bool :=
  match v with
  | .cs1 => decide (d = p.bs) || decide (p.cs1ShortPos = .penultimate)
  | .none | .cs2 => decide (d = p.bs)
  | .cs3 => false

/-- R244: `arrange(VARIANT, d, S, Y)`. -/
def arrange (p : Params) (v : Variant) (d : Nat) (short full : Bytes) : Bytes :=
  if shortFirst p v d then short ++ full else full ++ short

/-- R249: the chaining value left by a CBCCTS command is unspecified; ECBCTS has none. -/
def ctsDone (p : Params) (s : State) : State := if s.mode = .cbccts then s.dropIv p else s

/-- R243: the last two blocks of ENC. -/
def ctsStealEnc (p : Params) (s : State) (pa pb : Bytes) : State × Bytes :=
  let d := pb.length
  let base := baseEnc p s pa
  let x := base.2
  let y := if s.mode = .cbccts then p.E (xorBytes (pb ++ zeros (p.bs - d)) x) else p.E (pb ++ slice x d p.bs)
  (base.1, arrange p s.variant d (slice x 0 d) y)

/-- R245: the last two blocks of DEC, given as they stand in the input. -/
def ctsStealDec (p : Params) (s : State) (d : Nat) (tail : Bytes) : State × Bytes :=
  let first := shortFirst p s.variant d
  let short := if first then slice tail 0 d else slice tail p.bs (p.bs + d)
  let full := if first then slice tail d (d + p.bs) else slice tail 0 p.bs
  let z := p.D full
  let pb := if s.mode = .cbccts then xorBytes (slice z 0 d) short else slice z 0 d
  let base := baseDec p s (short ++ slice z d p.bs)
  (base.1, base.2 ++ pb)

/-- R243: ENC. -/
def ctsEncArm (p : Params) (s : State) (data : Bytes) : State × Bytes :=
  let n := ctsBlocks p data.length
  if n = 1 then
    let one := baseEnc p s (slice data 0 p.bs)
    (ctsDone p one.1, one.2)
  else
    let lead := fold (baseEnc p) s (chunks p.bs (n - 2) data)
    let last := ctsStealEnc p lead.1 (slice data ((n - 2) * p.bs) ((n - 1) * p.bs)) (slice data ((n - 1) * p.bs) data.length)
    (ctsDone p last.1, lead.2 ++ last.2)

/-- R245: DEC. -/
def ctsDecArm (p : Params) (s : State) (data : Bytes) : State × Bytes :=
  let n := ctsBlocks p data.length
  if n = 1 then
    let one := baseDec p s (slice data 0 p.bs)
    (ctsDone p one.1, one.2)
  else
    let lead := fold (baseDec p) s (chunks p.bs (n - 2) data)
    let last := ctsStealDec p lead.1 (ctsLast p data.length) (slice data ((n - 2) * p.bs) data.length)
    (ctsDone p last.1, lead.2 ++ last.2)

/-- R240: INIT over the CBC base. -/
def initCbccts (p : Params) (v : Variant) (pay : Bytes) (s : State) : Host.Outcome State Fault Refusal :=
  initWith p .cbccts true pay (fun t => { t with variant := v, iv := pay }) s

/-- R240: INIT over the ECB base. -/
def initEcbcts (p : Params) (v : Variant) (pay : Bytes) (s : State) : Host.Outcome State Fault Refusal :=
  initWith p .ecbcts true pay (fun t => { t with variant := v }) s

def execInitCbccs1 (pay : Bytes) (s : State) (p : Params := Config.params) : Host.Outcome State Fault Refusal :=
  initCbccts p .cs1 pay s

def execInitCbccs2 (pay : Bytes) (s : State) (p : Params := Config.params) : Host.Outcome State Fault Refusal :=
  initCbccts p .cs2 pay s

def execInitCbccs3 (pay : Bytes) (s : State) (p : Params := Config.params) : Host.Outcome State Fault Refusal :=
  initCbccts p .cs3 pay s

def execInitEcbcs1 (pay : Bytes) (s : State) (p : Params := Config.params) : Host.Outcome State Fault Refusal :=
  initEcbcts p .cs1 pay s

def execInitEcbcs2 (pay : Bytes) (s : State) (p : Params := Config.params) : Host.Outcome State Fault Refusal :=
  initEcbcts p .cs2 pay s

def execInitEcbcs3 (pay : Bytes) (s : State) (p : Params := Config.params) : Host.Outcome State Fault Refusal :=
  initEcbcts p .cs3 pay s

end Sys2Proof.Machine
end

