-- ==== Sys2Proof/Machine/Ige.lean ====
section
/-! DEFINITION. The IGE engine with doubled state (46_ige.md). -/

namespace Sys2Proof.Machine

/-- R211: one block of ENC. -/
def igeEncBlock (p : Params) (s : State) (b : Bytes) : State × Bytes :=
  let c := xorBytes (p.E (xorBytes b s.y)) s.x
  ({ s with x := b, y := c }, c)

/-- R212: one block of DEC. -/
def igeDecBlock (p : Params) (s : State) (b : Bytes) : State × Bytes :=
  let m := xorBytes (p.D (xorBytes b s.x)) s.y
  ({ s with x := m, y := b }, m)

/-- R211. -/
def igeEncArm (p : Params) (s : State) (data : Bytes) : State × Bytes :=
  fold (igeEncBlock p) s (chunks p.bs (data.length / p.bs) data)

/-- R212. -/
def igeDecArm (p : Params) (s : State) (data : Bytes) : State × Bytes :=
  fold (igeDecBlock p) s (chunks p.bs (data.length / p.bs) data)

/-- R210: `y` first, `x` second. -/
def execInitIge (pay : Bytes) (s : State) (p : Params := Config.params) : Host.Outcome State Fault Refusal :=
  initWith p .ige true pay (fun t => { t with y := slice pay 0 p.bs, x := slice pay p.bs (2 * p.bs) }) s

/-- R118, R213. -/
def execLdstIge (pay : Bytes) (s : State) (p : Params := Config.params) : Host.Outcome State Fault Refusal :=
  loadWith p .ige true pay
    (fun t saved _ => { t with y := slice saved 0 p.bs, x := slice saved p.bs (2 * p.bs) }) s

end Sys2Proof.Machine
end

