-- ==== Sys2Proof/Machine/Ofb.lean ====
section
/-! DEFINITION. The OFB engine and its stream adapter (44_ofb.md). -/

namespace Sys2Proof.Machine

/-- R191: the next keystream block, generated when its first byte is needed. -/
def ofbRefill (p : Params) (s : State) : State :=
  if s.pos = 0 then { s with iv := p.E s.iv } else s

/-- R191: one byte of ENC or DEC. -/
def ofbByte (p : Params) (s : State) (b : Byte) : State × Bytes :=
  let t := ofbRefill p s
  ({ t with pos := nextPos p t.pos }, [b ^^^ t.iv.getD t.pos.toNat 0])

/-- R191. -/
def ofbArm (p : Params) (s : State) (data : Bytes) : State × Bytes := fold (ofbByte p) s data

/-- R190. -/
def execInitOfb (pay : Bytes) (s : State) (p : Params := Config.params) : Host.Outcome State Fault Refusal :=
  initWith p .ofb true pay (fun t => { t with iv := pay, pos := 0 }) s

/-- R118, R193. -/
def execLdstOfb (pay : Bytes) (s : State) (p : Params := Config.params) : Host.Outcome State Fault Refusal :=
  loadWith p .ofb true pay (fun t saved spos => { t with iv := saved, pos := spos }) s

end Sys2Proof.Machine
end

