-- ==== Sys2Proof/Machine/Pcbc.lean ====
section
/-! DEFINITION. The PCBC feedback engine (45_pcbc.md). -/

namespace Sys2Proof.Machine

/-- R201: one block of ENC. -/
def pcbcEncBlock (p : Params) (s : State) (b : Bytes) : State × Bytes :=
  let c := p.E (xorBytes b s.iv)
  ({ s with iv := xorBytes c b }, c)

/-- R202: one block of DEC. -/
def pcbcDecBlock (p : Params) (s : State) (b : Bytes) : State × Bytes :=
  let m := xorBytes (p.D b) s.iv
  ({ s with iv := xorBytes m b }, m)

/-- R201. -/
def pcbcEncArm (p : Params) (s : State) (data : Bytes) : State × Bytes :=
  fold (pcbcEncBlock p) s (chunks p.bs (data.length / p.bs) data)

/-- R202. -/
def pcbcDecArm (p : Params) (s : State) (data : Bytes) : State × Bytes :=
  fold (pcbcDecBlock p) s (chunks p.bs (data.length / p.bs) data)

/-- R200. -/
def execInitPcbc (pay : Bytes) (s : State) (p : Params := Config.params) : Host.Outcome State Fault Refusal :=
  initWith p .pcbc true pay (fun t => { t with iv := pay }) s

/-- R118, R203. -/
def execLdstPcbc (pay : Bytes) (s : State) (p : Params := Config.params) : Host.Outcome State Fault Refusal :=
  loadWith p .pcbc true pay (fun t saved _ => { t with iv := saved }) s

end Sys2Proof.Machine
end

