-- ==== Sys2Proof/Machine/Xts.lean ====
section
/-! DEFINITION. The XTS engine (47_xts.md): the tweak multiplier, the per-block tweak and ciphertext stealing. -/

namespace Sys2Proof.Machine

/-- R221: multiplication by `x` in GF(2^128), on the little-endian number of the 16 bytes. -/
def mulx (t : Bytes) : Bytes :=
  let v := le t
  let doubled := 2 * v % 2 ^ 128
  leBytes 16 (if v / 2 ^ 127 = 1 then doubled ^^^ 0x87 else doubled)

/-- R222: its inverse. No command uses it: the stealing rules keep both tweaks. -/
def mulxInv (t : Bytes) : Bytes :=
  let v := le t
  let c := v % 2
  leBytes 16 ((if c = 1 then v ^^^ 0x87 else v) / 2 + c * 2 ^ 127)

/-- R224: one whole block of ENC. -/
def xtsEncBlock (p : Params) (s : State) (b : Bytes) : State × Bytes :=
  ({ s with tw := mulx s.tw }, xorBytes (p.E (xorBytes b s.tw)) s.tw)

/-- R225: one whole block of DEC. -/
def xtsDecBlock (p : Params) (s : State) (b : Bytes) : State × Bytes :=
  ({ s with tw := mulx s.tw }, xorBytes (p.D (xorBytes b s.tw)) s.tw)

/-- R227: the stealing step of ENC on the last full block and the tail of `b` bytes. -/
def xtsStealEnc (p : Params) (s : State) (pa pb : Bytes) : State × Bytes :=
  let t0 := s.tw
  let t1 := mulx t0
  let cc := xorBytes (p.E (xorBytes pa t0)) t0
  let pp := pb ++ slice cc pb.length 16
  let ca := xorBytes (p.E (xorBytes pp t1)) t1
  (s.dropTw p, ca ++ slice cc 0 pb.length)

/-- R228: the stealing step of DEC; the later tweak first. -/
def xtsStealDec (p : Params) (s : State) (ca cb : Bytes) : State × Bytes :=
  let t0 := s.tw
  let t1 := mulx t0
  let pp := xorBytes (p.D (xorBytes ca t1)) t1
  let cc := cb ++ slice pp cb.length 16
  let pa := xorBytes (p.D (xorBytes cc t0)) t0
  (s.dropTw p, pa ++ slice pp 0 cb.length)

/-- R224, R225: how many blocks are processed plainly: all of them, or all but the last when there is a tail. -/
def xtsPlainBlocks (len : Nat) : Nat := if len % 16 = 0 then len / 16 else len / 16 - 1

/-- R224, R225: the plain blocks, then the stealing step if there is a tail. -/
def xtsArm (block : State → Bytes → State × Bytes) (steal : State → Bytes → Bytes → State × Bytes)
    (s : State) (data : Bytes) : State × Bytes :=
  let nfull := xtsPlainBlocks data.length
  let plain := fold block s (chunks 16 nfull data)
  if data.length % 16 = 0 then plain
  else
    let last := steal plain.1 (slice data (16 * nfull) (16 * nfull + 16)) (slice data (16 * nfull + 16) data.length)
    (last.1, plain.2 ++ last.2)

/-- R224. -/
def xtsEncArm (p : Params) (s : State) (data : Bytes) : State × Bytes := xtsArm (xtsEncBlock p) (xtsStealEnc p) s data

/-- R225. -/
def xtsDecArm (p : Params) (s : State) (data : Bytes) : State × Bytes := xtsArm (xtsDecBlock p) (xtsStealDec p) s data

/-- R220. -/
def xtsRunnable (p : Params) : Bool := decide (p.bs = 16)

/-- R223: the only use of `T`. -/
def execInitXts (pay : Bytes) (s : State) (p : Params := Config.params) : Host.Outcome State Fault Refusal :=
  initWith p .xts (xtsRunnable p) pay (fun t => { t with tw := p.T pay }) s

/-- R118, R234: no call of `T`. -/
def execLdstXts (pay : Bytes) (s : State) (p : Params := Config.params) : Host.Outcome State Fault Refusal :=
  loadWith p .xts (xtsRunnable p) pay (fun t saved _ => { t with tw := saved }) s

end Sys2Proof.Machine
end

