-- ==== Sys2Proof/Machine/Transform.lean ====
section
/-! DEFINITION. The commands every mode shares (40_common.md): ENC and DEC with their dispatch on the mode (R110), GETST
(R121) and WIPE (R124). -/

namespace Sys2Proof.Machine

/-- R110: the ENC arm of the mode. -/
def encArm (p : Params) (s : State) (data : Bytes) : State × Bytes :=
  match s.mode with
  | .none => (s, [])
  | .ctr => ctrArm p s data
  | .cbc => cbcEncArm p s data
  | .cfb => cfbEncArm p s data
  | .cfb8 => cfb8EncArm p s data
  | .cfbs => cfbsEncArm p s data
  | .ofb => ofbArm p s data
  | .pcbc => pcbcEncArm p s data
  | .ige => igeEncArm p s data
  | .xts => xtsEncArm p s data
  | .cbccts | .ecbcts => ctsEncArm p s data

/-- R110: the DEC arm of the mode. -/
def decArm (p : Params) (s : State) (data : Bytes) : State × Bytes :=
  match s.mode with
  | .none => (s, [])
  | .ctr => ctrArm p s data
  | .cbc => cbcDecArm p s data
  | .cfb => cfbDecArm p s data
  | .cfb8 => cfb8DecArm p s data
  | .cfbs => cfbsDecArm p s data
  | .ofb => ofbArm p s data
  | .pcbc => pcbcDecArm p s data
  | .ige => igeDecArm p s data
  | .xts => xtsDecArm p s data
  | .cbccts | .ecbcts => ctsDecArm p s data

/-- R110. -/
def execEnc (olen : Word) (data : Bytes) (s : State) (p : Params := Config.params) : Host.Outcome State Fault Refusal :=
  transformWith p (encArm p) olen data s

/-- R110. -/
def execDec (olen : Word) (data : Bytes) (s : State) (p : Params := Config.params) : Host.Outcome State Fault Refusal :=
  transformWith p (decArm p) olen data s

/-- R121: what GETST returns; none where the mode exports nothing. -/
def exported (s : State) : Option Bytes :=
  match s.mode with
  | .cbc | .cfb8 | .cfbs | .pcbc => some (s.iv ++ [0])
  | .ofb => some (s.iv ++ [s.pos])
  | .cfb => some (s.fb ++ [s.pos])
  | .ige => some (s.y ++ s.x ++ [0])
  | .xts => some (s.tw ++ [0])
  | .none | .ctr | .cbccts | .ecbcts => none

/-- R121. -/
def execGetst (s : State) : Host.Outcome State Fault Refusal :=
  match exported s with
  | some out => .next (s.finish out)
  | none => .next (s.raise .illegalCommand)

/-- R124. -/
def execWipe (s : State) (p : Params := Config.params) : Host.Outcome State Fault Refusal :=
  .next ((s.clear p).finish [])

end Sys2Proof.Machine
end

