-- ==== Sys2Proof/Machine/Dispatch.lean ====
section
/-! DEFINITION. One arm per command of the opcode table: its meaning, with the parameters of this machine (Config.params, the
default of every meaning's last argument). -/

namespace Sys2Proof.Machine

def exec (i : Instr) (s : State) : Host.Outcome State Fault Refusal :=
  match i with
  | .initCtr32be pay => Sys2Proof.Machine.execInitCtr32be pay s
  | .initCtr32le pay => Sys2Proof.Machine.execInitCtr32le pay s
  | .initCtr64be pay => Sys2Proof.Machine.execInitCtr64be pay s
  | .initCtr64le pay => Sys2Proof.Machine.execInitCtr64le pay s
  | .initCtr128be pay => Sys2Proof.Machine.execInitCtr128be pay s
  | .initCtr128le pay => Sys2Proof.Machine.execInitCtr128le pay s
  | .initBelt pay => Sys2Proof.Machine.execInitBelt pay s
  | .initCbc pay => Sys2Proof.Machine.execInitCbc pay s
  | .initCfb pay => Sys2Proof.Machine.execInitCfb pay s
  | .initCfb8 pay => Sys2Proof.Machine.execInitCfb8 pay s
  | .initCfbs seg pay => Sys2Proof.Machine.execInitCfbs seg pay s
  | .initOfb pay => Sys2Proof.Machine.execInitOfb pay s
  | .initPcbc pay => Sys2Proof.Machine.execInitPcbc pay s
  | .initIge pay => Sys2Proof.Machine.execInitIge pay s
  | .initXts pay => Sys2Proof.Machine.execInitXts pay s
  | .initCbccs1 pay => Sys2Proof.Machine.execInitCbccs1 pay s
  | .initCbccs2 pay => Sys2Proof.Machine.execInitCbccs2 pay s
  | .initCbccs3 pay => Sys2Proof.Machine.execInitCbccs3 pay s
  | .initEcbcs1 pay => Sys2Proof.Machine.execInitEcbcs1 pay s
  | .initEcbcs2 pay => Sys2Proof.Machine.execInitEcbcs2 pay s
  | .initEcbcs3 pay => Sys2Proof.Machine.execInitEcbcs3 pay s
  | .ldstCbc pay => Sys2Proof.Machine.execLdstCbc pay s
  | .ldstCfb pay => Sys2Proof.Machine.execLdstCfb pay s
  | .ldstCfb8 pay => Sys2Proof.Machine.execLdstCfb8 pay s
  | .ldstCfbs seg pay => Sys2Proof.Machine.execLdstCfbs seg pay s
  | .ldstOfb pay => Sys2Proof.Machine.execLdstOfb pay s
  | .ldstPcbc pay => Sys2Proof.Machine.execLdstPcbc pay s
  | .ldstIge pay => Sys2Proof.Machine.execLdstIge pay s
  | .ldstXts pay => Sys2Proof.Machine.execLdstXts pay s
  | .enc olen data => Sys2Proof.Machine.execEnc olen data s
  | .dec olen data => Sys2Proof.Machine.execDec olen data s
  | .seek blk off => Sys2Proof.Machine.execSeek blk off s
  | .getpos => Sys2Proof.Machine.execGetpos s
  | .getrem => Sys2Proof.Machine.execGetrem s
  | .getst => Sys2Proof.Machine.execGetst s
  | .wipe => Sys2Proof.Machine.execWipe s

end Sys2Proof.Machine
end

