-- ==== Sys2Proof/Machine/Step.lean ====
section
/-! DEFINITION. One step of the engine: it takes the oldest event the host puts to it (20_memory.md R58) and does it whole
(00_scope.md R14). BME has no program counter and fetches nothing from memory (10_state.md R21): the place a step fetches its
next instruction from is the list of what the host does next (log entry 5). -/

namespace Sys2Proof.Machine

/-- A step with a given meaning of commands. With nothing pending the engine holds its state (60_exceptions.md R276). -/
def stepWith (run : Instr → State → Host.Outcome State Fault Refusal) (p : Params) (s : State) :
    Host.Outcome State Fault Refusal :=
  match s.take with
  | .idle => .next s
  | .early => .refused .earlyCommand
  | .received t => .next t
  | .reset t => .next (t.hardReset p)
  | .command k t =>
    match decode k with
    | .ok i => run i t
    | .error e => answerUndecoded e t

def step (s : State) : Host.Outcome State Fault Refusal := stepWith exec Config.params s

/-- The packet of a word of the opcode table, issued so that the very next step runs it. -/
def State.withFetchWord (s : State) (nbits w : Nat) : State := s.issueFirst (tablePacket nbits w)

end Sys2Proof.Machine
end

