-- ==== Sys2Proof/Machine/Instance.lean ====
section
/-! DEFINITION. The same machine for any parameters of 00_scope.md section 3: `execOn p` is `exec` and `stepOn p` is `step` with
`p` for Config.params. So the rules that speak of other block sizes (41_ctr.md R131, 47_xts.md R220), of `REM_BITS`, of
`CS1_SHORT_POS` and of a given cipher are modelled too, and the vectors of 95_test_vectors.md can be run. -/

namespace Sys2Proof.Machine

/-- Every command's meaning on an engine with parameters `p`. -/
def execOn (p : Params) (i : Instr) (s : State) : Host.Outcome State Fault Refusal :=
  match i with
  | .initCtr32be pay => execInitCtr32be pay s p
  | .initCtr32le pay => execInitCtr32le pay s p
  | .initCtr64be pay => execInitCtr64be pay s p
  | .initCtr64le pay => execInitCtr64le pay s p
  | .initCtr128be pay => execInitCtr128be pay s p
  | .initCtr128le pay => execInitCtr128le pay s p
  | .initBelt pay => execInitBelt pay s p
  | .initCbc pay => execInitCbc pay s p
  | .initCfb pay => execInitCfb pay s p
  | .initCfb8 pay => execInitCfb8 pay s p
  | .initCfbs seg pay => execInitCfbs seg pay s p
  | .initOfb pay => execInitOfb pay s p
  | .initPcbc pay => execInitPcbc pay s p
  | .initIge pay => execInitIge pay s p
  | .initXts pay => execInitXts pay s p
  | .initCbccs1 pay => execInitCbccs1 pay s p
  | .initCbccs2 pay => execInitCbccs2 pay s p
  | .initCbccs3 pay => execInitCbccs3 pay s p
  | .initEcbcs1 pay => execInitEcbcs1 pay s p
  | .initEcbcs2 pay => execInitEcbcs2 pay s p
  | .initEcbcs3 pay => execInitEcbcs3 pay s p
  | .ldstCbc pay => execLdstCbc pay s p
  | .ldstCfb pay => execLdstCfb pay s p
  | .ldstCfb8 pay => execLdstCfb8 pay s p
  | .ldstCfbs seg pay => execLdstCfbs seg pay s p
  | .ldstOfb pay => execLdstOfb pay s p
  | .ldstPcbc pay => execLdstPcbc pay s p
  | .ldstIge pay => execLdstIge pay s p
  | .ldstXts pay => execLdstXts pay s p
  | .enc olen data => execEnc olen data s p
  | .dec olen data => execDec olen data s p
  | .seek blk off => execSeek blk off s p
  | .getpos => execGetpos s
  | .getrem => execGetrem s p
  | .getst => execGetst s
  | .wipe => execWipe s p

/-- One step of an engine with parameters `p`. -/
def stepOn (p : Params) (s : State) : Host.Outcome State Fault Refusal := stepWith (execOn p) p s

end Sys2Proof.Machine
end

