-- ==== Sys2Proof/Safety.lean ====
section
/-! DEFINITION. The terms the claims use: blocks of a message, the invariant of the reachable states, the shape of packets, what a
command may change, and the loops of the rules as sequences of states. None of them is used by the machine. -/

namespace Sys2Proof

open Machine

/-- 30_encoding.md R70, R84: the packet holds the words and bytes its words announce: after `W0` with OPC 1, 2 or 5 `PLEN`
bytes, with OPC 3 or 4 two words and `W1` bytes, with any other OPC nothing. -/
def Packet.WellFramed (k : Packet) : Prop :=
  ∃ w ws, k.words = w :: ws ∧
    ((opcOf w = 1 ∨ opcOf w = 2 ∨ opcOf w = 5) ∧ ws = [] ∧ k.bytes.length = plenOf w ∨
      (opcOf w = 3 ∨ opcOf w = 4) ∧ (∃ ilen olen, ws = [ilen, olen] ∧ k.bytes.length = ilen.toNat) ∨
      (opcOf w = 0 ∨ 6 ≤ opcOf w) ∧ ws = [] ∧ k.bytes = [])

/-- INIT and LDST commands (30_encoding.md R72). -/
def Instr.isInit : Instr → Bool
  | .initCtr32be _ | .initCtr32le _ | .initCtr64be _ | .initCtr64le _ | .initCtr128be _ | .initCtr128le _
  | .initBelt _ | .initCbc _ | .initCfb _ | .initCfb8 _ | .initCfbs _ _ | .initOfb _ | .initPcbc _
  | .initIge _ | .initXts _ | .initCbccs1 _ | .initCbccs2 _ | .initCbccs3 _ | .initEcbcs1 _ | .initEcbcs2 _
  | .initEcbcs3 _ => true
  | .ldstCbc _ | .ldstCfb _ | .ldstCfb8 _ | .ldstCfbs _ _ | .ldstOfb _ | .ldstPcbc _ | .ldstIge _ | .ldstXts _
  | .enc _ _ | .dec _ _ | .seek _ _ | .getpos | .getrem | .getst | .wipe => false

/-- ENC (`true`) or DEC (`false`). -/
def Instr.transform (encrypt : Bool) (olen : Word) (data : Bytes) : Instr :=
  if encrypt then .enc olen data else .dec olen data

/-- 20_memory.md R63, 30_encoding.md R78: how many bytes a command that succeeds returns. -/
def Instr.outLength (i : Instr) (s : State) : Nat :=
  match i with
  | .enc _ data | .dec _ data => data.length
  | .getpos => 17
  | .getrem => 16
  | .getst => stLen Config.params s.mode + 1
  | .initCtr32be _ | .initCtr32le _ | .initCtr64be _ | .initCtr64le _ | .initCtr128be _ | .initCtr128le _
  | .initBelt _ | .initCbc _ | .initCfb _ | .initCfb8 _ | .initCfbs _ _ | .initOfb _ | .initPcbc _
  | .initIge _ | .initXts _ | .initCbccs1 _ | .initCbccs2 _ | .initCbccs3 _ | .initEcbcs1 _ | .initEcbcs2 _
  | .initEcbcs3 _ | .ldstCbc _ | .ldstCfb _ | .ldstCfb8 _ | .ldstCfbs _ _ | .ldstOfb _ | .ldstPcbc _
  | .ldstIge _ | .ldstXts _ | .seek _ _ | .wipe => 0

end Sys2Proof

namespace Sys2Proof.Machine

/-- 20_memory.md R53: block `k` of a byte string, for pieces of `n` bytes. -/
def blk (n : Nat) (s : Bytes) (k : Nat) : Bytes := slice s (k * n) ((k + 1) * n)

/-- The modes in which `IV` is live (10_state.md R22). -/
def Mode.ivLive : Mode → Bool
  | .cbc | .cfb8 | .cfbs | .ofb | .pcbc | .cbccts => true
  | .none | .ctr | .cfb | .ige | .xts | .ecbcts => false

/-- The modes in which `POS` is live (R22). -/
def Mode.posLive : Mode → Bool
  | .ctr | .cfb | .ofb => true
  | .none | .cbc | .cfb8 | .cfbs | .pcbc | .ige | .xts | .cbccts | .ecbcts => false

/-- The modes in which `VARIANT` is live (R22). -/
def Mode.variantLive : Mode → Bool
  | .cbccts | .ecbcts => true
  | .none | .ctr | .cbc | .cfb | .cfb8 | .cfbs | .ofb | .pcbc | .ige | .xts => false

/-- The invariant of an engine with parameters `p`: the widths of the block registers (10_state.md section 3), the ranges of
the control registers (R25 to R28), registers that are not live are zero (R22), the mode can run at this `BS` (41_ctr.md R131,
47_xts.md R220), and the buffered keystream block is the one before `CTR` (R30). -/
structure State.Inv (s : State) (p : Params := Config.params) : Prop where
  nonce_length : s.nonce.length = p.bs
  ksbuf_length : s.ksbuf.length = p.bs
  iv_length : s.iv.length = p.bs
  fb_length : s.fb.length = p.bs
  x_length : s.x.length = p.bs
  y_length : s.y.length = p.bs
  tw_length : s.tw.length = 16
  pos_lt : s.pos.toNat < p.bs
  ctr_lt : s.ctr.toNat < 2 ^ s.flavor.width
  ctr_supported : s.mode = .ctr → s.flavor.supported p.bs = true
  ctr_dead : s.mode ≠ .ctr → s.flavor = .ctr32be ∧ s.ctr = 0 ∧ s.nonce = zeros p.bs ∧ s.ksbuf = zeros p.bs
  pos_dead : s.mode.posLive = false → s.pos = 0
  seg_range : s.mode = .cfbs → 1 ≤ s.seg.toNat ∧ s.seg.toNat ≤ p.bs
  seg_dead : s.mode ≠ .cfbs → s.seg = 0
  variant_range : s.mode.variantLive = true → s.variant ≠ .none
  variant_dead : s.mode.variantLive = false → s.variant = .none
  iv_dead : s.mode.ivLive = false → s.iv = zeros p.bs
  fb_dead : s.mode ≠ .cfb → s.fb = zeros p.bs
  xy_dead : s.mode ≠ .ige → s.x = zeros p.bs ∧ s.y = zeros p.bs
  tw_dead : s.mode ≠ .xts → s.tw = zeros 16
  xts_bs : s.mode = .xts → p.bs = 16
  ksbuf_is_keystream : s.mode = .ctr → s.pos ≠ 0 →
    s.ksbuf = keystream p s.flavor s.nonce (s.flavor.prev s.ctr.toNat)

/-- The thirteen registers of R20 are those of `t`; only the response and the model's own fields may differ. -/
def State.SameRegisters (s t : State) : Prop :=
  t = { s with resp := t.resp, pending := t.pending, draws := t.draws }

/-- Every register zero (R280), the response `OK` with no output; what is pending and what has been drawn stay. -/
def State.fresh (s : State) : State :=
  { State.reset with pending := s.pending, draws := s.draws, resp := some ⟨0, []⟩ }

/-- The response a state shows is `OK` with these bytes. -/
def State.Answers (s : State) (out : Bytes) : Prop := s.resp = some ⟨0, out⟩

/-- 30_encoding.md R84: the values that make a word with an assigned opcode illegal at block size `bs`. -/
def ReservedField (bs : Nat) (w : Word) : Prop :=
  let opc := opcOf w
  let mode := field w 27 24
  let sub := field w 23 20
  let seg := field w 19 12
  let rsv := field w 11 8
  (opc = 1 ∨ opc = 2) ∧ (rsv ≠ 0 ∨ mode = 0 ∨ 12 ≤ mode ∨ (mode ≠ 5 ∧ seg ≠ 0) ∨ (mode = 5 ∧ (seg = 0 ∨ bs < seg))) ∨
  opc = 1 ∧ (mode = 1 ∧ 7 ≤ sub ∨ (mode = 10 ∨ mode = 11) ∧ (sub = 0 ∨ 4 ≤ sub) ∨
    (mode ≠ 1 ∧ mode ≠ 10 ∧ mode ≠ 11) ∧ sub ≠ 0) ∨
  opc = 2 ∧ (sub ≠ 0 ∨ mode = 1 ∨ mode = 10 ∨ mode = 11) ∨
  (opc = 3 ∨ opc = 4 ∨ 6 ≤ opc ∧ opc ≤ 9) ∧ w.toNat % 2 ^ 28 ≠ 0 ∨
  opc = 5 ∧ w.toNat % 2 ^ 28 ≠ 0x11

/-- The events of a host that obeys 20_memory.md R57 and R58: it issues each command with the response to the previous one
received. -/
def exchanges : List Packet → List HostEvent
  | [] => []
  | k :: ks => .command k :: .receive :: exchanges ks

/-- A well-framed packet of that word, issued in its time (20_memory.md R57), is answered `IllegalCommand` and changes nothing
else (R264). -/
def IllegalWord (w : Word) : Prop :=
  ∀ (s : State) (ws : List Word) (bytes : Bytes) (rest : List HostEvent),
    Packet.WellFramed ⟨w :: ws, bytes⟩ → s.resp = none → s.pending = .command ⟨w :: ws, bytes⟩ :: rest →
    step s = .next { s with pending := rest, resp := some ⟨3, []⟩ }

/-- Every INIT word of the mode code with a non-zero `SUB`, `SEG` or `RSV` field is illegal. -/
def InitFieldsMustBeZero (mode : Nat) : Prop :=
  ∀ w : Word, opcOf w = 1 → field w 27 24 = mode → (field w 23 20 ≠ 0 ∨ field w 19 12 ≠ 0 ∨ field w 11 8 ≠ 0) →
    IllegalWord w

/-- The INIT command of a counter flavor. -/
def Flavor.initCommand : Flavor → Bytes → Instr
  | .ctr32be => .initCtr32be
  | .ctr32le => .initCtr32le
  | .ctr64be => .initCtr64be
  | .ctr64le => .initCtr64le
  | .ctr128be => .initCtr128be
  | .ctr128le => .initCtr128le
  | .belt => .initBelt

/-- The code of a flavor (10_state.md R24). -/
def Flavor.code : Flavor → Nat
  | .ctr32be => 0
  | .ctr32le => 1
  | .ctr64be => 2
  | .ctr64le => 3
  | .ctr128be => 4
  | .ctr128le => 5
  | .belt => 6

/-- The code of a mode (10_state.md R23). -/
def Mode.code : Mode → Nat
  | .none => 0
  | .ctr => 1
  | .cbc => 2
  | .cfb => 3
  | .cfb8 => 4
  | .cfbs => 5
  | .ofb => 6
  | .pcbc => 7
  | .ige => 8
  | .xts => 9
  | .cbccts => 10
  | .ecbcts => 11

/-- The code of a variant (10_state.md R25). -/
def Variant.code : Variant → Nat
  | .none => 0
  | .cs1 => 1
  | .cs2 => 2
  | .cs3 => 3

/-- The INIT command of a CTS variant over the CBC base (`cbc = true`) or the ECB base. -/
def Variant.initCommand : Variant → Bool → Option (Bytes → Instr)
  | .none, _ => Option.none
  | .cs1, true => some .initCbccs1
  | .cs2, true => some .initCbccs2
  | .cs3, true => some .initCbccs3
  | .cs1, false => some .initEcbcs1
  | .cs2, false => some .initEcbcs2
  | .cs3, false => some .initEcbcs3

/-- The LDST command of a mode (30_encoding.md R81); `seg` is used by CFBS only. -/
def Mode.ldstCommand (seg : Byte) : Mode → Option (Bytes → Instr)
  | .cbc => some .ldstCbc
  | .cfb => some .ldstCfb
  | .cfb8 => some .ldstCfb8
  | .cfbs => some (.ldstCfbs seg)
  | .ofb => some .ldstOfb
  | .pcbc => some .ldstPcbc
  | .ige => some .ldstIge
  | .xts => some .ldstXts
  | .none | .ctr | .cbccts | .ecbcts => Option.none

/-- The packet of ENC or DEC (30_encoding.md R73), and the LengthError for an output capacity that is not the input's length
(40_common.md R110), in a mode that takes every length. -/
def FormatDAndLength (encrypt : Bool) (olen : Word) (data : Bytes) (s : State) : Prop :=
  encode (.transform encrypt olen data) =
    ⟨[if encrypt then 0x30000000#32 else 0x40000000#32, BitVec.ofNat 32 data.length, olen], data⟩ ∧
  (olen.toNat ≠ data.length → exec (.transform encrypt olen data) s = .next { s with resp := some ⟨1, []⟩ })

/-- 40_common.md R111: the lengths a mode does not take in one ENC or DEC, at this machine's block size. -/
def LengthRefused (s : State) (len : Nat) : Prop :=
  s.mode = .cfbs ∧ len % s.seg.toNat ≠ 0 ∨
  (s.mode = .cbc ∨ s.mode = .pcbc ∨ s.mode = .ige) ∧ len % Config.BS ≠ 0 ∨
  (s.mode = .xts ∨ s.mode = .cbccts ∨ s.mode = .ecbcts) ∧ len < Config.BS

/-- The modes that stream (40_common.md R112): `len` may be followed by more of the same message. -/
def Streams (bs : Nat) (s : State) (len : Nat) : Prop :=
  s.mode = .ctr ∨ s.mode = .ofb ∨ s.mode = .cfb ∨ s.mode = .cfb8 ∨
  s.mode = .cfbs ∧ len % s.seg.toNat = 0 ∨
  (s.mode = .cbc ∨ s.mode = .pcbc ∨ s.mode = .ige) ∧ len % bs = 0 ∨
  s.mode = .xts ∧ len % 16 = 0 ∧ 16 ≤ len

/-- A loop of a rule, as pseudocode runs it: states `t 0, t 1, ...` from `s`, where iteration `j` takes state `t j` and piece
`piece j` of the input and gives `t (j+1)` and piece `j` of the output; after `n` iterations the state is `last`. -/
def Loop {α β : Type} (n : Nat) (piece : Nat → α) (outPiece : Nat → β) (body : State → α → State → β → Prop)
    (s last : State) : Prop :=
  ∃ t : Nat → State, t 0 = s ∧ t n = last ∧ ∀ j, j < n → body (t j) (piece j) (t (j + 1)) (outPiece j)

/-- 47_xts.md R221, the byte-by-byte form: the carry enters from below and the last carry is returned. -/
def shiftBytes : Nat → Bytes → Bytes × Nat
  | carry, [] => ([], carry)
  | carry, b :: s =>
    let rest := shiftBytes (b.toNat / 128) s
    ((BitVec.ofNat 8 (b.toNat * 2 % 256) ||| BitVec.ofNat 8 carry) :: rest.1, rest.2)

/-- R221, the byte-by-byte form of `mulx`. -/
def mulxBytewise (t : Bytes) : Bytes :=
  let r := shiftBytes 0 t
  if r.2 = 1 then (r.1.headD 0 ^^^ 0x87) :: r.1.tail else r.1

end Sys2Proof.Machine
end

