-- ==== Sys2Proof/Certificates/Slice0/Obligations.lean ====
section
/-! DEFINITION. The statements for the provers: what the numbered rules of spec/ say the engine does. `exec` and `step` are the
machine at Config.params (block size 16, any ciphers); `execOn p` and `stepOn p` are the machine at any parameters `p`. A
response `some ⟨0, out⟩` is `OK` with output `out`; `⟨1, []⟩` is LengthError, `⟨2, []⟩` ConstructionError, `⟨3, []⟩`
IllegalCommand (30_encoding.md R79). -/

open Sys2Proof Sys2Proof.Machine

/-! ## Encoding -/

/-- No bit of an encoding is dropped: decoding the packet of an encodable command gives the command back. -/
def Obligations.DecodeInvertsEncode : Prop :=
  ∀ i : Instr, i.wellFormed = true → decode (encode i) = .ok i

/-- Each packet has one meaning: what decodes to a command is that command's packet. -/
def Obligations.DecodedPacketIsItsEncoding : Prop :=
  ∀ (k : Packet) (i : Instr), decode k = .ok i → i.wellFormed = true ∧ encode i = k

/-- Words written out from 30_encoding.md R81 and 95_test_vectors.md section 3 decode to their commands. -/
def Obligations.WrittenWordsDecode : Prop :=
  decode ⟨[0x11300010#32], zeros 16⟩ = .ok (.initCtr64le (zeros 16)) ∧
  decode ⟨[0x15004010#32], zeros 16⟩ = .ok (.initCfbs 4 (zeros 16)) ∧
  decode ⟨[0x1B100000#32], []⟩ = .ok (.initEcbcs1 []) ∧
  decode ⟨[0x28000021#32], zeros 33⟩ = .ok (.ldstIge (zeros 33)) ∧
  decode ⟨[0x30000000#32, 2#32, 2#32], [1, 2]⟩ = .ok (.enc 2 [1, 2]) ∧
  decode ⟨[0x50000011#32], [1, 0, 0, 0, 1, 0, 0, 0, 0, 0, 0, 0, 0, 0, 0, 0, 4]⟩ = .ok (.seek 0x100000001#128 4) ∧
  decode ⟨[0x90000000#32], []⟩ = .ok .wipe

/-- 30_encoding.md R83, R84: a reserved opcode (0 and 10 to 15) is framed like format N, and it and every reserved field value
make the word illegal: answered `IllegalCommand` with no state change. The spec marks this as its own decision D10. -/
def Obligations.ReservedWordsAreIllegal : Prop :=
  (∀ w : Word, opcOf w = 0 ∨ 10 ≤ opcOf w →
    IllegalWord w ∧ ∀ ws bytes, Packet.WellFramed ⟨w :: ws, bytes⟩ ↔ ws = [] ∧ bytes = []) ∧
  ∀ w : Word, ReservedField Config.BS w → IllegalWord w

/-- 20_memory.md R57: a step is refused exactly when the host breaks its duties: it issues a command before it has the response
to the previous one, or a packet whose counts are not those its words announce; nothing else stops the engine. The spec marks
the refusal as its own decision D5 (log entry 7). -/
def Obligations.OnlyHostErrorsStop : Prop :=
  ∀ s : State, (∀ r, step s ≠ .fault r) ∧
    (step s = .refused .earlyCommand ↔ s.resp ≠ none ∧
      ∃ k rest, s.pending = .command k :: rest ∨ s.pending = .reset (some k) :: rest) ∧
    (step s = .refused .malformedPacket ↔ s.resp = none ∧ ∃ k rest, s.pending = .command k :: rest ∧ ¬ k.WellFramed) ∧
    ∀ r, step s = .refused r → r = .earlyCommand ∨ r = .malformedPacket

/-! ## The step -/

/-- A step runs the command the next packet decodes to, on the state with that packet taken, when no earlier response is still
to be received (20_memory.md R57). -/
def Obligations.StepRunsTheDecodedCommand : Prop :=
  ∀ (s : State) (k : Packet) (rest : List HostEvent) (i : Instr),
    s.pending = .command k :: rest → s.resp = none → decode k = .ok i → step s = exec i { s with pending := rest }

/-- A word of the opcode table placed by `withFetchWord` is what the next step runs, on the state it was placed in, with the
response port empty. -/
def Obligations.TableWordRunsNext : Prop :=
  ∀ (s : State) (nbits w : Nat) (i : Instr),
    decodeTableWord nbits w = some i → step (s.withFetchWord nbits w) = exec i { s with resp := none }

/-- 20_memory.md R58: every step takes exactly the oldest event, and every command gets a response. 60_exceptions.md R276:
between commands the engine holds its state. 20_memory.md R57, 70_reset_and_hazards.md R286: receiving the response empties the
port, and a host that issues each command with the response to the previous one received, in well-framed packets, has every
command answered. 70_reset_and_hazards.md R281: a reset input, also one that arrives while a command is in progress, leaves the
reset state and no response. (What stays pending, that the count of drawn free bytes goes on, and the form of the events are the
model's: log entries 5 and 6.) -/
def Obligations.StepTakesTheOldestEvent : Prop :=
  ∀ s : State, (s.pending = [] → step s = .next s) ∧
    (∀ rest, s.pending = .receive :: rest → step s = .next { s with pending := rest, resp := none }) ∧
    (∀ inProgress rest, s.pending = .reset inProgress :: rest → inProgress = none ∨ s.resp = none →
      step s = .next { State.reset with pending := rest, draws := s.draws }) ∧
    (∀ (t : State) (k : Packet) (rest : List HostEvent), s.pending = .command k :: rest → step s = .next t →
      t.pending = rest ∧ ∃ r, t.resp = some r) ∧
    ∀ (k : Packet) (ks : List Packet), s.pending = exchanges (k :: ks) → s.resp = none → k.WellFramed →
      ∃ t r, step s = .next t ∧ t.resp = some r ∧ t.pending = .receive :: exchanges ks ∧
        step t = .next { t with resp := none, pending := exchanges ks }

/-! ## Reset, errors and the whole machine -/

/-- 70_reset_and_hazards.md R280: every register is zero after reset, and after WIPE (40_common.md R124) from any state. -/
def Obligations.ResetAndWipeZeroEveryRegister : Prop :=
  State.reset.mode = .none ∧ State.reset.flavor.code = 0 ∧ State.reset.variant.code = 0 ∧ State.reset.seg = 0 ∧
  State.reset.pos = 0 ∧ State.reset.ctr = 0 ∧
  (∀ r ∈ [State.reset.nonce, State.reset.ksbuf, State.reset.iv, State.reset.fb, State.reset.x, State.reset.y],
    r = zeros Config.BS) ∧
  State.reset.tw = zeros 16 ∧
  (encode .wipe).words = [0x90000000#32] ∧
  ∀ s : State, exec .wipe s = .next s.fresh ∧ State.reset.SameRegisters s.fresh

/-- The reset state meets the invariant. -/
def Obligations.ResetMeetsInvariant : Prop := State.reset.Inv

/-- Every step keeps the invariant: the widths and ranges of the registers (10_state.md R23 to R35), dead registers are zero
(R22), the mode can run, and a partly used keystream block is the one before `CTR` (R30). At any valid parameters, and at
this machine's. -/
def Obligations.StepKeepsInvariant : Prop :=
  (∀ p : Params, p.Valid → ∀ s t : State, s.Inv p → stepOn p s = .next t → t.Inv p) ∧
  ∀ s t : State, s.Inv → step s = .next t → t.Inv

/-- The machine `exec` and `step` are the one with Config.params, whose ciphers are inverse permutations of blocks and whose
parameters are in range (00_scope.md R5, R7, R10). -/
def Obligations.ThisMachineIsAValidEngine : Prop :=
  Config.params.Valid ∧ (∀ i s, execOn Config.params i s = exec i s) ∧ ∀ s, stepOn Config.params s = step s

/-- 70_reset_and_hazards.md R282: with no mode initialised, no data is processed and no state is read. -/
def Obligations.UninitialisedEngineProcessesNothing : Prop :=
  ∀ (s : State) (olen : Word) (data : Bytes) (blk : BitVec 128) (off : Byte), s.mode = .none →
    ∀ i ∈ [Instr.enc olen data, .dec olen data, .seek blk off, .getpos, .getrem, .getst],
      exec i s = .next { s with resp := some ⟨3, []⟩ }

/-- 60_exceptions.md R264: a command that ends in an error status changes nothing but the response and returns no bytes. -/
def Obligations.ErrorsChangeNothing : Prop :=
  ∀ (i : Instr) (s t : State) (r0 : Word) (out : Bytes),
    exec i s = .next t → t.resp = some ⟨r0, out⟩ → r0 ≠ 0 → out = [] ∧ t = { s with resp := some ⟨r0, []⟩ }

/-- 20_memory.md R63, 30_encoding.md R78, R79, 60_exceptions.md R260: every command is answered with one of the four statuses, an
error with no bytes and a success with exactly the bytes its rule builds. -/
def Obligations.ResponsesHaveTheirLength : Prop :=
  ∀ (i : Instr) (s : State), s.Inv → ∃ t r0 out, exec i s = .next t ∧ t.resp = some ⟨r0, out⟩ ∧
    (r0 = 0 ∨ r0 = 1 ∨ r0 = 2 ∨ r0 = 3) ∧ (r0 ≠ 0 → out = []) ∧ (r0 = 0 → out.length = i.outLength s)

/-- 10_state.md R39: which command writes which register. -/
def Obligations.RegistersAreWrittenByTheirCommandsOnly : Prop :=
  ∀ (s t : State) (olen : Word) (data : Bytes) (encrypt : Bool) (blk : BitVec 128) (off : Byte),
    (exec (.transform encrypt olen data) s = .next t →
      t.mode = s.mode ∧ t.flavor = s.flavor ∧ t.variant = s.variant ∧ t.seg = s.seg ∧ t.nonce = s.nonce ∧
      (s.mode.posLive = false → t.pos = s.pos) ∧ (s.mode ≠ .ctr → t.ctr = s.ctr ∧ t.ksbuf = s.ksbuf) ∧
      (s.mode.ivLive = false → t.iv = s.iv) ∧ (s.mode ≠ .cfb → t.fb = s.fb) ∧
      (s.mode ≠ .ige → t.x = s.x ∧ t.y = s.y) ∧ (s.mode ≠ .xts → t.tw = s.tw)) ∧
    (exec (.seek blk off) s = .next t →
      t = { s with pos := t.pos, ctr := t.ctr, ksbuf := t.ksbuf, resp := t.resp } ∧ (off = 0 → t.ksbuf = s.ksbuf)) ∧
    (∀ i ∈ [Instr.getpos, .getrem, .getst], exec i s = .next t → t = { s with resp := t.resp })

/-- 40_common.md R110, R111, 60_exceptions.md R261, R266: the checks of ENC and DEC in their order, and that whatever passes them
succeeds with as many bytes as it was given. The lengths of R111 for CBC, PCBC, IGE and CFBS are the spec's own decisions D16,
D17. -/
def Obligations.EncDecChecksAndCompletion : Prop :=
  ∀ (encrypt : Bool) (olen : Word) (data : Bytes) (s : State),
    (s.mode = .none → exec (.transform encrypt olen data) s = .next { s with resp := some ⟨3, []⟩ }) ∧
    (s.mode ≠ .none → olen.toNat ≠ data.length →
      exec (.transform encrypt olen data) s = .next { s with resp := some ⟨1, []⟩ }) ∧
    (s.mode ≠ .none → olen.toNat = data.length → LengthRefused s data.length →
      exec (.transform encrypt olen data) s = .next { s with resp := some ⟨1, []⟩ }) ∧
    (s.Inv → s.mode ≠ .none → olen.toNat = data.length → ¬ LengthRefused s data.length →
      ∃ t out, exec (.transform encrypt olen data) s = .next t ∧ t.Answers out ∧ out.length = data.length)

/-! ## INIT -/

/-- 42_cbc.md R160, 44_ofb.md R190, 45_pcbc.md R200: INIT.CBC, INIT.OFB and INIT.PCBC clear every register, select the mode and
store the IV as given; a payload of another length is a ConstructionError; a non-zero SUB, SEG or RSV is illegal. -/
def Obligations.InitStoresTheIv : Prop :=
  ∀ (pay : Bytes) (s : State),
    ∀ c ∈ [(Instr.initCbc, Mode.cbc, 0x12000000), (Instr.initOfb, Mode.ofb, 0x16000000),
        (Instr.initPcbc, Mode.pcbc, 0x17000000)],
      (encode (c.1 pay)).words = [BitVec.ofNat 32 (c.2.2 + pay.length)] ∧ (encode (c.1 pay)).bytes = pay ∧
      (pay.length = Config.BS → exec (c.1 pay) s = .next { s.fresh with mode := c.2.1, iv := pay }) ∧
      (pay.length ≠ Config.BS → exec (c.1 pay) s = .next { s with resp := some ⟨2, []⟩ }) ∧
      InitFieldsMustBeZero c.2.1.code

/-- 43_cfb.md R170: INIT.CFB stores the encrypted IV as the feedback block, at position 0. -/
def Obligations.InitCfbEncryptsTheIv : Prop :=
  ∀ (pay : Bytes) (s : State),
    (encode (.initCfb pay)).words = [BitVec.ofNat 32 (0x13000000 + pay.length)] ∧
    (pay.length = Config.BS →
      exec (.initCfb pay) s = .next { s.fresh with mode := .cfb, fb := Config.params.E pay, pos := 0 }) ∧
    (pay.length ≠ Config.BS → exec (.initCfb pay) s = .next { s with resp := some ⟨2, []⟩ }) ∧
    InitFieldsMustBeZero Mode.cfb.code

/-- 47_xts.md R223: INIT.XTS stores the payload encrypted by the tweaker; it needs a block size of 16 (R220). -/
def Obligations.InitXtsEncryptsTheTweak : Prop :=
  ∀ (pay : Bytes) (s : State),
    (encode (.initXts pay)).words = [BitVec.ofNat 32 (0x19000000 + pay.length)] ∧
    (pay.length = 16 → exec (.initXts pay) s = .next { s.fresh with mode := .xts, tw := Config.params.T pay }) ∧
    (pay.length ≠ 16 → exec (.initXts pay) s = .next { s with resp := some ⟨2, []⟩ }) ∧
    (∀ p : Params, p.bs ≠ 16 → execOn p (.initXts pay) s = .next { s with resp := some ⟨3, []⟩ }) ∧
    InitFieldsMustBeZero Mode.xts.code

/-- 46_ige.md R210: INIT.IGE takes `y` first and `x` second. -/
def Obligations.InitIgeSplitsItsPayload : Prop :=
  ∀ (y x pay : Bytes) (s : State),
    (encode (.initIge pay)).words = [BitVec.ofNat 32 (0x18000000 + pay.length)] ∧
    (y.length = Config.BS → x.length = Config.BS →
      exec (.initIge (y ++ x)) s = .next { s.fresh with mode := .ige, y := y, x := x }) ∧
    (pay.length ≠ 2 * Config.BS → exec (.initIge pay) s = .next { s with resp := some ⟨2, []⟩ }) ∧
    InitFieldsMustBeZero Mode.ige.code

/-- 48_cts.md R240: INIT of the six CTS commands selects the base and the variant, and stores the IV of the CBC base. -/
def Obligations.InitCtsSelectsBaseAndVariant : Prop :=
  (∀ (v : Variant) (pay : Bytes) (s : State) (mk : Bytes → Instr), v.initCommand true = some mk →
    (encode (mk pay)).words = [BitVec.ofNat 32 (0x1A000000 + v.code * 0x100000 + pay.length)] ∧
    (pay.length = Config.BS →
      exec (mk pay) s = .next { s.fresh with mode := .cbccts, variant := v, iv := pay }) ∧
    (pay.length ≠ Config.BS → exec (mk pay) s = .next { s with resp := some ⟨2, []⟩ })) ∧
  (∀ (v : Variant) (pay : Bytes) (s : State) (mk : Bytes → Instr), v.initCommand false = some mk →
    (encode (mk pay)).words = [BitVec.ofNat 32 (0x1B000000 + v.code * 0x100000 + pay.length)] ∧
    (pay = [] → exec (mk pay) s = .next { s.fresh with mode := .ecbcts, variant := v }) ∧
    (pay ≠ [] → exec (mk pay) s = .next { s with resp := some ⟨2, []⟩ })) ∧
  ∀ w : Word, opcOf w = 1 → field w 27 24 = 10 ∨ field w 27 24 = 11 →
    (field w 23 20 = 0 ∨ 3 < field w 23 20 ∨ field w 19 12 ≠ 0 ∨ field w 11 8 ≠ 0) → IllegalWord w

/-- 43_cfb.md R177, R179: INIT.CFB8 and INIT.CFBS store the raw IV (the spec's decision D30 for CFB8), CFBS its width, which
must be 1 to `BS`. -/
def Obligations.InitCfb8AndCfbsStoreTheRawIv : Prop :=
  ∀ (pay : Bytes) (seg : Byte) (s : State),
    (pay.length = Config.BS → exec (.initCfb8 pay) s = .next { s.fresh with mode := .cfb8, iv := pay }) ∧
    (pay.length ≠ Config.BS → exec (.initCfb8 pay) s = .next { s with resp := some ⟨2, []⟩ }) ∧
    (seg.toNat = 0 ∨ Config.BS < seg.toNat → exec (.initCfbs seg pay) s = .next { s with resp := some ⟨3, []⟩ }) ∧
    (1 ≤ seg.toNat → seg.toNat ≤ Config.BS → pay.length = Config.BS →
      exec (.initCfbs seg pay) s = .next { s.fresh with mode := .cfbs, seg := seg, iv := pay }) ∧
    (1 ≤ seg.toNat → seg.toNat ≤ Config.BS → pay.length ≠ Config.BS →
      exec (.initCfbs seg pay) s = .next { s with resp := some ⟨2, []⟩ })

/-- 41_ctr.md R132: INIT in CTR mode keeps the whole nonce block (for BELT, which the spec takes from general knowledge, its
encryption) and starts the counter at 0. -/
def Obligations.InitCtrKeepsTheNonce : Prop :=
  ∀ (f : Flavor) (pay : Bytes) (s : State),
    (encode (f.initCommand pay)).words = [BitVec.ofNat 32 (0x11000000 + f.code * 0x100000 + pay.length)] ∧
    (pay.length = Config.BS →
      exec (f.initCommand pay) s =
        .next { s.fresh with mode := .ctr, flavor := f, nonce := if f = .belt then Config.params.E pay else pay }) ∧
    (pay.length ≠ Config.BS → exec (f.initCommand pay) s = .next { s with resp := some ⟨2, []⟩ }) ∧
    ∀ w : Word, opcOf w = 1 → field w 27 24 = 1 →
      (7 ≤ field w 23 20 ∨ field w 19 12 ≠ 0 ∨ field w 11 8 ≠ 0) → IllegalWord w

/-- 40_common.md R114: an INIT that succeeds sets MODE, FLAVOR, VARIANT and SEG from the fields of its word. -/
def Obligations.InitTakesItsFieldsFromTheWord : Prop :=
  ∀ (w : Word) (bytes : Bytes) (i : Instr) (s t : State),
    decode ⟨[w], bytes⟩ = .ok i → i.isInit = true → exec i s = .next t → t.Answers [] →
      t.mode.code = field w 27 24 ∧ (t.mode = .ctr → t.flavor.code = field w 23 20) ∧
      (t.mode.variantLive = true → t.variant.code = field w 23 20) ∧ t.seg.toNat = field w 19 12

/-- 41_ctr.md R131, 47_xts.md R220: which modes an engine's block size can carry (the spec's decision D18 for CTR): where it
cannot, the command is illegal, and where it can, INIT with a payload of one block succeeds. The order of
checks puts this before the payload's length (60_exceptions.md R266). -/
def Obligations.UnsupportedBlockSizesAreIllegal : Prop :=
  ∀ (p : Params) (pay : Bytes) (s : State),
    (p.bs < 4 → ∀ i ∈ [Instr.initCtr32be pay, .initCtr32le pay], execOn p i s = .next { s with resp := some ⟨3, []⟩ }) ∧
    (p.bs < 8 → ∀ i ∈ [Instr.initCtr64be pay, .initCtr64le pay], execOn p i s = .next { s with resp := some ⟨3, []⟩ }) ∧
    (p.bs ≠ 16 → ∀ i ∈ [Instr.initCtr128be pay, .initCtr128le pay, .initBelt pay, .initXts pay, .ldstXts pay],
      execOn p i s = .next { s with resp := some ⟨3, []⟩ }) ∧
    (4 ≤ p.bs → pay.length = p.bs → ∀ i ∈ [Instr.initCtr32be pay, .initCtr32le pay],
      ∃ t, execOn p i s = .next t ∧ t.mode = .ctr ∧ t.nonce = pay ∧ t.Answers []) ∧
    (8 ≤ p.bs → pay.length = p.bs → ∀ i ∈ [Instr.initCtr64be pay, .initCtr64le pay],
      ∃ t, execOn p i s = .next t ∧ t.mode = .ctr ∧ t.nonce = pay ∧ t.Answers []) ∧
    (p.bs = 16 → pay.length = 16 →
      (∀ i ∈ [Instr.initCtr128be pay, .initCtr128le pay, .initBelt pay],
        ∃ t, execOn p i s = .next t ∧ t.mode = .ctr ∧ t.Answers []) ∧
      ∃ t, execOn p (.initXts pay) s = .next t ∧ t.mode = .xts ∧ t.Answers [])

/-! ## LDST, GETST -/

/-- 40_common.md R118: LDST checks SEG, then the length, then the position byte, and loads the saved state untransformed, with MODE
and SEG those of its word (30_encoding.md R72, R81). The checks on the position byte are the spec's decision D15. -/
def Obligations.LdstLoadsTheSavedState : Prop :=
  ∀ (m : Mode) (seg : Byte) (mk : Bytes → Instr) (saved pay : Bytes) (spos : Byte) (s : State),
    m.ldstCommand seg = some mk →
    (encode (mk pay)).words =
      [BitVec.ofNat 32 (0x20000000 + m.code * 0x1000000 + (if m = .cfbs then seg.toNat else 0) * 0x1000 + pay.length)] ∧
    (encode (mk pay)).bytes = pay ∧
    (m = .cfbs ∧ (seg.toNat = 0 ∨ Config.BS < seg.toNat) → exec (mk pay) s = .next { s with resp := some ⟨3, []⟩ }) ∧
    ((m = .cfbs → 1 ≤ seg.toNat ∧ seg.toNat ≤ Config.BS) →
      (pay.length ≠ (if m = .ige then 33 else 17) → exec (mk pay) s = .next { s with resp := some ⟨2, []⟩ }) ∧
      (saved.length = (if m = .ige then 32 else 16) →
        ((if m = .cfb ∨ m = .ofb then Config.BS ≤ spos.toNat else spos ≠ 0) →
          exec (mk (saved ++ [spos])) s = .next { s with resp := some ⟨2, []⟩ }) ∧
        ((if m = .cfb ∨ m = .ofb then spos.toNat < Config.BS else spos = 0) →
          exec (mk (saved ++ [spos])) s = .next
            { s.fresh with
              mode := m
              seg := if m = .cfbs then seg else 0
              pos := if m = .cfb ∨ m = .ofb then spos else 0
              iv := if m = .cbc ∨ m = .cfb8 ∨ m = .cfbs ∨ m = .pcbc ∨ m = .ofb then saved else zeros 16
              fb := if m = .cfb then saved else zeros 16
              y := if m = .ige then saved.take 16 else zeros 16
              x := if m = .ige then saved.drop 16 else zeros 16
              tw := if m = .xts then saved else zeros 16 })))

/-- 40_common.md R121: GETST returns the chaining value and the position byte, and is illegal where there is none (the spec's
decision D15). -/
def Obligations.GetstExportsTheChainingValue : Prop :=
  ∀ s : State, (encode .getst).words = [0x80000000#32] ∧
    ((s.mode = .cbc ∨ s.mode = .cfb8 ∨ s.mode = .cfbs ∨ s.mode = .pcbc) →
      exec .getst s = .next { s with resp := some ⟨0, s.iv ++ [0]⟩ }) ∧
    (s.mode = .ofb → exec .getst s = .next { s with resp := some ⟨0, s.iv ++ [s.pos]⟩ }) ∧
    (s.mode = .cfb → exec .getst s = .next { s with resp := some ⟨0, s.fb ++ [s.pos]⟩ }) ∧
    (s.mode = .ige → exec .getst s = .next { s with resp := some ⟨0, s.y ++ s.x ++ [0]⟩ }) ∧
    (s.mode = .xts → exec .getst s = .next { s with resp := some ⟨0, s.tw ++ [0]⟩ }) ∧
    ((s.mode = .none ∨ s.mode = .ctr ∨ s.mode = .cbccts ∨ s.mode = .ecbcts) →
      exec .getst s = .next { s with resp := some ⟨3, []⟩ })

/-- 40_common.md R122: what GETST exports, LDST of the same mode imports into any engine, and every register is then the same. -/
def Obligations.ExportedStateImportsExactly : Prop :=
  ∀ (s t other : State) (mk : Bytes → Instr) (out : Bytes), s.Inv → s.mode.ldstCommand s.seg = some mk →
    exec .getst s = .next t → t.Answers out →
      ∃ u, exec (mk out) other = .next u ∧ u.Answers [] ∧ s.SameRegisters u

/-! ## CTR -/

/-- 41_ctr.md R137: the byte loop of ENC and DEC in CTR mode. -/
def Obligations.CtrAppliesTheKeystream : Prop :=
  ∀ (encrypt : Bool) (olen : Word) (data : Bytes) (s : State), s.mode = .ctr →
    FormatDAndLength encrypt olen data s ∧ (olen.toNat = data.length →
    ∃ out t, exec (.transform encrypt olen data) s = .next { t with resp := some ⟨0, out⟩ } ∧
      out.length = data.length ∧
      Loop data.length (fun j => data.getD j 0) (fun j => out.getD j 0)
        (fun a b a' o => ∃ m,
          (a.pos = 0 → m = { a with
            ksbuf := Config.params.E (blockFor Config.params a.flavor a.nonce a.ctr.toNat)
            ctr := BitVec.ofNat 128 ((a.ctr.toNat + 1) % 2 ^ a.flavor.width) }) ∧
          (a.pos ≠ 0 → m = a) ∧ o = b ^^^ m.ksbuf.getD m.pos.toNat 0 ∧
          a' = { m with pos := BitVec.ofNat 8 ((m.pos.toNat + 1) % Config.BS) }) s t)

/-- 41_ctr.md R138: which keystream byte each data byte meets, and where the stream then stands. -/
def Obligations.CtrBlockView : Prop :=
  ∀ (encrypt : Bool) (olen : Word) (data : Bytes) (s : State), s.Inv → s.mode = .ctr → olen.toNat = data.length →
    let p := s.pos.toNat
    let c := s.ctr.toNat
    let start := if s.pos = 0 then c else s.flavor.prev c
    ∃ out t, exec (.transform encrypt olen data) s = .next t ∧
      t = { s with pos := t.pos, ctr := t.ctr, ksbuf := t.ksbuf, resp := some ⟨0, out⟩ } ∧
      out.length = data.length ∧
      (∀ j, j < data.length → out.getD j 0 = data.getD j 0 ^^^
        (keystream Config.params s.flavor s.nonce ((start + (p + j) / Config.BS) % 2 ^ s.flavor.width)).getD
          ((p + j) % Config.BS) 0) ∧
      t.pos.toNat = (p + data.length) % Config.BS ∧
      t.ctr.toNat = (c + (ceilDiv (p + data.length) Config.BS - if s.pos = 0 then 0 else 1)) % 2 ^ s.flavor.width

/-- 41_ctr.md R133, R136: a counter block has the width of a block, leaves the bytes outside the segment alone, holds the
segment value `(base + i) mod 2^W` in the flavor's byte order, and repeats with period `2^W` exactly. The layouts are the
spec's, from general knowledge (D18). -/
def Obligations.CounterBlockLayout : Prop :=
  ∀ (p : Params) (f : Flavor) (nonce : Bytes) (i j : Nat), p.Valid → f.supported p.bs = true → nonce.length = p.bs →
    let seg := f.width / 8
    (blockFor p f nonce i).length = p.bs ∧
    ((f = .ctr32be ∨ f = .ctr64be ∨ f = .ctr128be) →
      (blockFor p f nonce i).take (p.bs - seg) = nonce.take (p.bs - seg) ∧
      be ((blockFor p f nonce i).drop (p.bs - seg)) = (be (nonce.drop (p.bs - seg)) + i) % 2 ^ f.width) ∧
    ((f = .ctr32le ∨ f = .ctr64le ∨ f = .ctr128le) →
      (blockFor p f nonce i).drop seg = nonce.drop seg ∧
      le ((blockFor p f nonce i).take seg) = (le (nonce.take seg) + i) % 2 ^ f.width) ∧
    (f = .belt → le (blockFor p f nonce i) = (le nonce + 1 + i) % 2 ^ 128) ∧
    (blockFor p f nonce i = blockFor p f nonce j ↔ i % 2 ^ f.width = j % 2 ^ f.width)

/-- 41_ctr.md R140: SEEK in CTR mode; a block index of `2^W` or more is reduced, never an error (the spec's decision D12). -/
def Obligations.SeekSetsThePosition : Prop :=
  ∀ (blk : BitVec 128) (off : Byte) (s : State),
    let b := blk.toNat % 2 ^ s.flavor.width
    (encode (.seek blk off)).words = [0x50000011#32] ∧
    (s.mode ≠ .ctr → exec (.seek blk off) s = .next { s with resp := some ⟨3, []⟩ }) ∧
    (Config.BS ≤ off.toNat → exec (.seek blk off) s = .next { s with resp := some ⟨3, []⟩ }) ∧
    (s.mode = .ctr → off = 0 →
      exec (.seek blk off) s = .next { s with ctr := BitVec.ofNat 128 b, pos := 0, resp := some ⟨0, []⟩ }) ∧
    (s.mode = .ctr → off ≠ 0 → off.toNat < Config.BS →
      exec (.seek blk off) s = .next
        { s with
          ksbuf := Config.params.E (blockFor Config.params s.flavor s.nonce b)
          ctr := BitVec.ofNat 128 ((b + 1) % 2 ^ s.flavor.width)
          pos := off
          resp := some ⟨0, []⟩ })

/-- 41_ctr.md R141: SEEK then GETPOS returns the position sought, and SEEK to the position GETPOS reports, on any engine holding
the same nonce and flavor, restores the stream: all is as on the first engine but a dead `KSBUF`. -/
def Obligations.SeekAndGetposAreInverse : Prop :=
  (∀ (blk : BitVec 128) (off : Byte) (s : State), s.mode = .ctr → off.toNat < Config.BS →
    ∃ t u, exec (.seek blk off) s = .next t ∧ exec .getpos t = .next u ∧
      u.Answers (leBytes 16 (blk.toNat % 2 ^ s.flavor.width) ++ [off])) ∧
  ∀ (s t other : State) (q : Bytes) (i : Instr), s.Inv → s.mode = .ctr →
    other.SameRegisters { s with ctr := other.ctr, pos := other.pos, ksbuf := other.ksbuf } →
    exec .getpos s = .next t → t.Answers q → decode ⟨[0x50000011#32], q⟩ = .ok i →
      ∃ u, exec i other = .next u ∧ u.Answers [] ∧ (s.pos ≠ 0 → s.SameRegisters u) ∧
        { s with ksbuf := u.ksbuf }.SameRegisters u

/-- 41_ctr.md R142, R144: what GETPOS and GETREM report, and that they write nothing. The count of GETREM is the spec's, from
general knowledge (D14). -/
def Obligations.GetposAndGetremReport : Prop :=
  ∀ s : State,
    (encode .getpos).words = [0x60000000#32] ∧ (encode .getrem).words = [0x70000000#32] ∧
    (s.mode ≠ .ctr → exec .getpos s = .next { s with resp := some ⟨3, []⟩ } ∧
      exec .getrem s = .next { s with resp := some ⟨3, []⟩ }) ∧
    (s.mode = .ctr →
      exec .getpos s = .next { s with resp := some ⟨0, leBytes 16 (if s.pos = 0 then s.ctr.toNat
        else (s.ctr.toNat + (2 ^ s.flavor.width - 1)) % 2 ^ s.flavor.width) ++ [s.pos]⟩ } ∧
      exec .getrem s = .next { s with resp := some ⟨0, leBytes 16 (min (2 ^ s.flavor.width - 1 - s.ctr.toNat)
        (2 ^ Config.params.remBits - 1))⟩ })

/-- 40_common.md R113: in CTR and OFB, ENC and DEC are the same function, and applying it twice from one state restores the
input. -/
def Obligations.KeystreamModesAreInvolutions : Prop :=
  ∀ (s t : State) (olen : Word) (data out : Bytes), s.mode = .ctr ∨ s.mode = .ofb →
    exec (.enc olen data) s = exec (.dec olen data) s ∧
    (exec (.enc olen data) s = .next t → t.Answers out →
      exec (.enc olen out) s = .next { t with resp := some ⟨0, data⟩ })

/-! ## CBC -/

/-- 42_cbc.md R161: ENC in CBC mode. -/
def Obligations.CbcEncryptsAndChains : Prop :=
  ∀ (n : Nat) (olen : Word) (data : Bytes) (s : State), s.mode = .cbc →
    (encode (.enc olen data)).words.head? = some 0x30000000#32 ∧
    (data.length % Config.BS ≠ 0 ∨ olen.toNat ≠ data.length →
      exec (.enc olen data) s = .next { s with resp := some ⟨1, []⟩ }) ∧
    (data.length = n * Config.BS → olen.toNat = data.length →
      ∃ out, exec (.enc olen data) s =
          .next { s with iv := if n = 0 then s.iv else blk Config.BS out (n - 1), resp := some ⟨0, out⟩ } ∧
        out.length = data.length ∧
        ∀ k, k < n → blk Config.BS out k =
          Config.params.E (xorBytes (blk Config.BS data k) (if k = 0 then s.iv else blk Config.BS out (k - 1))))

/-- 42_cbc.md R162: DEC in CBC mode chains to the ciphertext block as received. -/
def Obligations.CbcDecryptsAndChains : Prop :=
  ∀ (n : Nat) (olen : Word) (data : Bytes) (s : State), s.Inv → s.mode = .cbc →
    (data.length % Config.BS ≠ 0 ∨ olen.toNat ≠ data.length →
      exec (.dec olen data) s = .next { s with resp := some ⟨1, []⟩ }) ∧
    (data.length = n * Config.BS → olen.toNat = data.length →
      ∃ out, exec (.dec olen data) s =
          .next { s with iv := if n = 0 then s.iv else blk Config.BS data (n - 1), resp := some ⟨0, out⟩ } ∧
        out.length = data.length ∧
        ∀ k, k < n → blk Config.BS out k =
          xorBytes (Config.params.D (blk Config.BS data k)) (if k = 0 then s.iv else blk Config.BS data (k - 1)))

/-! ## CFB, CFB8, CFBS -/

/-- 43_cfb.md R171: the byte loop of ENC in CFB mode. That `FB` holds a mixed block inside a block and is encrypted again at once
at the block's end is the spec's own choice (G3, D19; log entry 13, PRESUMED). -/
def Obligations.CfbEncryptsByFeedback : Prop :=
  ∀ (olen : Word) (data : Bytes) (s : State), s.mode = .cfb →
    FormatDAndLength true olen data s ∧ (olen.toNat = data.length →
    ∃ out t, exec (.enc olen data) s = .next { t with resp := some ⟨0, out⟩ } ∧ out.length = data.length ∧
      Loop data.length (fun j => data.getD j 0) (fun j => out.getD j 0)
        (fun a b a' o =>
          o = b ^^^ a.fb.getD a.pos.toNat 0 ∧
          (a.pos.toNat + 1 = Config.BS →
            a' = { a with fb := Config.params.E (a.fb.set a.pos.toNat o), pos := 0 }) ∧
          (a.pos.toNat + 1 ≠ Config.BS →
            a' = { a with fb := a.fb.set a.pos.toNat o, pos := BitVec.ofNat 8 (a.pos.toNat + 1) })) s t)

/-- 43_cfb.md R172: the byte loop of DEC in CFB mode, which feeds back the byte received; and after decrypting a ciphertext the
state is that after the encryption that made it. That `FB` holds a mixed block inside a block and is encrypted again at once at
the block's end is the spec's own choice (G3, D19; log entry 13, PRESUMED). -/
def Obligations.CfbDecryptsByFeedback : Prop :=
  (∀ (olen : Word) (data : Bytes) (s : State), s.mode = .cfb → olen.toNat = data.length →
    ∃ out t, exec (.dec olen data) s = .next { t with resp := some ⟨0, out⟩ } ∧ out.length = data.length ∧
      Loop data.length (fun j => data.getD j 0) (fun j => out.getD j 0)
        (fun a b a' o =>
          o = b ^^^ a.fb.getD a.pos.toNat 0 ∧
          (a.pos.toNat + 1 = Config.BS →
            a' = { a with fb := Config.params.E (a.fb.set a.pos.toNat b), pos := 0 }) ∧
          (a.pos.toNat + 1 ≠ Config.BS →
            a' = { a with fb := a.fb.set a.pos.toNat b, pos := BitVec.ofNat 8 (a.pos.toNat + 1) })) s t) ∧
  ∀ (olen : Word) (data out : Bytes) (s t : State), s.mode = .cfb → exec (.enc olen data) s = .next t → t.Answers out →
    exec (.dec olen out) s = .next { t with resp := some ⟨0, data⟩ }

/-- 43_cfb.md R178: the byte loop of ENC and DEC in CFB8 mode: the ciphertext byte is shifted in, in both directions. -/
def Obligations.Cfb8ShiftsTheCiphertextIn : Prop :=
  ∀ (encrypt : Bool) (olen : Word) (data : Bytes) (s : State), s.mode = .cfb8 →
    FormatDAndLength encrypt olen data s ∧ (olen.toNat = data.length →
    ∃ out t, exec (.transform encrypt olen data) s = .next { t with resp := some ⟨0, out⟩ } ∧
      out.length = data.length ∧
      Loop data.length (fun j => data.getD j 0) (fun j => out.getD j 0)
        (fun a b a' o =>
          o = b ^^^ (Config.params.E a.iv).getD 0 0 ∧
          a' = { a with iv := a.iv.drop 1 ++ [if encrypt then o else b] }) s t)

/-- 43_cfb.md R180: the segment loop of ENC and DEC in CFBS mode. That a partial segment is a LengthError is the spec's decision
D17. -/
def Obligations.CfbsShiftsSegmentsIn : Prop :=
  ∀ (encrypt : Bool) (m : Nat) (olen : Word) (data : Bytes) (s : State), s.Inv → s.mode = .cfbs →
    let n := s.seg.toNat
    (data.length % n ≠ 0 → exec (.transform encrypt olen data) s = .next { s with resp := some ⟨1, []⟩ }) ∧
    (data.length = m * n → olen.toNat = data.length →
      ∃ out t, exec (.transform encrypt olen data) s = .next { t with resp := some ⟨0, out⟩ } ∧
        out.length = data.length ∧
        Loop m (blk n data) (blk n out)
          (fun a b a' o =>
            o = xorBytes b ((Config.params.E a.iv).take n) ∧
            a' = { a with iv := a.iv.drop n ++ (if encrypt then o else b) }) s t)

/-- 43_cfb.md R181 (a), (b): from one IV, CFBS with `SEG = 1` is CFB8; CFBS with `SEG = BS` gives CFB's output on whole blocks,
and holds the ciphertext block that CFB holds encrypted (the form of `FB` is the spec's own choice: G3, D19; log entry 13,
PRESUMED). -/
def Obligations.CfbModesAgree : Prop :=
  ∀ (encrypt : Bool) (olen : Word) (data iv : Bytes) (s a b c d : State), iv.length = Config.BS →
    olen.toNat = data.length →
    exec (.initCfbs 1 iv) s = .next a → exec (.initCfb8 iv) s = .next b →
    exec (.initCfbs 16 iv) s = .next c → exec (.initCfb iv) s = .next d →
      (∃ t u, exec (.transform encrypt olen data) a = .next t ∧ exec (.transform encrypt olen data) b = .next u ∧
        t.resp = u.resp ∧ t.iv = u.iv) ∧
      (data.length % Config.BS = 0 →
        ∃ t u, exec (.transform encrypt olen data) c = .next t ∧ exec (.transform encrypt olen data) d = .next u ∧
          t.resp = u.resp ∧ u.fb = Config.params.E t.iv ∧ u.pos = 0)

/-! ## OFB -/

/-- 44_ofb.md R191: the byte loop of ENC and DEC in OFB mode; `IV` and `POS` afterwards do not depend on the data. -/
def Obligations.OfbAppliesTheKeystream : Prop :=
  (∀ (encrypt : Bool) (olen : Word) (data : Bytes) (s : State), s.mode = .ofb →
    FormatDAndLength encrypt olen data s ∧ (olen.toNat = data.length →
    ∃ out t, exec (.transform encrypt olen data) s = .next { t with resp := some ⟨0, out⟩ } ∧
      out.length = data.length ∧
      Loop data.length (fun j => data.getD j 0) (fun j => out.getD j 0)
        (fun a b a' o => ∃ m,
          (a.pos = 0 → m = { a with iv := Config.params.E a.iv }) ∧ (a.pos ≠ 0 → m = a) ∧
          o = b ^^^ m.iv.getD m.pos.toNat 0 ∧
          a' = { m with pos := BitVec.ofNat 8 ((m.pos.toNat + 1) % Config.BS) }) s t)) ∧
  ∀ (encrypt : Bool) (olen : Word) (data data' : Bytes) (s t t' : State), s.mode = .ofb →
    data.length = data'.length → exec (.transform encrypt olen data) s = .next t →
    exec (.transform encrypt olen data') s = .next t' → t.iv = t'.iv ∧ t.pos = t'.pos

/-- 44_ofb.md R192: from a block boundary, stream byte `q` is byte `q mod BS` of the `q div BS + 1`-fold encryption of `IV`. -/
def Obligations.OfbStreamIsIteratedEncryption : Prop :=
  ∀ (encrypt : Bool) (olen : Word) (data : Bytes) (s : State), s.mode = .ofb → s.pos = 0 → olen.toNat = data.length →
    ∃ out t, exec (.transform encrypt olen data) s = .next t ∧ t.Answers out ∧ out.length = data.length ∧
      (∀ q, q < data.length → out.getD q 0 =
        data.getD q 0 ^^^ ((Config.params.E)^[q / Config.BS + 1] s.iv).getD (q % Config.BS) 0) ∧
      t.iv = (Config.params.E)^[ceilDiv data.length Config.BS] s.iv ∧ t.pos.toNat = data.length % Config.BS

/-! ## PCBC and IGE -/

/-- 45_pcbc.md R201, R202: ENC and DEC in PCBC mode chain the exclusive or of the plaintext and ciphertext blocks. -/
def Obligations.PcbcChainsPlaintextAndCiphertext : Prop :=
  ∀ (n : Nat) (olen : Word) (data : Bytes) (s : State), s.Inv → s.mode = .pcbc →
    (encode (.enc olen data)).words.head? = some 0x30000000#32 ∧
    (encode (.dec olen data)).words.head? = some 0x40000000#32 ∧
    (data.length % Config.BS ≠ 0 ∨ olen.toNat ≠ data.length →
      exec (.enc olen data) s = .next { s with resp := some ⟨1, []⟩ } ∧
      exec (.dec olen data) s = .next { s with resp := some ⟨1, []⟩ }) ∧
    (data.length = n * Config.BS → olen.toNat = data.length →
      (∃ out t, exec (.enc olen data) s = .next { t with resp := some ⟨0, out⟩ } ∧ out.length = data.length ∧
        Loop n (blk Config.BS data) (blk Config.BS out)
          (fun a m a' c => c = Config.params.E (xorBytes m a.iv) ∧ a' = { a with iv := xorBytes c m }) s t) ∧
      ∃ out t, exec (.dec olen data) s = .next { t with resp := some ⟨0, out⟩ } ∧ out.length = data.length ∧
        Loop n (blk Config.BS data) (blk Config.BS out)
          (fun a c a' m => m = xorBytes (Config.params.D c) a.iv ∧ a' = { a with iv := xorBytes m c }) s t)

/-- 46_ige.md R211: ENC in IGE mode; both registers are replaced at once. -/
def Obligations.IgeEncryptsWithBothRegisters : Prop :=
  ∀ (n : Nat) (olen : Word) (data : Bytes) (s : State), s.Inv → s.mode = .ige →
    (encode (.enc olen data)).words.head? = some 0x30000000#32 ∧
    (data.length % Config.BS ≠ 0 ∨ olen.toNat ≠ data.length →
      exec (.enc olen data) s = .next { s with resp := some ⟨1, []⟩ }) ∧
    (data.length = n * Config.BS → olen.toNat = data.length →
      ∃ out t, exec (.enc olen data) s = .next { t with resp := some ⟨0, out⟩ } ∧ out.length = data.length ∧
        Loop n (blk Config.BS data) (blk Config.BS out)
          (fun a m a' c => c = xorBytes (Config.params.E (xorBytes m a.y)) a.x ∧ a' = { a with x := m, y := c }) s t)

/-- 46_ige.md R212: DEC in IGE mode, the mirror the spec derives. -/
def Obligations.IgeDecryptsWithBothRegisters : Prop :=
  ∀ (n : Nat) (olen : Word) (data : Bytes) (s : State), s.Inv → s.mode = .ige →
    (data.length % Config.BS ≠ 0 ∨ olen.toNat ≠ data.length →
      exec (.dec olen data) s = .next { s with resp := some ⟨1, []⟩ }) ∧
    (data.length = n * Config.BS → olen.toNat = data.length →
      ∃ out t, exec (.dec olen data) s = .next { t with resp := some ⟨0, out⟩ } ∧ out.length = data.length ∧
        Loop n (blk Config.BS data) (blk Config.BS out)
          (fun a c a' m => m = xorBytes (Config.params.D (xorBytes c a.x)) a.y ∧ a' = { a with x := m, y := c }) s t)

/-! ## XTS -/

/-- 47_xts.md R221, R222: the two forms of `mulx`, on the 128-bit number and byte by byte, are one function, and `mulx` and
`mulx_inv` are inverse on 16-byte strings. -/
def Obligations.MulxIsOneFunctionWithAnInverse : Prop :=
  ∀ t : Bytes, t.length = 16 → mulx t = mulxBytewise t ∧ (mulx t).length = 16 ∧ (mulxInv t).length = 16 ∧
    mulxInv (mulx t) = t ∧ mulx (mulxInv t) = t

/-- 47_xts.md R224, R229: whole blocks in XTS mode: block `k` is masked on both sides with `mulx^k` of the starting tweak, and the
tweak ends advanced by the number of blocks. -/
def Obligations.XtsWholeBlocks : Prop :=
  ∀ (encrypt : Bool) (m : Nat) (olen : Word) (data : Bytes) (s : State), s.Inv → s.mode = .xts →
    1 ≤ m → data.length = m * 16 → olen.toNat = data.length →
    ∃ out, exec (.transform encrypt olen data) s = .next { s with tw := mulx^[m] s.tw, resp := some ⟨0, out⟩ } ∧
      out.length = data.length ∧
      ∀ k, k < m → blk 16 out k =
        xorBytes ((if encrypt then Config.params.E else Config.params.D) (xorBytes (blk 16 data k) (mulx^[k] s.tw)))
          (mulx^[k] s.tw)

/-- 47_xts.md R227, R230: ENC with a tail steals; the leading blocks are plain, and of the tweak afterwards only the width is
known (the spec's decisions D25, D31: log entries 4 and 13). -/
def Obligations.XtsEncryptionSteals : Prop :=
  ∀ (m b : Nat) (olen : Word) (lead pa pb : Bytes) (s : State), s.Inv → s.mode = .xts →
    1 ≤ m → lead.length = (m - 1) * 16 → pa.length = 16 → pb.length = b → 0 < b → b < 16 →
    olen.toNat = (lead ++ pa ++ pb).length →
    let t0 := mulx^[m - 1] s.tw
    let t1 := mulx t0
    let cc := xorBytes (Config.params.E (xorBytes pa t0)) t0
    let ca := xorBytes (Config.params.E (xorBytes (pb ++ cc.drop b) t1)) t1
    ∃ out t, exec (.enc olen (lead ++ pa ++ pb)) s = .next t ∧
      t = { s with tw := t.tw, draws := t.draws, resp := some ⟨0, out ++ ca ++ cc.take b⟩ } ∧ t.tw.length = 16 ∧
      out.length = lead.length ∧
      ∀ k, k < m - 1 → blk 16 out k =
        xorBytes (Config.params.E (xorBytes (blk 16 lead k) (mulx^[k] s.tw))) (mulx^[k] s.tw)

/-- 47_xts.md R228, R230: DEC with a tail, the later tweak first (the spec's decisions D25, D31). -/
def Obligations.XtsDecryptionSteals : Prop :=
  ∀ (m b : Nat) (olen : Word) (lead ca cb : Bytes) (s : State), s.Inv → s.mode = .xts →
    1 ≤ m → lead.length = (m - 1) * 16 → ca.length = 16 → cb.length = b → 0 < b → b < 16 →
    olen.toNat = (lead ++ ca ++ cb).length →
    let t0 := mulx^[m - 1] s.tw
    let t1 := mulx t0
    let pp := xorBytes (Config.params.D (xorBytes ca t1)) t1
    let pa := xorBytes (Config.params.D (xorBytes (cb ++ pp.drop b) t0)) t0
    ∃ out t, exec (.dec olen (lead ++ ca ++ cb)) s = .next t ∧
      t = { s with tw := t.tw, draws := t.draws, resp := some ⟨0, out ++ pa ++ pp.take b⟩ } ∧ t.tw.length = 16 ∧
      out.length = lead.length ∧
      ∀ k, k < m - 1 → blk 16 out k =
        xorBytes (Config.params.D (xorBytes (blk 16 lead k) (mulx^[k] s.tw))) (mulx^[k] s.tw)

/-- 47_xts.md R233 (b): two different sector IVs never meet in a tweak at the same offset. -/
def Obligations.XtsSectorsUseDifferentTweaks : Prop :=
  ∀ (a b : Bytes) (s t u : State) (k : Nat), a.length = 16 → b.length = 16 → a ≠ b →
    exec (.initXts a) s = .next t → exec (.initXts b) s = .next u → mulx^[k] t.tw ≠ mulx^[k] u.tw

/-! ## CTS -/

/-- 48_cts.md R243, R244, R249: ENC of a message of at least two blocks in a CTS mode. `x` is the base mode's output for the last
full block, `y` the final block's, and the table of R244 says which goes first. Of `IV` afterwards only the width is known.
The computation is the spec's, from general knowledge (D20, D25, D33). -/
def Obligations.CtsEncryptionArranges : Prop :=
  ∀ (n d : Nat) (olen : Word) (lead pa pb : Bytes) (s : State), s.Inv → s.mode = .cbccts ∨ s.mode = .ecbcts →
    2 ≤ n → lead.length = (n - 2) * Config.BS → pa.length = Config.BS → pb.length = d → 1 ≤ d → d ≤ Config.BS →
    olen.toNat = (lead ++ pa ++ pb).length →
    ∃ out x t, exec (.enc olen (lead ++ pa ++ pb)) s = .next t ∧
      let y := if s.mode = .cbccts then Config.params.E (xorBytes (pb ++ zeros (Config.BS - d)) x)
        else Config.params.E (pb ++ x.drop d)
      let base := if s.mode = .cbccts then (fun m v => Config.params.E (xorBytes m v)) else (fun m _ => Config.params.E m)
      let before := fun k => if k = 0 then s.iv else blk Config.BS out (k - 1)
      let shortFirst := if d = Config.BS then s.variant ≠ .cs3
        else s.variant = .cs1 ∧ Config.params.cs1ShortPos = .penultimate
      t.Answers (out ++ if shortFirst then x.take d ++ y else y ++ x.take d) ∧
      out.length = lead.length ∧
      (∀ k, k < n - 2 → blk Config.BS out k = base (blk Config.BS lead k) (before k)) ∧
      x = base pa (before (n - 2)) ∧
      t = { s with iv := t.iv, draws := t.draws, resp := t.resp } ∧ t.iv.length = Config.BS ∧
      (s.mode = .ecbcts → t.iv = s.iv ∧ t.draws = s.draws)

/-- 48_cts.md R245: DEC of a message of at least two blocks in a CTS mode, given its leading blocks, its short piece and its full
block in the order R244 puts them. The computation, an arm the spec derives, is the spec's from general knowledge (G7, D33; log
entry 13, PRESUMED); where CS1 puts the short piece is a parameter the model leaves open (D20; log entry 3, DESIGN CHOICE); of `IV`
afterwards only the width is known (D25; log entry 4, DESIGN CHOICE). -/
def Obligations.CtsDecryptionRebuilds : Prop :=
  ∀ (n d : Nat) (olen : Word) (lead short full : Bytes) (s : State), s.Inv → s.mode = .cbccts ∨ s.mode = .ecbcts →
    2 ≤ n → lead.length = (n - 2) * Config.BS → short.length = d → full.length = Config.BS → 1 ≤ d → d ≤ Config.BS →
    let shortFirst := if d = Config.BS then s.variant ≠ .cs3
      else s.variant = .cs1 ∧ Config.params.cs1ShortPos = .penultimate
    let data := lead ++ if shortFirst then short ++ full else full ++ short
    olen.toNat = data.length →
    ∃ out t, exec (.dec olen data) s = .next t ∧
      let z := Config.params.D full
      let xf := short ++ z.drop d
      let before := fun k => if k = 0 then s.iv else blk Config.BS lead (k - 1)
      let base := if s.mode = .cbccts then (fun c v => xorBytes (Config.params.D c) v) else (fun c _ => Config.params.D c)
      let pb := if s.mode = .cbccts then xorBytes (z.take d) short else z.take d
      t.Answers (out ++ base xf (before (n - 2)) ++ pb) ∧ out.length = lead.length ∧
      (∀ k, k < n - 2 → blk Config.BS out k = base (blk Config.BS lead k) (before k)) ∧
      t = { s with iv := t.iv, draws := t.draws, resp := t.resp } ∧ t.iv.length = Config.BS ∧
      (s.mode = .ecbcts → t.iv = s.iv ∧ t.draws = s.draws)

/-- 48_cts.md R248, R247: exactly one block is the base mode's block in every variant (the spec's decision D26); on more whole
blocks CS1 and CS2 over the ECB base encrypt each block by itself, and over the CBC base give CBC's ciphertext under the same
IV. -/
def Obligations.CtsWholeBlocksAreTheBaseMode : Prop :=
  (∀ (olen : Word) (data : Bytes) (s : State), s.Inv → data.length = Config.BS → olen.toNat = Config.BS →
    (s.mode = .cbccts → ∃ t u, exec (.enc olen data) s = .next t ∧ t.Answers (Config.params.E (xorBytes data s.iv)) ∧
      exec (.dec olen data) s = .next u ∧ u.Answers (xorBytes (Config.params.D data) s.iv)) ∧
    (s.mode = .ecbcts → ∃ t u, exec (.enc olen data) s = .next t ∧ t.Answers (Config.params.E data) ∧
      exec (.dec olen data) s = .next u ∧ u.Answers (Config.params.D data))) ∧
  ∀ (n : Nat) (olen : Word) (data : Bytes) (s : State), s.Inv → 2 ≤ n → data.length = n * Config.BS →
    olen.toNat = data.length → s.variant = .cs1 ∨ s.variant = .cs2 →
    (s.mode = .ecbcts → ∃ t out, exec (.enc olen data) s = .next t ∧ t.Answers out ∧ out.length = data.length ∧
      ∀ k, k < n → blk Config.BS out k = Config.params.E (blk Config.BS data k)) ∧
    (s.mode = .cbccts → ∃ t u, exec (.enc olen data) s = .next t ∧
      exec (.enc olen data) { s with mode := .cbc } = .next u ∧ t.resp = u.resp)

/-- 48_cts.md R244, R246, R251 (d): how the variants' ciphertexts differ: with a short last block CS2 and CS3 agree; on whole
blocks CS1 and CS2 agree and CS3 exchanges the last two blocks. The orders are the spec's from general knowledge (G7, D20,
D33; log entry 13, PRESUMED). -/
def Obligations.CtsVariantsDifferInOrderOnly : Prop :=
  ∀ (n : Nat) (olen : Word) (data : Bytes) (s : State), s.Inv → s.mode = .cbccts ∨ s.mode = .ecbcts →
    olen.toNat = data.length → (n - 1) * Config.BS < data.length → data.length ≤ n * Config.BS → 2 ≤ n →
    ∃ t1 t2 t3 o1 o2 o3,
      exec (.enc olen data) { s with variant := .cs1 } = .next t1 ∧ t1.Answers o1 ∧
      exec (.enc olen data) { s with variant := .cs2 } = .next t2 ∧ t2.Answers o2 ∧
      exec (.enc olen data) { s with variant := .cs3 } = .next t3 ∧ t3.Answers o3 ∧
      (data.length % Config.BS ≠ 0 → o2 = o3) ∧
      (data.length % Config.BS = 0 → o1 = o2 ∧ o3 = o2.take ((n - 2) * Config.BS) ++
        blk Config.BS o2 (n - 1) ++ blk Config.BS o2 (n - 2))

/-! ## Every mode -/

/-- 40_common.md R125: the round-trip law. After any INIT that succeeds, on an engine with any valid parameters, what ENC makes of
an input the mode takes, DEC from the same state turns back; and but for XTS with a tail and CTS the two runs end in the same
state. -/
def Obligations.DecryptionInvertsEncryption : Prop :=
  ∀ (p : Params) (i : Instr) (s0 s : State) (data : Bytes), p.Valid → i.isInit = true →
    execOn p i s0 = .next s → s.Answers [] → data.length < 2 ^ 32 → lenOk p s data.length = true →
    ∃ out t u, execOn p (.enc (BitVec.ofNat 32 data.length) data) s = .next t ∧ t.Answers out ∧
      out.length = data.length ∧
      execOn p (.dec (BitVec.ofNat 32 data.length) out) s = .next u ∧ u.Answers data ∧
      (s.mode ≠ .cbccts → s.mode ≠ .ecbcts → (s.mode = .xts → data.length % 16 = 0) → t.SameRegisters u)

/-- 40_common.md R112: chunk invariance. In the modes that stream, on an engine with any valid parameters, a message split over
two commands of one direction gives the same bytes and the same final state as one command. -/
def Obligations.ChunksGiveTheSameStream : Prop :=
  ∀ (p : Params) (encrypt : Bool) (a b : Bytes) (s : State), p.Valid → s.Inv p → (a ++ b).length < 2 ^ 32 →
    Streams p.bs s a.length → Streams p.bs s b.length →
    ∃ t u v x y,
      execOn p (.transform encrypt (BitVec.ofNat 32 a.length) a) s = .next t ∧ t.Answers x ∧
      execOn p (.transform encrypt (BitVec.ofNat 32 b.length) b) t = .next u ∧ u.Answers y ∧
      execOn p (.transform encrypt (BitVec.ofNat 32 (a ++ b).length) (a ++ b)) s = .next v ∧ v.Answers (x ++ y) ∧
      u.SameRegisters v

/-- 20_memory.md R62: in the streaming modes (XTS on whole blocks) an output byte does not depend on later input: two inputs of
one length that agree up to a piece boundary give outputs that agree up to it. -/
def Obligations.OutputDependsOnEarlierInputOnly : Prop :=
  ∀ (encrypt : Bool) (olen : Word) (a b b' : Bytes) (s t t' : State) (out out' : Bytes), s.Inv →
    Streams Config.BS s a.length → b.length = b'.length → (s.mode = .xts → b.length % 16 = 0) →
    exec (.transform encrypt olen (a ++ b)) s = .next t → t.Answers out →
    exec (.transform encrypt olen (a ++ b')) s = .next t' → t'.Answers out' →
      out.take a.length = out'.take a.length
end

