-- ==== Sys2Proof/Laws/Bytes.lean ====
section
/-! SUPPORT. The laws of the byte-string primitives: lengths, the two directions between strings and numbers, exclusive or, and
cutting a string into pieces. -/

namespace Sys2Proof.Machine

@[simp] theorem length_zeros (n : Nat) : (zeros n).length = n := by simp [zeros]

@[simp] theorem length_slice (s : Bytes) (i j : Nat) : (slice s i j).length = min j s.length - i := by simp [slice]

@[simp] theorem length_xorBytes (a b : Bytes) : (xorBytes a b).length = min a.length b.length := by simp [xorBytes]

@[simp] theorem length_leBytes (n v : Nat) : (leBytes n v).length = n := by
  induction n generalizing v with
  | zero => rfl
  | succ n ih => simp [leBytes, ih]

@[simp] theorem length_beBytes (n v : Nat) : (beBytes n v).length = n := by simp [beBytes]

@[simp] theorem length_chunks (size count : Nat) (s : Bytes) : (chunks size count s).length = count := by
  induction count generalizing s with
  | zero => rfl
  | succ count ih => simp [chunks, ih]

@[simp] theorem length_freeBytes (p : Params) (s : State) (n : Nat) : (freeBytes p s n).length = n := by simp [freeBytes]

theorem slice_zero (s : Bytes) (n : Nat) : slice s 0 n = s.take n := rfl

theorem slice_all (s : Bytes) (i : Nat) : slice s i s.length = s.drop i := by simp [slice]

/-- R12: the number of a string is below `256^n`. -/
theorem le_lt (s : Bytes) : le s < 256 ^ s.length := by
  induction s with
  | nil => simp [le]
  | cons b s ih =>
    have hb := b.isLt
    simp only [le, List.length_cons, pow_succ]
    omega

/-- R12: `le (le_n(v)) = v` for `v < 256^n`; in general the value modulo `256^n`. -/
theorem le_leBytes (n v : Nat) : le (leBytes n v) = v % 256 ^ n := by
  induction n generalizing v with
  | zero => simp [leBytes, le, Nat.mod_one]
  | succ n ih =>
    simp only [leBytes, le, ih, BitVec.toNat_ofNat]
    have h : 256 ^ (n + 1) = 256 * 256 ^ n := by rw [Nat.pow_succ, Nat.mul_comm]
    rw [h, Nat.mod_mul]

/-- R12: the string of its own number. -/
theorem leBytes_le (s : Bytes) : leBytes s.length (le s) = s := by
  induction s with
  | nil => rfl
  | cons b s ih =>
    have hb := b.isLt
    have h1 : (b.toNat + 256 * le s) / 256 = le s := by omega
    have h2 : BitVec.ofNat 8 (b.toNat + 256 * le s) = b := by
      apply BitVec.eq_of_toNat_eq
      simp only [BitVec.toNat_ofNat]
      omega
    simp [leBytes, le, h1, h2, ih]

theorem be_beBytes (n v : Nat) : be (beBytes n v) = v % 256 ^ n := by simp [be, beBytes, le_leBytes]

theorem beBytes_be (s : Bytes) : beBytes s.length (be s) = s := by
  have h := leBytes_le s.reverse
  rw [List.length_reverse] at h
  simp [beBytes, be, h]

theorem be_lt (s : Bytes) : be s < 256 ^ s.length := by simpa [be] using le_lt s.reverse

theorem xorBytes_cons (x y : Byte) (a b : Bytes) : xorBytes (x :: a) (y :: b) = (x ^^^ y) :: xorBytes a b := rfl

theorem xorBytes_comm (a b : Bytes) : xorBytes a b = xorBytes b a := by
  simp only [xorBytes]
  rw [List.zipWith_comm]
  simp [BitVec.xor_comm]

/-- Exclusive or with the same string twice gives the string back. -/
theorem xorBytes_cancel (a b : Bytes) (h : a.length ≤ b.length) : xorBytes (xorBytes a b) b = a := by
  induction a generalizing b with
  | nil => simp [xorBytes]
  | cons x a ih =>
    cases b with
    | nil => simp at h
    | cons y b => simp [xorBytes_cons, ih b (by simpa using h)]

theorem getD_xorBytes (a b : Bytes) (i : Nat) (ha : i < a.length) (hb : i < b.length) :
    (xorBytes a b).getD i 0 = a.getD i 0 ^^^ b.getD i 0 := by
  simp [xorBytes, List.getD_eq_getElem?_getD, ha, hb]

theorem take_xorBytes (a b : Bytes) (n : Nat) : (xorBytes a b).take n = xorBytes (a.take n) (b.take n) := by
  simp [xorBytes, List.take_zipWith]

theorem drop_xorBytes (a b : Bytes) (n : Nat) : (xorBytes a b).drop n = xorBytes (a.drop n) (b.drop n) := by
  simp [xorBytes, List.drop_zipWith]

/-- Cutting a concatenation at a piece boundary. -/
theorem chunks_append (size m n : Nat) (a b : Bytes) (h : a.length = m * size) :
    chunks size (m + n) (a ++ b) = chunks size m a ++ chunks size n b := by
  induction m generalizing a with
  | zero =>
    have : a = [] := by simpa using h
    simp [this, chunks]
  | succ m ih =>
    have hs : size ≤ a.length := by rw [h, Nat.succ_mul]; omega
    have e : m + 1 + n = (m + n) + 1 := by omega
    rw [e]
    simp only [chunks, List.cons_append]
    rw [List.take_append_of_le_length hs, List.drop_append_of_le_length hs, ih]
    rw [List.length_drop, h, Nat.succ_mul]; omega

/-- Only the bytes that are cut matter. -/
theorem chunks_take (size m : Nat) (s : Bytes) : chunks size m (s.take (m * size)) = chunks size m s := by
  induction m generalizing s with
  | zero => rfl
  | succ m ih =>
    have h : size ≤ (m + 1) * size := by rw [Nat.succ_mul]; omega
    simp only [chunks, List.take_take, Nat.min_eq_left h]
    rw [List.drop_take]
    have e : (m + 1) * size - size = m * size := by rw [Nat.succ_mul]; omega
    rw [e, ih]

theorem mem_chunks_length (size m : Nat) (s : Bytes) (h : m * size ≤ s.length) :
    ∀ b ∈ chunks size m s, b.length = size := by
  induction m generalizing s with
  | zero => intro b hb; cases hb
  | succ m ih =>
    have hs : m * size + size ≤ s.length := by rwa [Nat.succ_mul] at h
    intro b hb
    rcases List.mem_cons.mp hb with rfl | hb
    · simp; omega
    · exact ih _ (by simp; omega) b hb

theorem flatten_chunks (size m : Nat) (s : Bytes) (h : s.length = m * size) : (chunks size m s).flatten = s := by
  induction m generalizing s with
  | zero =>
    have : s = [] := by simpa using h
    simp [this, chunks]
  | succ m ih =>
    simp only [chunks, List.flatten_cons]
    rw [ih, List.take_append_drop]
    rw [List.length_drop, h, Nat.succ_mul]; omega

/-- Piece `k` is `s[k*size .. (k+1)*size)`. -/
theorem getD_chunks (size m : Nat) (s : Bytes) (k : Nat) (h : k < m) :
    (chunks size m s).getD k [] = slice s (k * size) ((k + 1) * size) := by
  induction m generalizing s k with
  | zero => omega
  | succ m ih =>
    cases k with
    | zero => simp [chunks, slice]
    | succ k =>
      simp only [chunks, List.getD_cons_succ]
      rw [ih _ _ (by omega)]
      simp only [slice, List.take_drop, List.drop_drop]
      congr 2 <;> ring_nf

/-- Cutting `s` into `m` pieces and laying pieces of one size end to end are inverse. -/
theorem chunks_flatten (size : Nat) (l : List Bytes) (h : ∀ b ∈ l, b.length = size) :
    chunks size l.length l.flatten = l := by
  induction l with
  | nil => rfl
  | cons b l ih =>
    have hb : b.length = size := h b (by simp)
    have hl := ih fun c hc => h c (by simp [hc])
    simp only [List.length_cons, chunks, List.flatten_cons]
    rw [List.take_append_of_le_length (by omega), List.drop_append_of_le_length (by omega)]
    simp [← hb]
    simpa [hb] using hl

end Sys2Proof.Machine
end

