-- ==== Sys2Proof/Laws/State.lean ====
section
/-! SUPPORT. What each update of the state leaves in each field. -/

namespace Sys2Proof.Machine

@[simp] theorem State.finish_mode (s : State) (out : Bytes) : (s.finish out).mode = s.mode := rfl
@[simp] theorem State.finish_flavor (s : State) (out : Bytes) : (s.finish out).flavor = s.flavor := rfl
@[simp] theorem State.finish_variant (s : State) (out : Bytes) : (s.finish out).variant = s.variant := rfl
@[simp] theorem State.finish_seg (s : State) (out : Bytes) : (s.finish out).seg = s.seg := rfl
@[simp] theorem State.finish_pos (s : State) (out : Bytes) : (s.finish out).pos = s.pos := rfl
@[simp] theorem State.finish_ctr (s : State) (out : Bytes) : (s.finish out).ctr = s.ctr := rfl
@[simp] theorem State.finish_nonce (s : State) (out : Bytes) : (s.finish out).nonce = s.nonce := rfl
@[simp] theorem State.finish_ksbuf (s : State) (out : Bytes) : (s.finish out).ksbuf = s.ksbuf := rfl
@[simp] theorem State.finish_iv (s : State) (out : Bytes) : (s.finish out).iv = s.iv := rfl
@[simp] theorem State.finish_fb (s : State) (out : Bytes) : (s.finish out).fb = s.fb := rfl
@[simp] theorem State.finish_x (s : State) (out : Bytes) : (s.finish out).x = s.x := rfl
@[simp] theorem State.finish_y (s : State) (out : Bytes) : (s.finish out).y = s.y := rfl
@[simp] theorem State.finish_tw (s : State) (out : Bytes) : (s.finish out).tw = s.tw := rfl
@[simp] theorem State.finish_resp (s : State) (out : Bytes) : (s.finish out).resp = some ⟨Status.ok.word, out⟩ := rfl
@[simp] theorem State.finish_pending (s : State) (out : Bytes) : (s.finish out).pending = s.pending := rfl
@[simp] theorem State.finish_draws (s : State) (out : Bytes) : (s.finish out).draws = s.draws := rfl

@[simp] theorem State.raise_mode (s : State) (e : Status) : (s.raise e).mode = s.mode := rfl
@[simp] theorem State.raise_flavor (s : State) (e : Status) : (s.raise e).flavor = s.flavor := rfl
@[simp] theorem State.raise_variant (s : State) (e : Status) : (s.raise e).variant = s.variant := rfl
@[simp] theorem State.raise_seg (s : State) (e : Status) : (s.raise e).seg = s.seg := rfl
@[simp] theorem State.raise_pos (s : State) (e : Status) : (s.raise e).pos = s.pos := rfl
@[simp] theorem State.raise_ctr (s : State) (e : Status) : (s.raise e).ctr = s.ctr := rfl
@[simp] theorem State.raise_nonce (s : State) (e : Status) : (s.raise e).nonce = s.nonce := rfl
@[simp] theorem State.raise_ksbuf (s : State) (e : Status) : (s.raise e).ksbuf = s.ksbuf := rfl
@[simp] theorem State.raise_iv (s : State) (e : Status) : (s.raise e).iv = s.iv := rfl
@[simp] theorem State.raise_fb (s : State) (e : Status) : (s.raise e).fb = s.fb := rfl
@[simp] theorem State.raise_x (s : State) (e : Status) : (s.raise e).x = s.x := rfl
@[simp] theorem State.raise_y (s : State) (e : Status) : (s.raise e).y = s.y := rfl
@[simp] theorem State.raise_tw (s : State) (e : Status) : (s.raise e).tw = s.tw := rfl
@[simp] theorem State.raise_resp (s : State) (e : Status) : (s.raise e).resp = some ⟨e.word, []⟩ := rfl
@[simp] theorem State.raise_pending (s : State) (e : Status) : (s.raise e).pending = s.pending := rfl
@[simp] theorem State.raise_draws (s : State) (e : Status) : (s.raise e).draws = s.draws := rfl

@[simp] theorem State.clear_mode (s : State) (p : Params) : (s.clear p).mode = .none := rfl
@[simp] theorem State.clear_flavor (s : State) (p : Params) : (s.clear p).flavor = .ctr32be := rfl
@[simp] theorem State.clear_variant (s : State) (p : Params) : (s.clear p).variant = .none := rfl
@[simp] theorem State.clear_seg (s : State) (p : Params) : (s.clear p).seg = 0 := rfl
@[simp] theorem State.clear_pos (s : State) (p : Params) : (s.clear p).pos = 0 := rfl
@[simp] theorem State.clear_ctr (s : State) (p : Params) : (s.clear p).ctr = 0 := rfl
@[simp] theorem State.clear_nonce (s : State) (p : Params) : (s.clear p).nonce = zeros p.bs := rfl
@[simp] theorem State.clear_ksbuf (s : State) (p : Params) : (s.clear p).ksbuf = zeros p.bs := rfl
@[simp] theorem State.clear_iv (s : State) (p : Params) : (s.clear p).iv = zeros p.bs := rfl
@[simp] theorem State.clear_fb (s : State) (p : Params) : (s.clear p).fb = zeros p.bs := rfl
@[simp] theorem State.clear_x (s : State) (p : Params) : (s.clear p).x = zeros p.bs := rfl
@[simp] theorem State.clear_y (s : State) (p : Params) : (s.clear p).y = zeros p.bs := rfl
@[simp] theorem State.clear_tw (s : State) (p : Params) : (s.clear p).tw = zeros 16 := rfl
@[simp] theorem State.clear_resp (s : State) (p : Params) : (s.clear p).resp = s.resp := rfl
@[simp] theorem State.clear_pending (s : State) (p : Params) : (s.clear p).pending = s.pending := rfl
@[simp] theorem State.clear_draws (s : State) (p : Params) : (s.clear p).draws = s.draws := rfl

@[simp] theorem State.hardReset_mode (s : State) (p : Params) : (s.hardReset p).mode = .none := rfl
@[simp] theorem State.hardReset_flavor (s : State) (p : Params) : (s.hardReset p).flavor = .ctr32be := rfl
@[simp] theorem State.hardReset_variant (s : State) (p : Params) : (s.hardReset p).variant = .none := rfl
@[simp] theorem State.hardReset_seg (s : State) (p : Params) : (s.hardReset p).seg = 0 := rfl
@[simp] theorem State.hardReset_pos (s : State) (p : Params) : (s.hardReset p).pos = 0 := rfl
@[simp] theorem State.hardReset_ctr (s : State) (p : Params) : (s.hardReset p).ctr = 0 := rfl
@[simp] theorem State.hardReset_nonce (s : State) (p : Params) : (s.hardReset p).nonce = zeros p.bs := rfl
@[simp] theorem State.hardReset_ksbuf (s : State) (p : Params) : (s.hardReset p).ksbuf = zeros p.bs := rfl
@[simp] theorem State.hardReset_iv (s : State) (p : Params) : (s.hardReset p).iv = zeros p.bs := rfl
@[simp] theorem State.hardReset_fb (s : State) (p : Params) : (s.hardReset p).fb = zeros p.bs := rfl
@[simp] theorem State.hardReset_x (s : State) (p : Params) : (s.hardReset p).x = zeros p.bs := rfl
@[simp] theorem State.hardReset_y (s : State) (p : Params) : (s.hardReset p).y = zeros p.bs := rfl
@[simp] theorem State.hardReset_tw (s : State) (p : Params) : (s.hardReset p).tw = zeros 16 := rfl
@[simp] theorem State.hardReset_resp (s : State) (p : Params) : (s.hardReset p).resp = none := rfl
@[simp] theorem State.hardReset_pending (s : State) (p : Params) : (s.hardReset p).pending = s.pending := rfl
@[simp] theorem State.hardReset_draws (s : State) (p : Params) : (s.hardReset p).draws = s.draws := rfl

@[simp] theorem State.dropTw_mode (s : State) (p : Params) : (s.dropTw p).mode = s.mode := rfl
@[simp] theorem State.dropTw_flavor (s : State) (p : Params) : (s.dropTw p).flavor = s.flavor := rfl
@[simp] theorem State.dropTw_variant (s : State) (p : Params) : (s.dropTw p).variant = s.variant := rfl
@[simp] theorem State.dropTw_seg (s : State) (p : Params) : (s.dropTw p).seg = s.seg := rfl
@[simp] theorem State.dropTw_pos (s : State) (p : Params) : (s.dropTw p).pos = s.pos := rfl
@[simp] theorem State.dropTw_ctr (s : State) (p : Params) : (s.dropTw p).ctr = s.ctr := rfl
@[simp] theorem State.dropTw_nonce (s : State) (p : Params) : (s.dropTw p).nonce = s.nonce := rfl
@[simp] theorem State.dropTw_ksbuf (s : State) (p : Params) : (s.dropTw p).ksbuf = s.ksbuf := rfl
@[simp] theorem State.dropTw_iv (s : State) (p : Params) : (s.dropTw p).iv = s.iv := rfl
@[simp] theorem State.dropTw_fb (s : State) (p : Params) : (s.dropTw p).fb = s.fb := rfl
@[simp] theorem State.dropTw_x (s : State) (p : Params) : (s.dropTw p).x = s.x := rfl
@[simp] theorem State.dropTw_y (s : State) (p : Params) : (s.dropTw p).y = s.y := rfl
@[simp] theorem State.dropTw_tw (s : State) (p : Params) : (s.dropTw p).tw = freeBytes p s 16 := rfl
@[simp] theorem State.dropTw_resp (s : State) (p : Params) : (s.dropTw p).resp = s.resp := rfl
@[simp] theorem State.dropTw_pending (s : State) (p : Params) : (s.dropTw p).pending = s.pending := rfl
@[simp] theorem State.dropTw_draws (s : State) (p : Params) : (s.dropTw p).draws = s.draws + 16 := rfl

@[simp] theorem State.dropIv_mode (s : State) (p : Params) : (s.dropIv p).mode = s.mode := rfl
@[simp] theorem State.dropIv_flavor (s : State) (p : Params) : (s.dropIv p).flavor = s.flavor := rfl
@[simp] theorem State.dropIv_variant (s : State) (p : Params) : (s.dropIv p).variant = s.variant := rfl
@[simp] theorem State.dropIv_seg (s : State) (p : Params) : (s.dropIv p).seg = s.seg := rfl
@[simp] theorem State.dropIv_pos (s : State) (p : Params) : (s.dropIv p).pos = s.pos := rfl
@[simp] theorem State.dropIv_ctr (s : State) (p : Params) : (s.dropIv p).ctr = s.ctr := rfl
@[simp] theorem State.dropIv_nonce (s : State) (p : Params) : (s.dropIv p).nonce = s.nonce := rfl
@[simp] theorem State.dropIv_ksbuf (s : State) (p : Params) : (s.dropIv p).ksbuf = s.ksbuf := rfl
@[simp] theorem State.dropIv_iv (s : State) (p : Params) : (s.dropIv p).iv = freeBytes p s p.bs := rfl
@[simp] theorem State.dropIv_fb (s : State) (p : Params) : (s.dropIv p).fb = s.fb := rfl
@[simp] theorem State.dropIv_x (s : State) (p : Params) : (s.dropIv p).x = s.x := rfl
@[simp] theorem State.dropIv_y (s : State) (p : Params) : (s.dropIv p).y = s.y := rfl
@[simp] theorem State.dropIv_tw (s : State) (p : Params) : (s.dropIv p).tw = s.tw := rfl
@[simp] theorem State.dropIv_resp (s : State) (p : Params) : (s.dropIv p).resp = s.resp := rfl
@[simp] theorem State.dropIv_pending (s : State) (p : Params) : (s.dropIv p).pending = s.pending := rfl
@[simp] theorem State.dropIv_draws (s : State) (p : Params) : (s.dropIv p).draws = s.draws + p.bs := rfl

@[simp] theorem State.receive_mode (s : State) : s.receive.mode = s.mode := rfl
@[simp] theorem State.receive_flavor (s : State) : s.receive.flavor = s.flavor := rfl
@[simp] theorem State.receive_variant (s : State) : s.receive.variant = s.variant := rfl
@[simp] theorem State.receive_seg (s : State) : s.receive.seg = s.seg := rfl
@[simp] theorem State.receive_pos (s : State) : s.receive.pos = s.pos := rfl
@[simp] theorem State.receive_ctr (s : State) : s.receive.ctr = s.ctr := rfl
@[simp] theorem State.receive_nonce (s : State) : s.receive.nonce = s.nonce := rfl
@[simp] theorem State.receive_ksbuf (s : State) : s.receive.ksbuf = s.ksbuf := rfl
@[simp] theorem State.receive_iv (s : State) : s.receive.iv = s.iv := rfl
@[simp] theorem State.receive_fb (s : State) : s.receive.fb = s.fb := rfl
@[simp] theorem State.receive_x (s : State) : s.receive.x = s.x := rfl
@[simp] theorem State.receive_y (s : State) : s.receive.y = s.y := rfl
@[simp] theorem State.receive_tw (s : State) : s.receive.tw = s.tw := rfl
@[simp] theorem State.receive_resp (s : State) : s.receive.resp = none := rfl
@[simp] theorem State.receive_pending (s : State) : s.receive.pending = s.pending := rfl
@[simp] theorem State.receive_draws (s : State) : s.receive.draws = s.draws := rfl

@[simp] theorem State.issueFirst_mode (s : State) (k : Packet) : (s.issueFirst k).mode = s.mode := rfl
@[simp] theorem State.issueFirst_flavor (s : State) (k : Packet) : (s.issueFirst k).flavor = s.flavor := rfl
@[simp] theorem State.issueFirst_variant (s : State) (k : Packet) : (s.issueFirst k).variant = s.variant := rfl
@[simp] theorem State.issueFirst_seg (s : State) (k : Packet) : (s.issueFirst k).seg = s.seg := rfl
@[simp] theorem State.issueFirst_pos (s : State) (k : Packet) : (s.issueFirst k).pos = s.pos := rfl
@[simp] theorem State.issueFirst_ctr (s : State) (k : Packet) : (s.issueFirst k).ctr = s.ctr := rfl
@[simp] theorem State.issueFirst_nonce (s : State) (k : Packet) : (s.issueFirst k).nonce = s.nonce := rfl
@[simp] theorem State.issueFirst_ksbuf (s : State) (k : Packet) : (s.issueFirst k).ksbuf = s.ksbuf := rfl
@[simp] theorem State.issueFirst_iv (s : State) (k : Packet) : (s.issueFirst k).iv = s.iv := rfl
@[simp] theorem State.issueFirst_fb (s : State) (k : Packet) : (s.issueFirst k).fb = s.fb := rfl
@[simp] theorem State.issueFirst_x (s : State) (k : Packet) : (s.issueFirst k).x = s.x := rfl
@[simp] theorem State.issueFirst_y (s : State) (k : Packet) : (s.issueFirst k).y = s.y := rfl
@[simp] theorem State.issueFirst_tw (s : State) (k : Packet) : (s.issueFirst k).tw = s.tw := rfl
@[simp] theorem State.issueFirst_resp (s : State) (k : Packet) : (s.issueFirst k).resp = none := rfl
@[simp] theorem State.issueFirst_pending (s : State) (k : Packet) : (s.issueFirst k).pending = .command k :: s.pending := rfl
@[simp] theorem State.issueFirst_draws (s : State) (k : Packet) : (s.issueFirst k).draws = s.draws := rfl

@[simp] theorem shiftIn_mode (s : State) (c : Bytes) : (shiftIn s c).mode = s.mode := rfl
@[simp] theorem shiftIn_flavor (s : State) (c : Bytes) : (shiftIn s c).flavor = s.flavor := rfl
@[simp] theorem shiftIn_variant (s : State) (c : Bytes) : (shiftIn s c).variant = s.variant := rfl
@[simp] theorem shiftIn_seg (s : State) (c : Bytes) : (shiftIn s c).seg = s.seg := rfl
@[simp] theorem shiftIn_pos (s : State) (c : Bytes) : (shiftIn s c).pos = s.pos := rfl
@[simp] theorem shiftIn_ctr (s : State) (c : Bytes) : (shiftIn s c).ctr = s.ctr := rfl
@[simp] theorem shiftIn_nonce (s : State) (c : Bytes) : (shiftIn s c).nonce = s.nonce := rfl
@[simp] theorem shiftIn_ksbuf (s : State) (c : Bytes) : (shiftIn s c).ksbuf = s.ksbuf := rfl
@[simp] theorem shiftIn_iv (s : State) (c : Bytes) : (shiftIn s c).iv = s.iv.drop c.length ++ c := rfl
@[simp] theorem shiftIn_fb (s : State) (c : Bytes) : (shiftIn s c).fb = s.fb := rfl
@[simp] theorem shiftIn_x (s : State) (c : Bytes) : (shiftIn s c).x = s.x := rfl
@[simp] theorem shiftIn_y (s : State) (c : Bytes) : (shiftIn s c).y = s.y := rfl
@[simp] theorem shiftIn_tw (s : State) (c : Bytes) : (shiftIn s c).tw = s.tw := rfl
@[simp] theorem shiftIn_resp (s : State) (c : Bytes) : (shiftIn s c).resp = s.resp := rfl
@[simp] theorem shiftIn_pending (s : State) (c : Bytes) : (shiftIn s c).pending = s.pending := rfl
@[simp] theorem shiftIn_draws (s : State) (c : Bytes) : (shiftIn s c).draws = s.draws := rfl

end Sys2Proof.Machine
end

