-- ==== Sys2Proof/Laws/Loop.lean ====
section
/-! SUPPORT. The laws of `fold`, the loop every arm is made of: splitting, preserving a property of the state, the length of the
output, and one loop undoing another. -/

namespace Sys2Proof.Machine

variable {α : Type}

@[simp] theorem fold_nil (f : State → α → State × Bytes) (s : State) : fold f s [] = (s, []) := rfl

theorem fold_cons (f : State → α → State × Bytes) (s : State) (a : α) (as : List α) :
    fold f s (a :: as) = ((fold f (f s a).1 as).1, (f s a).2 ++ (fold f (f s a).1 as).2) := rfl

/-- R112: a loop may be split at any piece. -/
theorem fold_append (f : State → α → State × Bytes) (s : State) (as bs : List α) :
    fold f s (as ++ bs) =
      ((fold f (fold f s as).1 bs).1, (fold f s as).2 ++ (fold f (fold f s as).1 bs).2) := by
  induction as generalizing s with
  | nil => simp
  | cons a as ih => simp [fold_cons, ih]

/-- A property that every iteration keeps holds after the loop. -/
theorem fold_preserves (f : State → α → State × Bytes) (P : State → Prop) (Q : α → Prop)
    (h : ∀ s a, P s → Q a → P (f s a).1) (s : State) (as : List α) (hs : P s) (ha : ∀ a ∈ as, Q a) :
    P (fold f s as).1 := by
  induction as generalizing s with
  | nil => simpa
  | cons a as ih =>
    rw [fold_cons]
    exact ih _ (h s a hs (ha a (by simp))) fun b hb => ha b (by simp [hb])

/-- If every iteration yields `k` bytes, the loop yields `k` for each piece. -/
theorem fold_length (f : State → α → State × Bytes) (P : State → Prop) (Q : α → Prop) (k : Nat)
    (h : ∀ s a, P s → Q a → P (f s a).1 ∧ (f s a).2.length = k) (s : State) (as : List α) (hs : P s)
    (ha : ∀ a ∈ as, Q a) : (fold f s as).2.length = as.length * k := by
  induction as generalizing s with
  | nil => simp
  | cons a as ih =>
    have h1 := h s a hs (ha a (by simp))
    rw [fold_cons]
    simp only [List.length_append, List.length_cons, h1.2, ih _ h1.1 fun b hb => ha b (by simp [hb]), Nat.succ_mul]
    omega

/-- Iterations that leave a field alone leave it alone over the loop. -/
theorem fold_frame {β : Type} (f : State → α → State × Bytes) (get : State → β)
    (h : ∀ s a, get (f s a).1 = get s) (s : State) (as : List α) : get (fold f s as).1 = get s :=
  fold_preserves f (fun t => get t = get s) (fun _ => True) (fun t a ht _ => (h t a).trans ht) s as rfl fun _ _ => trivial

/-- Iterations related to their start stay related over the loop. -/
theorem fold_rel (f : State → α → State × Bytes) (R : State → State → Prop) (hrefl : ∀ s, R s s)
    (htrans : ∀ s t u, R s t → R t u → R s u) (h : ∀ s a, R s (f s a).1) (s : State) (as : List α) :
    R s (fold f s as).1 :=
  fold_preserves f (R s) (fun _ => True) (fun t a ht _ => htrans s t _ ht (h t a)) s as (hrefl s) fun _ _ => trivial

/-- The state before iteration `j`. -/
def stateAt (f : State → α → State × Bytes) (s : State) (as : List α) (j : Nat) : State := (fold f s (as.take j)).1

@[simp] theorem stateAt_zero (f : State → α → State × Bytes) (s : State) (as : List α) : stateAt f s as 0 = s := by
  simp [stateAt]

theorem stateAt_length (f : State → α → State × Bytes) (s : State) (as : List α) :
    stateAt f s as as.length = (fold f s as).1 := by simp [stateAt]

theorem stateAt_succ (f : State → α → State × Bytes) (s : State) (as : List α) (j : Nat) (hj : j < as.length) :
    stateAt f s as (j + 1) = (f (stateAt f s as j) as[j]).1 := by
  simp only [stateAt]
  rw [List.take_add_one, List.getElem?_eq_getElem hj, fold_append]
  simp [fold_cons]

theorem stateAt_preserves (f : State → α → State × Bytes) (P : State → Prop) (Q : α → Prop)
    (h : ∀ s a, P s → Q a → P (f s a).1) (s : State) (as : List α) (hs : P s) (ha : ∀ a ∈ as, Q a) (j : Nat) :
    P (stateAt f s as j) :=
  fold_preserves f P Q h s _ hs fun a hm => ha a (List.mem_of_mem_take hm)

/-- Iterations that each yield `k` bytes: piece `j` of the output is what iteration `j` yields. -/
theorem blk_fold (f : State → α → State × Bytes) (P : State → Prop) (Q : α → Prop) (k : Nat)
    (h : ∀ s a, P s → Q a → P (f s a).1 ∧ (f s a).2.length = k) (s : State) (as : List α) (hs : P s)
    (ha : ∀ a ∈ as, Q a) (j : Nat) (hj : j < as.length) :
    blk k (fold f s as).2 j = (f (stateAt f s as j) as[j]).2 := by
  have hsplit : as = as.take j ++ as[j] :: as.drop (j + 1) := by simp
  have hP := stateAt_preserves f P Q (fun s a hp hq => (h s a hp hq).1) s as hs ha j
  have hlen := fold_length f P Q k h s (as.take j) hs fun a hm => ha a (List.mem_of_mem_take hm)
  have hone := (h _ as[j] hP (ha _ (List.getElem_mem hj))).2
  rw [List.length_take_of_le (by omega)] at hlen
  conv_lhs => rw [hsplit]
  rw [fold_append, fold_cons]
  simp only [stateAt] at *
  have e : (j + 1) * k - j * k = k := by rw [Nat.succ_mul]; omega
  simp only [blk, slice]
  rw [List.drop_take, e, List.drop_append_of_le_length (by omega), ← hlen, List.drop_length]
  simp [hone]

/-- Byte loops: byte `j` of the output. -/
theorem getD_fold (f : State → α → State × Bytes) (s : State) (as : List α) (o : State → α → Byte)
    (h : ∀ s a, (f s a).2 = [o s a]) (j : Nat) (hj : j < as.length) :
    (fold f s as).2.getD j 0 = o (stateAt f s as j) as[j] := by
  have hb := blk_fold f (fun _ => True) (fun _ => True) 1 (fun s a _ _ => ⟨trivial, by simp [h]⟩) s as trivial
    (fun _ _ => trivial) j hj
  rw [h] at hb
  have := congrArg (fun l => l.getD 0 0) hb
  simpa [blk, slice, List.getD_eq_getElem?_getD, List.getElem?_drop, List.getElem?_take] using this

theorem length_fold_bytes (f : State → α → State × Bytes) (s : State) (as : List α) (o : State → α → Byte)
    (h : ∀ s a, (f s a).2 = [o s a]) : (fold f s as).2.length = as.length := by
  have := fold_length f (fun _ => True) (fun _ => True) 1 (fun s a _ _ => ⟨trivial, by simp [h]⟩) s as trivial fun _ _ => trivial
  simpa using this

/-- R125: a block loop that undoes another, piece by piece. -/
theorem fold_undo (f g : State → Bytes → State × Bytes) (P : State → Prop) (Q : Bytes → Prop) (k : Nat)
    (h : ∀ s a, P s → Q a → P (f s a).1 ∧ (f s a).2.length = k ∧ g s (f s a).2 = ((f s a).1, a))
    (s : State) (as : List Bytes) (hs : P s) (ha : ∀ a ∈ as, Q a) :
    fold g s (chunks k as.length (fold f s as).2) = ((fold f s as).1, as.flatten) := by
  induction as generalizing s with
  | nil => simp [chunks]
  | cons a as ih =>
    obtain ⟨h1, h2, h3⟩ := h s a hs (ha a (by simp))
    have := ih _ h1 fun b hb => ha b (by simp [hb])
    rw [fold_cons]
    simp only [List.length_cons, chunks, List.take_left' h2, List.drop_left' h2, fold_cons, List.flatten_cons, h3, this]

/-- R125: a byte loop that undoes another. -/
theorem fold_undo_bytes (f g : State → Byte → State × Bytes) (o : State → Byte → Byte) (h : ∀ s a, (f s a).2 = [o s a])
    (hg : ∀ s a, g s (o s a) = ((f s a).1, [a])) (s : State) (as : Bytes) :
    fold g s (fold f s as).2 = ((fold f s as).1, as) := by
  induction as generalizing s with
  | nil => simp
  | cons a as ih =>
    rw [fold_cons, h]
    simp [fold_cons, hg, ih]

/-- Two loops in step: related states stay related and the outputs are equal. -/
theorem fold_sim {β : Type} (f : State → α → State × Bytes) (g : State → β → State × Bytes) (m : β → α)
    (R : State → State → Prop) (Q : β → Prop)
    (h : ∀ s t b, R s t → Q b → R (f s (m b)).1 (g t b).1 ∧ (f s (m b)).2 = (g t b).2) (s t : State) (as : List β)
    (hR : R s t) (hQ : ∀ b ∈ as, Q b) :
    R (fold f s (as.map m)).1 (fold g t as).1 ∧ (fold f s (as.map m)).2 = (fold g t as).2 := by
  induction as generalizing s t with
  | nil => exact ⟨hR, rfl⟩
  | cons b as ih =>
    obtain ⟨h1, h2⟩ := h s t b hR (hQ b (by simp))
    obtain ⟨i1, i2⟩ := ih _ _ h1 fun c hc => hQ c (by simp [hc])
    simp only [List.map_cons, fold_cons]
    exact ⟨i1, by rw [h2, i2]⟩

/-- If no iteration's state depends on the data, nor does the loop's. -/
theorem fold_state_congr (f : State → α → State × Bytes) (h : ∀ s a b, (f s a).1 = (f s b).1) (s : State) (as bs : List α)
    (hl : as.length = bs.length) : (fold f s as).1 = (fold f s bs).1 := by
  induction as generalizing s bs with
  | nil =>
    cases bs with
    | nil => rfl
    | cons b bs => simp at hl
  | cons a as ih =>
    cases bs with
    | nil => simp at hl
    | cons b bs =>
      simp only [fold_cons, h s a b]
      exact ih _ _ (by simpa using hl)

/-- A byte loop over a string, piece by piece. -/
theorem fold_flatten (f : State → α → State × Bytes) (s : State) (l : List (List α)) :
    fold f s l.flatten = fold (fold f) s l := by
  induction l generalizing s with
  | nil => rfl
  | cons a l ih => simp [fold_append, fold_cons, ih]

theorem chunks_one (s : Bytes) : chunks 1 s.length s = s.map fun x => [x] := by
  induction s with
  | nil => rfl
  | cons x s ih => simp [chunks, ih]

/-- A byte loop as the sequence of its states. -/
theorem loop_bytes (f : State → Byte → State × Bytes) (o : State → Byte → Byte) (h : ∀ s a, (f s a).2 = [o s a])
    (body : State → Byte → State → Byte → Prop) (hbody : ∀ s a, body s a (f s a).1 (o s a)) (s : State) (as : Bytes) :
    Loop as.length (fun j => as.getD j 0) (fun j => (fold f s as).2.getD j 0) body s (fold f s as).1 := by
  refine ⟨stateAt f s as, by simp, by simp [stateAt_length], fun j hj => ?_⟩
  have e := getD_fold f s as o h j hj
  have e' : as.getD j 0 = as[j] := List.getD_eq_getElem _ _ hj
  simp only [e, e', stateAt_succ f s as j hj]
  exact hbody _ _

/-- A block loop as the sequence of its states. -/
theorem loop_blocks (f : State → Bytes → State × Bytes) (P : State → Prop) (k n : Nat)
    (h : ∀ s a, P s → a.length = k → P (f s a).1 ∧ (f s a).2.length = k)
    (body : State → Bytes → State → Bytes → Prop)
    (hbody : ∀ s a, P s → a.length = k → body s a (f s a).1 (f s a).2) (s : State) (hs : P s) (data : Bytes)
    (hd : data.length = n * k) :
    Loop n (blk k data) (blk k (fold f s (chunks k n data)).2) body s (fold f s (chunks k n data)).1 := by
  have hQ := mem_chunks_length k n data (by omega)
  refine ⟨stateAt f s (chunks k n data), by simp, ?_, fun j hj => ?_⟩
  · have := stateAt_length f s (chunks k n data)
    rwa [length_chunks] at this
  · have hj' : j < (chunks k n data).length := by simpa
    have e : blk k data j = (chunks k n data)[j] := by
      rw [blk, ← getD_chunks k n data j hj, List.getD_eq_getElem _ _ hj']
    rw [stateAt_succ f s _ j hj', blk_fold f P (fun a => a.length = k) k h s _ hs hQ j hj', e]
    exact hbody _ _ (stateAt_preserves f P (fun a => a.length = k) (fun s a hp hq => (h s a hp hq).1) s _ hs hQ j)
      (hQ _ (List.getElem_mem hj'))

end Sys2Proof.Machine
end

