-- ==== Sys2Proof/Laws/Params.lean ====
section
/-! SUPPORT. The parameters of this machine are those of an engine, and the machine at Config.params is the machine. -/

namespace Sys2Proof

theorem Block.ofBytes_val {n : Nat} (b : Block n) : Block.ofBytes n b.val = b := by
  apply Subtype.ext
  simp [Block.ofBytes, ← b.property]

theorem Block.val_ofBytes (b : Bytes) : (Block.ofBytes b.length b).val = b := by simp [Block.ofBytes]

@[simp] theorem Block.length_lift {n : Nat} (f : Block n → Block n) (b : Bytes) : (Block.lift f b).length = n :=
  (f (Block.ofBytes n b)).property

/-- R10: one permutation of blocks undoes the other on byte strings of one block. -/
theorem Block.lift_lift {n : Nat} (f g : Block n → Block n) (h : ∀ b, g (f b) = b) (b : Bytes) (hb : b.length = n) :
    Block.lift g (Block.lift f b) = b := by
  subst hb
  simp [Block.lift, Block.ofBytes_val, h, Block.val_ofBytes]

theorem Config.params_valid : Config.params.Valid where
  bs_pos := by decide
  bs_le := by decide
  E_length b _ := by simp [Config.params]
  D_length b _ := by simp [Config.params]
  D_E b hb := Block.lift_lift _ _ (fun _ => Equiv.symm_apply_apply _ _) b hb
  E_D b hb := Block.lift_lift _ _ (fun _ => Equiv.apply_symm_apply _ _) b hb
  T_length b _ := by simp [Config.params]
  T_injective a b ha hb h := by
    rw [← Block.lift_lift Config.tweakCipher Config.tweakCipher.symm (Equiv.symm_apply_apply _) a ha,
      ← Block.lift_lift Config.tweakCipher Config.tweakCipher.symm (Equiv.symm_apply_apply _) b hb]
    exact congrArg _ h
  remBits_pos := by simp [Config.params]
  remBits_le := by have := Config.remBitsIndex.isLt; simp [Config.params]

@[simp] theorem Config.params_bs : Config.params.bs = 16 := rfl

namespace Machine

theorem execOn_params (i : Instr) (s : State) : execOn Config.params i s = exec i s := by cases i <;> rfl

end Machine

end Sys2Proof
end

