-- ==== Sys2Proof/Laws/Inv.lean ====
section
/-! SUPPORT. The invariant under each update a command makes, and the arithmetic of the counter. -/

namespace Sys2Proof.Machine

variable {p : Params} {s t : State}

theorem Flavor.width_le (f : Flavor) : f.width ≤ 128 := by cases f <;> decide

theorem Flavor.next_lt (f : Flavor) (c : Nat) : f.next c < 2 ^ f.width := Nat.mod_lt _ (by positivity)

theorem Flavor.prev_lt (f : Flavor) (c : Nat) : f.prev c < 2 ^ f.width := Nat.mod_lt _ (by positivity)

theorem Flavor.prev_next (f : Flavor) (c : Nat) (h : c < 2 ^ f.width) : f.prev (f.next c) = c := by
  simp only [Flavor.prev, Flavor.next]
  generalize 2 ^ f.width = n at *
  rw [Nat.mod_add_mod]
  have : c + 1 + (n - 1) = c + n := by omega
  rw [this, Nat.add_mod_right, Nat.mod_eq_of_lt h]

theorem Flavor.next_prev (f : Flavor) (c : Nat) (h : c < 2 ^ f.width) : f.next (f.prev c) = c := by
  simp only [Flavor.prev, Flavor.next]
  generalize 2 ^ f.width = n at *
  rw [Nat.mod_add_mod]
  have : c + (n - 1) + 1 = c + n := by omega
  rw [this, Nat.add_mod_right, Nat.mod_eq_of_lt h]

/-- A counter value fits in `CTR`. -/
theorem Flavor.toNat_ofNat (f : Flavor) (c : Nat) (h : c < 2 ^ f.width) : (BitVec.ofNat 128 c).toNat = c := by
  rw [BitVec.toNat_ofNat]
  exact Nat.mod_eq_of_lt (lt_of_lt_of_le h (Nat.pow_le_pow_right (by decide) f.width_le))

theorem toNat_pos (p : Params) (hv : p.Valid) (n : Nat) (h : n < p.bs) : (BitVec.ofNat 8 n).toNat = n := by
  have := hv.bs_le
  simp [BitVec.toNat_ofNat]; omega

theorem toNat_nextPos (p : Params) (hv : p.Valid) (pos : Byte) : (nextPos p pos).toNat = (pos.toNat + 1) % p.bs :=
  toNat_pos p hv _ (Nat.mod_lt _ hv.bs_pos)

theorem byte_eq_zero_iff (b : Byte) : b = 0 ↔ b.toNat = 0 := by
  constructor
  · rintro rfl; rfl
  · intro h; exact BitVec.eq_of_toNat_eq h

/-- The response, what is pending and the count of draws are no part of the invariant. -/
theorem State.Inv.sameRegisters (hi : s.Inv p) (h : s.SameRegisters t) : t.Inv p := by
  rw [h]; exact { hi with }

theorem State.Inv.finish (hi : s.Inv p) (out : Bytes) : (s.finish out).Inv p := { hi with }

theorem State.Inv.raise (hi : s.Inv p) (e : Status) : (s.raise e).Inv p := { hi with }

theorem State.Inv.receive (hi : s.Inv p) : s.receive.Inv p := { hi with }

theorem State.Inv.pending (hi : s.Inv p) (l : List HostEvent) : State.Inv { s with pending := l } p := { hi with }

theorem State.Inv.setIv (hi : s.Inv p) (hm : s.mode.ivLive = true) {v : Bytes} (hv : v.length = p.bs) :
    State.Inv { s with iv := v } p :=
  { hi with iv_length := hv, iv_dead := by simp [hm] }

theorem State.Inv.setIvPos (hi : s.Inv p) (hm : s.mode = .ofb) {v : Bytes} (hv : v.length = p.bs) {q : Byte}
    (hq : q.toNat < p.bs) : State.Inv { s with iv := v, pos := q } p :=
  { hi with
    iv_length := hv, iv_dead := by simp [hm, Mode.ivLive], pos_lt := hq, pos_dead := by simp [hm, Mode.posLive],
    ksbuf_is_keystream := by simp [hm] }

theorem State.Inv.setFbPos (hi : s.Inv p) (hm : s.mode = .cfb) {v : Bytes} (hv : v.length = p.bs) {q : Byte}
    (hq : q.toNat < p.bs) : State.Inv { s with fb := v, pos := q } p :=
  { hi with
    fb_length := hv, fb_dead := by simp [hm], pos_lt := hq, pos_dead := by simp [hm, Mode.posLive],
    ksbuf_is_keystream := by simp [hm] }

theorem State.Inv.setXY (hi : s.Inv p) (hm : s.mode = .ige) {x y : Bytes} (hx : x.length = p.bs) (hy : y.length = p.bs) :
    State.Inv { s with x := x, y := y } p :=
  { hi with x_length := hx, y_length := hy, xy_dead := by simp [hm] }

theorem State.Inv.setTw (hi : s.Inv p) (hm : s.mode = .xts) {v : Bytes} (hv : v.length = 16) :
    State.Inv { s with tw := v } p :=
  { hi with tw_length := hv, tw_dead := by simp [hm] }

theorem State.Inv.dropTw (hi : s.Inv p) (hm : s.mode = .xts) : (s.dropTw p).Inv p :=
  (hi.setTw hm (v := freeBytes p s 16) (by simp)).sameRegisters rfl

theorem State.Inv.dropIv (hi : s.Inv p) (hm : s.mode.ivLive = true) : (s.dropIv p).Inv p :=
  (hi.setIv hm (v := freeBytes p s p.bs) (by simp)).sameRegisters rfl

theorem State.Inv.setCtr (hi : s.Inv p) (hm : s.mode = .ctr) {k : Bytes} (hk : k.length = p.bs) {c : BitVec 128}
    (hc : c.toNat < 2 ^ s.flavor.width) {q : Byte} (hq : q.toNat < p.bs)
    (hks : q ≠ 0 → k = keystream p s.flavor s.nonce (s.flavor.prev c.toNat)) :
    State.Inv { s with ksbuf := k, ctr := c, pos := q } p :=
  { hi with
    ksbuf_length := hk, ctr_lt := hc, ctr_dead := by simp [hm], pos_lt := hq, pos_dead := by simp [hm, Mode.posLive],
    ksbuf_is_keystream := fun _ => hks }

/-- R280: after everything is cleared. -/
theorem State.Inv.clear (hv : p.Valid) : (s.clear p).Inv p where
  nonce_length := by simp
  ksbuf_length := by simp
  iv_length := by simp
  fb_length := by simp
  x_length := by simp
  y_length := by simp
  tw_length := by simp
  pos_lt := Nat.lt_of_lt_of_le Nat.zero_lt_one hv.bs_pos
  ctr_lt := by simp [Flavor.width]
  ctr_supported := by simp
  ctr_dead := by simp
  pos_dead := by simp
  seg_range := by simp
  seg_dead := by simp
  variant_range := by simp [Mode.variantLive]
  variant_dead := by simp
  iv_dead := by simp
  fb_dead := by simp
  xy_dead := by simp
  tw_dead := by simp
  xts_bs := by simp
  ksbuf_is_keystream := by simp

end Sys2Proof.Machine
end

