-- ==== Sys2Proof/Laws/Arms.lean ====
section
/-! SUPPORT. Each iteration of each arm: what it yields, which registers it writes, that it keeps the invariant; and the arms of
ENC and DEC as loops. -/

namespace Sys2Proof.Machine

variable {p : Params}

/-- What the arms of a mode write (10_state.md R39): only registers that are live in it. -/
def ModeFrame (m : Mode) (s t : State) : Prop :=
  match m with
  | .none | .ecbcts => t = s
  | .ctr => t = { s with pos := t.pos, ctr := t.ctr, ksbuf := t.ksbuf }
  | .cbc | .cfb8 | .cfbs | .pcbc => t = { s with iv := t.iv }
  | .cfb => t = { s with fb := t.fb, pos := t.pos }
  | .ofb => t = { s with iv := t.iv, pos := t.pos }
  | .ige => t = { s with x := t.x, y := t.y }
  | .xts => t = { s with tw := t.tw, draws := t.draws }
  | .cbccts => t = { s with iv := t.iv, draws := t.draws }

/-- What the arms write. -/
def ArmFrame (s t : State) : Prop := ModeFrame s.mode s t

/-! ### Byte loops -/

theorem ctrByte_out (s : State) (b : Byte) :
    (ctrByte p s b).2 = [b ^^^ (ctrRefill p s).ksbuf.getD (ctrRefill p s).pos.toNat 0] := rfl

theorem ofbByte_out (s : State) (b : Byte) :
    (ofbByte p s b).2 = [b ^^^ (ofbRefill p s).iv.getD (ofbRefill p s).pos.toNat 0] := rfl

theorem cfbEncByte_out (s : State) (b : Byte) : (cfbEncByte p s b).2 = [b ^^^ s.fb.getD s.pos.toNat 0] := rfl

theorem cfbDecByte_out (s : State) (b : Byte) : (cfbDecByte p s b).2 = [b ^^^ s.fb.getD s.pos.toNat 0] := rfl

theorem cfb8EncByte_out (s : State) (b : Byte) : (cfb8EncByte p s b).2 = [b ^^^ (p.E s.iv).getD 0 0] := rfl

theorem cfb8DecByte_out (s : State) (b : Byte) : (cfb8DecByte p s b).2 = [b ^^^ (p.E s.iv).getD 0 0] := rfl

theorem ctrByte_frame (s : State) (b : Byte) :
    (ctrByte p s b).1 = { s with pos := (ctrByte p s b).1.pos, ctr := (ctrByte p s b).1.ctr, ksbuf := (ctrByte p s b).1.ksbuf } := by
  simp only [ctrByte, ctrRefill]; split <;> rfl

theorem ofbByte_frame (s : State) (b : Byte) :
    (ofbByte p s b).1 = { s with iv := (ofbByte p s b).1.iv, pos := (ofbByte p s b).1.pos } := by
  simp only [ofbByte, ofbRefill]; split <;> rfl

theorem cfbFeed_frame (s : State) (c : Byte) :
    cfbFeed p s c = { s with fb := (cfbFeed p s c).fb, pos := (cfbFeed p s c).pos } := by
  simp only [cfbFeed]; split <;> rfl

theorem keystream_length (hv : p.Valid) (f : Flavor) (nonce : Bytes) (i : Nat) (hs : f.supported p.bs = true)
    (hn : nonce.length = p.bs) : (blockFor p f nonce i).length = p.bs ∧ (keystream p f nonce i).length = p.bs := by
  suffices h : (blockFor p f nonce i).length = p.bs from ⟨h, hv.E_length _ h⟩
  cases f <;> simp_all [blockFor, blockForBe, blockForLe, blockForBelt, Flavor.width, Flavor.supported]

theorem ctrRefill_inv (hv : p.Valid) (s : State) (hi : s.Inv p) (hm : s.mode = .ctr) :
    (ctrRefill p s).ksbuf.length = p.bs ∧ (ctrRefill p s).ctr.toNat < 2 ^ s.flavor.width ∧
      (ctrRefill p s).ksbuf = keystream p s.flavor s.nonce (s.flavor.prev (ctrRefill p s).ctr.toNat) := by
  simp only [ctrRefill]
  split
  · refine ⟨(keystream_length hv _ _ _ (hi.ctr_supported hm) hi.nonce_length).2, ?_, ?_⟩
    · simp only [Flavor.toNat_ofNat _ _ (Flavor.next_lt _ _)]
      exact Flavor.next_lt _ _
    · simp only [Flavor.toNat_ofNat _ _ (Flavor.next_lt _ _), Flavor.prev_next _ _ hi.ctr_lt]
  · exact ⟨hi.ksbuf_length, hi.ctr_lt, hi.ksbuf_is_keystream hm ‹_›⟩

theorem ctrByte_inv (hv : p.Valid) (s : State) (b : Byte) (hi : s.Inv p) (hm : s.mode = .ctr) :
    (ctrByte p s b).1.Inv p := by
  obtain ⟨h1, h2, h3⟩ := ctrRefill_inv hv s hi hm
  have e : (ctrByte p s b).1 =
      { s with ksbuf := (ctrRefill p s).ksbuf, ctr := (ctrRefill p s).ctr, pos := nextPos p (ctrRefill p s).pos } := by
    simp only [ctrByte, ctrRefill]; split <;> rfl
  rw [e]
  refine hi.setCtr hm h1 h2 ?_ fun _ => h3
  rw [toNat_nextPos p hv]
  exact Nat.mod_lt _ hv.bs_pos

theorem ofbByte_inv (hv : p.Valid) (s : State) (b : Byte) (hi : s.Inv p) (hm : s.mode = .ofb) :
    (ofbByte p s b).1.Inv p := by
  have e : (ofbByte p s b).1 = { s with iv := (ofbRefill p s).iv, pos := nextPos p (ofbRefill p s).pos } := by
    simp only [ofbByte, ofbRefill]; split <;> rfl
  rw [e]
  refine hi.setIvPos hm ?_ ?_
  · simp only [ofbRefill]
    split
    · exact hv.E_length _ hi.iv_length
    · exact hi.iv_length
  · rw [toNat_nextPos p hv]
    exact Nat.mod_lt _ hv.bs_pos

theorem cfbFeed_inv (hv : p.Valid) (s : State) (c : Byte) (hi : s.Inv p) (hm : s.mode = .cfb) : (cfbFeed p s c).Inv p := by
  have hl : (s.fb.set s.pos.toNat c).length = p.bs := by simp [hi.fb_length]
  simp only [cfbFeed]
  split
  · exact hi.setFbPos hm (hv.E_length _ hl) hv.bs_pos
  · have := hi.pos_lt
    exact hi.setFbPos hm hl (by rw [toNat_pos p hv _ (by omega)]; omega)

theorem shiftIn_inv (s : State) (c : Bytes) (hi : s.Inv p) (hm : s.mode.ivLive = true) (hc : c.length ≤ p.bs) :
    (shiftIn s c).Inv p :=
  hi.setIv hm (by simp [hi.iv_length]; omega)

/-! ### Block loops: one iteration on a block of the right length -/

theorem cbcEncBlock_inv (hv : p.Valid) (s : State) (b : Bytes) (hi : s.Inv p) (hm : s.mode.ivLive = true) (hb : b.length = p.bs) :
    (cbcEncBlock p s b).1.Inv p ∧ (cbcEncBlock p s b).2.length = p.bs := by
  have h : (p.E (xorBytes b s.iv)).length = p.bs := hv.E_length _ (by simp [hb, hi.iv_length])
  exact ⟨hi.setIv hm h, h⟩

theorem cbcDecBlock_inv (hv : p.Valid) (s : State) (b : Bytes) (hi : s.Inv p) (hm : s.mode.ivLive = true) (hb : b.length = p.bs) :
    (cbcDecBlock p s b).1.Inv p ∧ (cbcDecBlock p s b).2.length = p.bs :=
  ⟨hi.setIv hm hb, by simp [cbcDecBlock, hv.D_length _ hb, hi.iv_length]⟩

theorem pcbcEncBlock_inv (hv : p.Valid) (s : State) (b : Bytes) (hi : s.Inv p) (hm : s.mode.ivLive = true) (hb : b.length = p.bs) :
    (pcbcEncBlock p s b).1.Inv p ∧ (pcbcEncBlock p s b).2.length = p.bs := by
  have h : (p.E (xorBytes b s.iv)).length = p.bs := hv.E_length _ (by simp [hb, hi.iv_length])
  exact ⟨hi.setIv hm (by simp [h, hb]), h⟩

theorem pcbcDecBlock_inv (hv : p.Valid) (s : State) (b : Bytes) (hi : s.Inv p) (hm : s.mode.ivLive = true) (hb : b.length = p.bs) :
    (pcbcDecBlock p s b).1.Inv p ∧ (pcbcDecBlock p s b).2.length = p.bs := by
  have h : (xorBytes (p.D b) s.iv).length = p.bs := by simp [hv.D_length _ hb, hi.iv_length]
  exact ⟨hi.setIv hm (by simp [h, hb]), h⟩

theorem igeEncBlock_inv (hv : p.Valid) (s : State) (b : Bytes) (hi : s.Inv p) (hm : s.mode = .ige) (hb : b.length = p.bs) :
    (igeEncBlock p s b).1.Inv p ∧ (igeEncBlock p s b).2.length = p.bs := by
  have h0 : (p.E (xorBytes b s.y)).length = p.bs := hv.E_length _ (by simp [hb, hi.y_length])
  have h : (xorBytes (p.E (xorBytes b s.y)) s.x).length = p.bs := by simp [h0, hi.x_length]
  exact ⟨hi.setXY hm hb h, h⟩

theorem igeDecBlock_inv (hv : p.Valid) (s : State) (b : Bytes) (hi : s.Inv p) (hm : s.mode = .ige) (hb : b.length = p.bs) :
    (igeDecBlock p s b).1.Inv p ∧ (igeDecBlock p s b).2.length = p.bs := by
  have h0 : (p.D (xorBytes b s.x)).length = p.bs := hv.D_length _ (by simp [hb, hi.x_length])
  have h : (xorBytes (p.D (xorBytes b s.x)) s.y).length = p.bs := by simp [h0, hi.y_length]
  exact ⟨hi.setXY hm h hb, h⟩

theorem cfbsEncSeg_inv (hv : p.Valid) (s : State) (b : Bytes) (hi : s.Inv p) (hm : s.mode = .cfbs) (hb : b.length = s.seg.toNat) :
    (cfbsEncSeg p s b).1.Inv p ∧ (cfbsEncSeg p s b).2.length = s.seg.toNat := by
  have hr := hi.seg_range hm
  have hE := hv.E_length _ hi.iv_length
  have h : (xorBytes b (slice (p.E s.iv) 0 s.seg.toNat)).length = s.seg.toNat := by simp [hE, hb]; omega
  exact ⟨shiftIn_inv s _ hi (by simp [hm, Mode.ivLive]) (by omega), h⟩

theorem cfbsDecSeg_inv (hv : p.Valid) (s : State) (b : Bytes) (hi : s.Inv p) (hm : s.mode = .cfbs) (hb : b.length = s.seg.toNat) :
    (cfbsDecSeg p s b).1.Inv p ∧ (cfbsDecSeg p s b).2.length = s.seg.toNat := by
  have hr := hi.seg_range hm
  have hE := hv.E_length _ hi.iv_length
  have h : (xorBytes b (slice (p.E s.iv) 0 s.seg.toNat)).length = s.seg.toNat := by simp [hE, hb]; omega
  exact ⟨shiftIn_inv s _ hi (by simp [hm, Mode.ivLive]) (by omega), h⟩

@[simp] theorem length_mulx (t : Bytes) : (mulx t).length = 16 := by simp [mulx]

@[simp] theorem length_mulxInv (t : Bytes) : (mulxInv t).length = 16 := by simp [mulxInv]

theorem xtsEncBlock_inv (hv : p.Valid) (s : State) (b : Bytes) (hi : s.Inv p) (hm : s.mode = .xts) (hb : b.length = 16) :
    (xtsEncBlock p s b).1.Inv p ∧ (xtsEncBlock p s b).2.length = 16 := by
  have hbs := hi.xts_bs hm
  have hE : (p.E (xorBytes b s.tw)).length = p.bs := hv.E_length _ (by simp [hb, hi.tw_length, hbs])
  exact ⟨hi.setTw hm (length_mulx _), by simp [xtsEncBlock, hE, hi.tw_length, hbs]⟩

theorem xtsDecBlock_inv (hv : p.Valid) (s : State) (b : Bytes) (hi : s.Inv p) (hm : s.mode = .xts) (hb : b.length = 16) :
    (xtsDecBlock p s b).1.Inv p ∧ (xtsDecBlock p s b).2.length = 16 := by
  have hbs := hi.xts_bs hm
  have hD : (p.D (xorBytes b s.tw)).length = p.bs := hv.D_length _ (by simp [hb, hi.tw_length, hbs])
  exact ⟨hi.setTw hm (length_mulx _), by simp [xtsDecBlock, hD, hi.tw_length, hbs]⟩

theorem baseEnc_inv (hv : p.Valid) (s : State) (b : Bytes) (hi : s.Inv p) (hm : s.mode = .cbccts ∨ s.mode = .ecbcts)
    (hb : b.length = p.bs) : (baseEnc p s b).1.Inv p ∧ (baseEnc p s b).2.length = p.bs := by
  simp only [baseEnc]
  split
  · exact cbcEncBlock_inv hv s b hi (by simp [*, Mode.ivLive]) hb
  · exact ⟨hi, hv.E_length _ hb⟩

theorem baseDec_inv (hv : p.Valid) (s : State) (b : Bytes) (hi : s.Inv p) (hm : s.mode = .cbccts ∨ s.mode = .ecbcts)
    (hb : b.length = p.bs) : (baseDec p s b).1.Inv p ∧ (baseDec p s b).2.length = p.bs := by
  simp only [baseDec]
  split
  · exact cbcDecBlock_inv hv s b hi (by simp [*, Mode.ivLive]) hb
  · exact ⟨hi, hv.D_length _ hb⟩

/-- A base transform writes `IV` at most, and in ECBCTS nothing. -/
theorem baseEnc_frame (s : State) (b : Bytes) :
    (baseEnc p s b).1 = { s with iv := (baseEnc p s b).1.iv } ∧ (s.mode ≠ .cbccts → (baseEnc p s b).1 = s) := by
  simp only [baseEnc]; split <;> simp_all [cbcEncBlock]

theorem baseDec_frame (s : State) (b : Bytes) :
    (baseDec p s b).1 = { s with iv := (baseDec p s b).1.iv } ∧ (s.mode ≠ .cbccts → (baseDec p s b).1 = s) := by
  simp only [baseDec]; split <;> simp_all [cbcDecBlock]

/-! ### One iteration of DEC undoes one of ENC (40_common.md R125) -/

theorem cfbDec_enc (s : State) (b : Byte) :
    cfbDecByte p s (b ^^^ s.fb.getD s.pos.toNat 0) = ((cfbEncByte p s b).1, [b]) := by
  simp [cfbDecByte, cfbEncByte, BitVec.xor_assoc]

theorem cfb8Dec_enc (s : State) (b : Byte) :
    cfb8DecByte p s (b ^^^ (p.E s.iv).getD 0 0) = ((cfb8EncByte p s b).1, [b]) := by
  simp [cfb8DecByte, cfb8EncByte, BitVec.xor_assoc]

theorem ctrByte_twice (s : State) (b : Byte) :
    ctrByte p s (b ^^^ (ctrRefill p s).ksbuf.getD (ctrRefill p s).pos.toNat 0) = ((ctrByte p s b).1, [b]) := by
  simp [ctrByte, BitVec.xor_assoc]

theorem ofbByte_twice (s : State) (b : Byte) :
    ofbByte p s (b ^^^ (ofbRefill p s).iv.getD (ofbRefill p s).pos.toNat 0) = ((ofbByte p s b).1, [b]) := by
  simp [ofbByte, BitVec.xor_assoc]

theorem cbcDec_enc (hv : p.Valid) (s : State) (b : Bytes) (hi : s.Inv p) (hb : b.length = p.bs) :
    cbcDecBlock p s (cbcEncBlock p s b).2 = ((cbcEncBlock p s b).1, b) := by
  simp only [cbcDecBlock, cbcEncBlock]
  rw [hv.D_E _ (by simp [hb, hi.iv_length]), xorBytes_cancel _ _ (by simp [hb, hi.iv_length])]

theorem pcbcDec_enc (hv : p.Valid) (s : State) (b : Bytes) (hi : s.Inv p) (hb : b.length = p.bs) :
    pcbcDecBlock p s (pcbcEncBlock p s b).2 = ((pcbcEncBlock p s b).1, b) := by
  simp only [pcbcDecBlock, pcbcEncBlock]
  rw [hv.D_E _ (by simp [hb, hi.iv_length]), xorBytes_cancel _ _ (by simp [hb, hi.iv_length]), xorBytes_comm b]

theorem igeDec_enc (hv : p.Valid) (s : State) (b : Bytes) (hi : s.Inv p) (hb : b.length = p.bs) :
    igeDecBlock p s (igeEncBlock p s b).2 = ((igeEncBlock p s b).1, b) := by
  have hE : (p.E (xorBytes b s.y)).length = p.bs := hv.E_length _ (by simp [hb, hi.y_length])
  simp only [igeDecBlock, igeEncBlock]
  rw [xorBytes_cancel _ _ (by simp [hE, hi.x_length]), hv.D_E _ (by simp [hb, hi.y_length]),
    xorBytes_cancel _ _ (by simp [hb, hi.y_length])]

theorem cfbsDec_enc (hv : p.Valid) (s : State) (b : Bytes) (hi : s.Inv p) (hm : s.mode = .cfbs) (hb : b.length = s.seg.toNat) :
    cfbsDecSeg p s (cfbsEncSeg p s b).2 = ((cfbsEncSeg p s b).1, b) := by
  have hr := hi.seg_range hm
  have hE := hv.E_length _ hi.iv_length
  simp only [cfbsDecSeg, cfbsEncSeg]
  rw [xorBytes_cancel _ _ (by simp [hE, hb]; omega)]

theorem xtsDec_enc (hv : p.Valid) (s : State) (b : Bytes) (hi : s.Inv p) (hm : s.mode = .xts) (hb : b.length = 16) :
    xtsDecBlock p s (xtsEncBlock p s b).2 = ((xtsEncBlock p s b).1, b) := by
  have hbs := hi.xts_bs hm
  have hE : (p.E (xorBytes b s.tw)).length = p.bs := hv.E_length _ (by simp [hb, hi.tw_length, hbs])
  simp only [xtsDecBlock, xtsEncBlock]
  rw [xorBytes_cancel _ _ (by simp [hE, hi.tw_length, hbs]), hv.D_E _ (by simp [hb, hi.tw_length, hbs]),
    xorBytes_cancel _ _ (by simp [hb, hi.tw_length])]

theorem baseDec_enc (hv : p.Valid) (s : State) (b : Bytes) (hi : s.Inv p) (hb : b.length = p.bs) :
    baseDec p s (baseEnc p s b).2 = ((baseEnc p s b).1, b) := by
  simp only [baseDec, baseEnc]
  split
  · exact cbcDec_enc hv s b hi hb
  · simp [hv.D_E _ hb]

end Sys2Proof.Machine
end

