-- ==== Sys2Proof/Laws/Decode.lean ====
section
/-! SUPPORT. The laws of the encoding: the fields of a word and the word of its fields, and what the decoder says of a packet in
each format. -/

namespace Sys2Proof

open Machine

/-- R71: a word from its fields. -/
def fieldsWord (opc mode sub seg rsv len : Nat) : Word :=
  BitVec.ofNat 32 (opc * 2 ^ 28 + mode * 2 ^ 24 + sub * 2 ^ 20 + seg * 2 ^ 12 + rsv * 2 ^ 8 + len)

theorem fields_fieldsWord (opc mode sub seg rsv len : Nat) (h1 : opc < 16) (h2 : mode < 16) (h3 : sub < 16)
    (h4 : seg < 256) (h5 : rsv < 16) (h6 : len < 256) :
    opcOf (fieldsWord opc mode sub seg rsv len) = opc ∧ field (fieldsWord opc mode sub seg rsv len) 27 24 = mode ∧
      field (fieldsWord opc mode sub seg rsv len) 23 20 = sub ∧ field (fieldsWord opc mode sub seg rsv len) 19 12 = seg ∧
      field (fieldsWord opc mode sub seg rsv len) 11 8 = rsv ∧ plenOf (fieldsWord opc mode sub seg rsv len) = len := by
  simp only [opcOf, plenOf, field, fieldsWord, BitVec.toNat_ofNat]
  norm_num
  refine ⟨?_, ?_, ?_, ?_, ?_, ?_⟩ <;> omega

/-- R71: the fields determine the word. -/
theorem fieldsWord_fields (w : Word) :
    fieldsWord (opcOf w) (field w 27 24) (field w 23 20) (field w 19 12) (field w 11 8) (plenOf w) = w := by
  apply BitVec.eq_of_toNat_eq
  have := w.isLt
  simp only [opcOf, plenOf, field, fieldsWord, BitVec.toNat_ofNat]
  norm_num
  omega

theorem opcOf_lt (w : Word) : opcOf w < 16 := by
  simp only [opcOf, field]; norm_num; omega

theorem field_lt (w : Word) (hi lo : Nat) : field w hi lo < 2 ^ (hi + 1 - lo) := Nat.mod_lt _ (by positivity)

/-- R84: framing fails exactly on packets that are not framed as their words announce. -/
theorem framingError_none_iff (w : Word) (ws : List Word) (bytes : Bytes) :
    framingError w ws bytes = none ↔ Packet.WellFramed ⟨w :: ws, bytes⟩ := by
  have hlt := opcOf_lt w
  have hw : Packet.WellFramed ⟨w :: ws, bytes⟩ ↔
      ((opcOf w = 1 ∨ opcOf w = 2 ∨ opcOf w = 5) ∧ ws = [] ∧ bytes.length = plenOf w ∨
      (opcOf w = 3 ∨ opcOf w = 4) ∧ (∃ ilen olen, ws = [ilen, olen] ∧ bytes.length = ilen.toNat) ∨
      (opcOf w = 0 ∨ 6 ≤ opcOf w) ∧ ws = [] ∧ bytes = []) := by
    constructor
    · rintro ⟨w', ws', h, h'⟩
      simp only [List.cons.injEq] at h
      obtain ⟨rfl, rfl⟩ := h
      exact h'
    · intro h; exact ⟨w, ws, rfl, h⟩
  rw [hw]
  simp only [framingError, framingOf]
  generalize opcOf w = o at *
  rcases ws with _ | ⟨a, _ | ⟨b, _ | ⟨c, ws⟩⟩⟩ <;> interval_cases o <;> simp

/-- The decoder, on a packet that is framed as its words announce. -/
theorem decode_framed (w : Word) (ws : List Word) (bytes : Bytes) (h : Packet.WellFramed ⟨w :: ws, bytes⟩) :
    decode ⟨w :: ws, bytes⟩ =
      match decodeRow w ws bytes with
      | some i => .ok i
      | none => .error (if opcodeAssigned w then .reservedField else .reservedOpcode) := by
  simp only [decode, (framingError_none_iff w ws bytes).mpr h]
  all_goals (cases decodeRow w ws bytes <;> rfl)

/-- What decodes is framed, and is a row of the table. -/
theorem decode_ok (k : Packet) (i : Instr) (h : decode k = .ok i) :
    ∃ w ws, k.words = w :: ws ∧ k.WellFramed ∧ decodeRow w ws k.bytes = some i := by
  obtain ⟨words, bytes⟩ := k
  cases words with
  | nil => simp [decode] at h
  | cons w ws =>
    simp only [decode] at h
    split at h
    · cases h
    · rename_i hf
      split at h
      · cases h; exact ⟨w, ws, rfl, (framingError_none_iff w ws bytes).mp hf, ‹_›⟩
      · cases h

/-- R57: the decoder's errors about counts are exactly those of packets that are not framed. -/
theorem decode_malformed_iff (k : Packet) :
    (∃ e, decode k = .error e ∧ e ≠ .reservedOpcode ∧ e ≠ .reservedField) ↔ ¬ k.WellFramed := by
  obtain ⟨words, bytes⟩ := k
  cases words with
  | nil => simp [decode, Packet.WellFramed]
  | cons w ws =>
    constructor
    · rintro ⟨e, he, h1, h2⟩ hw
      rw [decode_framed w ws bytes hw] at he
      split at he
      · cases he
      · cases he; split at h1 <;> simp_all
    · intro hw
      have hf := mt (framingError_none_iff w ws bytes).mp hw
      obtain ⟨e, he⟩ := Option.ne_none_iff_exists'.mp hf
      refine ⟨e, by simp [decode, he], ?_⟩
      revert he
      simp only [framingError]
      rcases ws with _ | ⟨a, _ | ⟨b, _ | ⟨c, ws⟩⟩⟩ <;> cases framingOf w <;> simp <;> grind

/-- Format I, framed by `PLEN`. -/
theorem wellFramed_payload (w : Word) (bytes : Bytes) (ho : opcOf w = 1 ∨ opcOf w = 2 ∨ opcOf w = 5)
    (h : bytes.length = plenOf w) : Packet.WellFramed ⟨[w], bytes⟩ :=
  ⟨w, [], rfl, .inl ⟨ho, rfl, h⟩⟩

theorem decode_init (w : Word) (pay : Bytes) (ho : opcOf w = 1) (h : pay.length = plenOf w) :
    decode ⟨[w], pay⟩ = match decodeInit w pay with
      | some i => .ok i
      | none => .error .reservedField := by
  rw [decode_framed w [] pay (wellFramed_payload w pay (by simp [ho]) h)]
  simp [decodeRow, ho, opcodeAssigned]

theorem decode_ldst (w : Word) (pay : Bytes) (ho : opcOf w = 2) (h : pay.length = plenOf w) :
    decode ⟨[w], pay⟩ = match decodeLdst w pay with
      | some i => .ok i
      | none => .error .reservedField := by
  rw [decode_framed w [] pay (wellFramed_payload w pay (by simp [ho]) h)]
  simp [decodeRow, ho, opcodeAssigned]

/-- R72: the packet of an INIT or LDST, by its fields. -/
theorem encodeI_fields (opc mode sub : Nat) (seg : Byte) (pay : Bytes) :
    encodeI (opc * 2 ^ 28 + mode * 2 ^ 24 + sub * 2 ^ 20) seg pay =
      ⟨[fieldsWord opc mode sub seg.toNat 0 pay.length], pay⟩ := by
  simp [encodeI, fieldsWord]

theorem decode_encodeI_init (mode sub : Nat) (seg : Byte) (pay : Bytes) (hm : mode < 16) (hs : sub < 16)
    (hp : pay.length < 256) :
    decode (encodeI (1 * 2 ^ 28 + mode * 2 ^ 24 + sub * 2 ^ 20) seg pay) =
      match decodeInit (fieldsWord 1 mode sub seg.toNat 0 pay.length) pay with
      | some i => .ok i
      | none => .error .reservedField := by
  have h := fields_fieldsWord 1 mode sub seg.toNat 0 pay.length (by decide) hm hs seg.isLt (by decide) hp
  rw [encodeI_fields, decode_init _ _ h.1 h.2.2.2.2.2.symm]

theorem decode_encodeI_ldst (mode sub : Nat) (seg : Byte) (pay : Bytes) (hm : mode < 16) (hs : sub < 16)
    (hp : pay.length < 256) :
    decode (encodeI (2 * 2 ^ 28 + mode * 2 ^ 24 + sub * 2 ^ 20) seg pay) =
      match decodeLdst (fieldsWord 2 mode sub seg.toNat 0 pay.length) pay with
      | some i => .ok i
      | none => .error .reservedField := by
  have h := fields_fieldsWord 2 mode sub seg.toNat 0 pay.length (by decide) hm hs seg.isLt (by decide) hp
  rw [encodeI_fields, decode_ldst _ _ h.1 h.2.2.2.2.2.symm]

end Sys2Proof
end

