-- ==== Sys2Proof/Laws/Steal.lean ====
section
/-! SUPPORT. The arms with ciphertext stealing, on an input given by its parts: leading blocks, last full block, last block. -/

namespace Sys2Proof.Machine

variable {p : Params}

theorem slice_append_right (a b : Bytes) (i j : Nat) (h : a.length = i) : slice (a ++ b) i j = b.take (j - i) := by
  subst h
  rw [slice, List.drop_take, List.drop_left]

theorem slice_mid (a b c : Bytes) (i j : Nat) (h : a.length = i) (h' : a.length + b.length = j) :
    slice (a ++ b ++ c) i j = b := by
  rw [List.append_assoc, slice_append_right _ _ _ _ h]
  subst h; subst h'
  simp

theorem slice_end (a b : Bytes) (i j : Nat) (h : a.length = i) (h' : a.length + b.length = j) : slice (a ++ b) i j = b := by
  have := slice_mid a b [] i j h h'
  simpa using this

theorem chunks_prefix (size m : Nat) (a b : Bytes) (h : a.length = m * size) : chunks size m (a ++ b) = chunks size m a := by
  rw [← chunks_take size m (a ++ b), List.take_append_of_le_length (by omega), List.take_of_length_le (by omega)]

/-- A string of at least one block, cut into leading blocks, a full block and a last block of 1 to `k` bytes, unless it is
exactly one block. -/
theorem exists_parts (k : Nat) (hk : 1 ≤ k) (data : Bytes) (h : k < data.length) :
    ∃ n lead pa pb, data = lead ++ pa ++ pb ∧ 2 ≤ n ∧ lead.length = (n - 2) * k ∧ pa.length = k ∧
      1 ≤ pb.length ∧ pb.length ≤ k := by
  obtain ⟨q, r, hq, hr, hr'⟩ : ∃ q r, data.length = (q + 1) * k + r ∧ 1 ≤ r ∧ r ≤ k := by
    have h1 := Nat.div_add_mod (data.length - 1) k
    have h2 := Nat.mod_lt (data.length - 1) (show k > 0 by omega)
    have h3 : 1 ≤ (data.length - 1) / k := by
      rw [Nat.le_div_iff_mul_le (by omega)]; omega
    obtain ⟨q, hq⟩ : ∃ q, (data.length - 1) / k = q + 1 := ⟨_, (Nat.sub_add_cancel h3).symm⟩
    rw [hq] at h1
    exact ⟨q, (data.length - 1) % k + 1, by rw [Nat.mul_comm]; omega, by omega, by omega⟩
  have e : (q + 1) * k = q * k + k := Nat.succ_mul q k
  refine ⟨q + 2, data.take (q * k), (data.drop (q * k)).take k, data.drop ((q + 1) * k), ?_, by omega, ?_, ?_, ?_, ?_⟩
  · rw [e, ← List.drop_drop, List.append_assoc, List.take_append_drop, List.take_append_drop]
  · simp; omega
  · simp; omega
  · simp; omega
  · simp; omega

/-! ### XTS -/

theorem xtsArm_whole (block : State → Bytes → State × Bytes) (steal : State → Bytes → Bytes → State × Bytes) (s : State)
    (data : Bytes) (h : data.length % 16 = 0) : xtsArm block steal s data = fold block s (chunks 16 (data.length / 16) data) := by
  simp [xtsArm, xtsPlainBlocks, h]

theorem xtsArm_parts (block : State → Bytes → State × Bytes) (steal : State → Bytes → Bytes → State × Bytes) (s : State)
    (m : Nat) (lead pa pb : Bytes) (hl : lead.length = m * 16) (ha : pa.length = 16) (hb : 0 < pb.length)
    (hb' : pb.length < 16) :
    xtsArm block steal s (lead ++ pa ++ pb) =
      ((steal (fold block s (chunks 16 m lead)).1 pa pb).1,
        (fold block s (chunks 16 m lead)).2 ++ (steal (fold block s (chunks 16 m lead)).1 pa pb).2) := by
  have hL : (lead ++ pa ++ pb).length = m * 16 + 16 + pb.length := by simp [hl, ha]; omega
  have hmod : (lead ++ pa ++ pb).length % 16 ≠ 0 := by omega
  have hdiv : (lead ++ pa ++ pb).length / 16 = m + 1 := by omega
  have e1 : slice (lead ++ pa ++ pb) (16 * m) (16 * m + 16) = pa := slice_mid _ _ _ _ _ (by omega) (by omega)
  have e2 : slice (lead ++ pa ++ pb) (16 * m + 16) (lead ++ pa ++ pb).length = pb :=
    slice_end _ _ _ _ (by simp [hl, ha]; omega) (by simp [Nat.add_assoc])
  have e3 : chunks 16 m (lead ++ pa ++ pb) = chunks 16 m lead := by
    rw [List.append_assoc]; exact chunks_prefix _ _ _ _ hl
  simp only [xtsArm, xtsPlainBlocks, hmod, if_false, hdiv, Nat.add_sub_cancel, e1, e2, e3]

theorem xtsStealEnc_length (hv : p.Valid) (hbs : p.bs = 16) (s : State) (pa pb : Bytes) (hs : s.tw.length = 16)
    (ha : pa.length = 16) (hb : pb.length ≤ 16) : (xtsStealEnc p s pa pb).2.length = 16 + pb.length := by
  have hE := fun b (h : b.length = 16) => (hv.E_length b (by omega)).trans hbs
  have h1 : (xorBytes (p.E (xorBytes pa s.tw)) s.tw).length = 16 := by simp [hE, ha, hs]
  have h2 : (pb ++ slice (xorBytes (p.E (xorBytes pa s.tw)) s.tw) pb.length 16).length = 16 := by simp [h1]; omega
  have h3 : (xorBytes (p.E (xorBytes (pb ++ slice (xorBytes (p.E (xorBytes pa s.tw)) s.tw) pb.length 16) (mulx s.tw)))
      (mulx s.tw)).length = 16 := by simp [hE, h2, -List.length_append]
  simp only [xtsStealEnc, List.length_append, h3, length_slice, h1]
  omega

theorem xtsStealDec_length (hv : p.Valid) (hbs : p.bs = 16) (s : State) (ca cb : Bytes) (hs : s.tw.length = 16)
    (ha : ca.length = 16) (hb : cb.length ≤ 16) : (xtsStealDec p s ca cb).2.length = 16 + cb.length := by
  have hD := fun b (h : b.length = 16) => (hv.D_length b (by omega)).trans hbs
  have h1 : (xorBytes (p.D (xorBytes ca (mulx s.tw))) (mulx s.tw)).length = 16 := by simp [hD, ha]
  have h2 : (cb ++ slice (xorBytes (p.D (xorBytes ca (mulx s.tw))) (mulx s.tw)) cb.length 16).length = 16 := by
    simp [h1]; omega
  have h3 : (xorBytes (p.D (xorBytes (cb ++ slice (xorBytes (p.D (xorBytes ca (mulx s.tw))) (mulx s.tw)) cb.length 16)
      s.tw)) s.tw).length = 16 := by simp [hD, h2, hs, -List.length_append]
  simp only [xtsStealDec, List.length_append, h3, length_slice, h1]
  omega

/-- R228: the stealing step of DEC undoes that of ENC. -/
theorem xtsSteal_undo (hv : p.Valid) (hbs : p.bs = 16) (s : State) (pa pb : Bytes) (hs : s.tw.length = 16)
    (ha : pa.length = 16) (hb : pb.length ≤ 16) :
    ∃ ca cb, (xtsStealEnc p s pa pb).2 = ca ++ cb ∧ ca.length = 16 ∧ cb.length = pb.length ∧
      (xtsStealDec p s ca cb).2 = pa ++ pb := by
  have hE := fun b (h : b.length = 16) => (hv.E_length b (by omega)).trans hbs
  have hDE := fun b (h : b.length = 16) => hv.D_E b (by omega)
  have h1 : (xorBytes (p.E (xorBytes pa s.tw)) s.tw).length = 16 := by simp [hE, ha, hs]
  have hundo : ∀ (b t : Bytes), b.length = 16 → t.length = 16 →
      xorBytes (p.D (xorBytes (xorBytes (p.E (xorBytes b t)) t) t)) t = b := by
    intro b t hb ht
    rw [xorBytes_cancel _ _ (by simp [hE, hb, ht]), hDE _ (by simp [hb, ht]), xorBytes_cancel _ _ (by simp [hb, ht])]
  generalize hcc : xorBytes (p.E (xorBytes pa s.tw)) s.tw = cc at h1
  have h2 : (pb ++ slice cc pb.length 16).length = 16 := by simp [h1]; omega
  refine ⟨xorBytes (p.E (xorBytes (pb ++ slice cc pb.length 16) (mulx s.tw))) (mulx s.tw), slice cc 0 pb.length,
    by simp only [xtsStealEnc, hcc], by simp [hE, h2, -List.length_append], by simp [h1]; omega, ?_⟩
  have hlen : (slice cc 0 pb.length).length = pb.length := by simp [h1]; omega
  simp only [xtsStealDec, hundo _ _ h2 (length_mulx _), hlen]
  have e1 : slice (pb ++ slice cc pb.length 16) pb.length 16 = slice cc pb.length 16 :=
    slice_end _ _ _ _ rfl (by simp [h1]; omega)
  have e2 : slice cc 0 pb.length ++ slice cc pb.length 16 = cc := by
    simp [slice, ← h1]
  have e3 : slice (pb ++ slice cc pb.length 16) 0 pb.length = pb := by simp [slice]
  rw [e1, e2, e3, ← hcc, hundo _ _ ha hs]

/-! ### CTS -/

theorem ctsBlocks_one (hk : 1 ≤ p.bs) : ctsBlocks p p.bs = 1 := by
  rw [ctsBlocks, ceilDiv, show p.bs + p.bs - 1 = p.bs + (p.bs - 1) by omega, Nat.add_div_left _ hk,
    Nat.div_eq_of_lt (by omega)]

theorem ctsBlocks_parts (hk : 1 ≤ p.bs) (n d : Nat) (hn : 2 ≤ n) (hd : 1 ≤ d) (hd' : d ≤ p.bs) :
    ctsBlocks p ((n - 2) * p.bs + p.bs + d) = n := by
  obtain ⟨m, rfl⟩ : ∃ m, n = m + 2 := ⟨n - 2, by omega⟩
  have e : (m + 2 - 2) * p.bs + p.bs + d + p.bs - 1 = (d - 1) + (m + 2) * p.bs := by
    rw [Nat.add_mul]
    have : m + 2 - 2 = m := by omega
    rw [this]; omega
  rw [ctsBlocks, ceilDiv, e, Nat.add_mul_div_right _ _ (by omega), Nat.div_eq_of_lt (by omega)]
  omega

theorem ctsLast_parts (hk : 1 ≤ p.bs) (n d : Nat) (hn : 2 ≤ n) (hd : 1 ≤ d) (hd' : d ≤ p.bs) :
    ctsLast p ((n - 2) * p.bs + p.bs + d) = d := by
  rw [ctsLast, ctsBlocks_parts hk n d hn hd hd']
  obtain ⟨m, rfl⟩ : ∃ m, n = m + 2 := ⟨n - 2, by omega⟩
  have : (m + 2 - 1) * p.bs = m * p.bs + p.bs := by
    rw [show m + 2 - 1 = m + 1 by omega, Nat.succ_mul]
  rw [this, show m + 2 - 2 = m by omega]
  omega

theorem ctsEncArm_one (hk : 1 ≤ p.bs) (s : State) (data : Bytes) (h : data.length = p.bs) :
    ctsEncArm p s data = (ctsDone p (baseEnc p s data).1, (baseEnc p s data).2) := by
  have e : slice data 0 p.bs = data := by simp [slice, ← h]
  simp only [ctsEncArm, h, ctsBlocks_one hk, if_true, e]

theorem ctsDecArm_one (hk : 1 ≤ p.bs) (s : State) (data : Bytes) (h : data.length = p.bs) :
    ctsDecArm p s data = (ctsDone p (baseDec p s data).1, (baseDec p s data).2) := by
  have e : slice data 0 p.bs = data := by simp [slice, ← h]
  simp only [ctsDecArm, h, ctsBlocks_one hk, if_true, e]

theorem ctsEncArm_parts (hk : 1 ≤ p.bs) (s : State) (n : Nat) (lead pa pb : Bytes) (hn : 2 ≤ n)
    (hl : lead.length = (n - 2) * p.bs) (ha : pa.length = p.bs) (hb : 1 ≤ pb.length) (hb' : pb.length ≤ p.bs) :
    ctsEncArm p s (lead ++ pa ++ pb) =
      (ctsDone p (ctsStealEnc p (fold (baseEnc p) s (chunks p.bs (n - 2) lead)).1 pa pb).1,
        (fold (baseEnc p) s (chunks p.bs (n - 2) lead)).2 ++
          (ctsStealEnc p (fold (baseEnc p) s (chunks p.bs (n - 2) lead)).1 pa pb).2) := by
  have hL : (lead ++ pa ++ pb).length = (n - 2) * p.bs + p.bs + pb.length := by simp [hl, ha]; omega
  have hN : ctsBlocks p (lead ++ pa ++ pb).length = n := by rw [hL]; exact ctsBlocks_parts hk n _ hn hb hb'
  have hmul : (n - 1) * p.bs = (n - 2) * p.bs + p.bs := by
    rw [show n - 1 = n - 2 + 1 by omega, Nat.succ_mul]
  have e1 : slice (lead ++ pa ++ pb) ((n - 2) * p.bs) ((n - 1) * p.bs) = pa := slice_mid _ _ _ _ _ hl (by omega)
  have e2 : slice (lead ++ pa ++ pb) ((n - 1) * p.bs) (lead ++ pa ++ pb).length = pb :=
    slice_end _ _ _ _ (by simp [hl, ha]; omega) (by simp [Nat.add_assoc])
  have e3 : chunks p.bs (n - 2) (lead ++ pa ++ pb) = chunks p.bs (n - 2) lead := by
    rw [List.append_assoc]; exact chunks_prefix _ _ _ _ hl
  simp only [ctsEncArm, hN, show n ≠ 1 by omega, if_false, e1, e2, e3]

theorem ctsDecArm_parts (hk : 1 ≤ p.bs) (s : State) (n d : Nat) (lead tail : Bytes) (hn : 2 ≤ n)
    (hl : lead.length = (n - 2) * p.bs) (ht : tail.length = p.bs + d) (hb : 1 ≤ d) (hb' : d ≤ p.bs) :
    ctsDecArm p s (lead ++ tail) =
      (ctsDone p (ctsStealDec p (fold (baseDec p) s (chunks p.bs (n - 2) lead)).1 d tail).1,
        (fold (baseDec p) s (chunks p.bs (n - 2) lead)).2 ++
          (ctsStealDec p (fold (baseDec p) s (chunks p.bs (n - 2) lead)).1 d tail).2) := by
  have hL : (lead ++ tail).length = (n - 2) * p.bs + p.bs + d := by simp [hl, ht]; omega
  have hN : ctsBlocks p (lead ++ tail).length = n := by rw [hL]; exact ctsBlocks_parts hk n _ hn hb hb'
  have hD : ctsLast p (lead ++ tail).length = d := by rw [hL]; exact ctsLast_parts hk n _ hn hb hb'
  have e2 : slice (lead ++ tail) ((n - 2) * p.bs) (lead ++ tail).length = tail :=
    slice_end _ _ _ _ hl (by simp)
  have e3 : chunks p.bs (n - 2) (lead ++ tail) = chunks p.bs (n - 2) lead := chunks_prefix _ _ _ _ hl
  simp only [ctsDecArm, hN, hD, show n ≠ 1 by omega, if_false, e2, e3]

theorem length_arrange (v : Variant) (d : Nat) (a b : Bytes) : (arrange p v d a b).length = a.length + b.length := by
  simp only [arrange]; split <;> simp [Nat.add_comm]

/-- The full block of R243 has a full block's length, as has the base transform's. -/
theorem ctsStealEnc_length (hv : p.Valid) (s : State) (pa pb : Bytes) (hi : s.Inv p)
    (hm : s.mode = .cbccts ∨ s.mode = .ecbcts) (ha : pa.length = p.bs) (hb : pb.length ≤ p.bs) :
    (ctsStealEnc p s pa pb).2.length = p.bs + pb.length := by
  have hx := (baseEnc_inv hv s pa hi hm ha).2
  simp only [ctsStealEnc, length_arrange, length_slice, hx]
  have : (if s.mode = .cbccts then p.E (xorBytes (pb ++ zeros (p.bs - pb.length)) (baseEnc p s pa).2)
      else p.E (pb ++ slice (baseEnc p s pa).2 pb.length p.bs)).length = p.bs := by
    split <;> exact hv.E_length _ (by simp [hx]; omega)
  rw [this]; omega

/-- R245: the last two blocks, given the short piece and the full block in R244's order. -/
theorem ctsStealDec_arrange (s : State) (d : Nat) (short full : Bytes) (hs : short.length = d) (hf : full.length = p.bs) :
    ctsStealDec p s d (arrange p s.variant d short full) =
      let z := p.D full
      let base := baseDec p s (short ++ slice z d p.bs)
      (base.1, base.2 ++ if s.mode = .cbccts then xorBytes (slice z 0 d) short else slice z 0 d) := by
  have e1 : shortFirst p s.variant d = true → slice (short ++ full) 0 d = short ∧ slice (short ++ full) d (d + p.bs) = full :=
    fun _ => ⟨by simp [slice, ← hs], slice_end _ _ _ _ hs (by omega)⟩
  have e2 : slice (full ++ short) p.bs (p.bs + d) = short ∧ slice (full ++ short) 0 p.bs = full :=
    ⟨slice_end _ _ _ _ hf (by omega), by simp [slice, ← hf]⟩
  cases h : shortFirst p s.variant d
  · simp [ctsStealDec, arrange, h, e2]
  · simp [ctsStealDec, arrange, h, e1 h]

theorem ctsStealDec_length (hv : p.Valid) (s : State) (d : Nat) (short full : Bytes) (hi : s.Inv p)
    (hm : s.mode = .cbccts ∨ s.mode = .ecbcts) (hs : short.length = d) (hf : full.length = p.bs) (hd : d ≤ p.bs) :
    (ctsStealDec p s d (arrange p s.variant d short full)).2.length = p.bs + d ∧
      (ctsStealDec p s d (arrange p s.variant d short full)).1.Inv p := by
  have hz := hv.D_length _ hf
  have hx := baseDec_inv hv s (short ++ slice (p.D full) d p.bs) hi hm (by simp [hz, hs]; omega)
  rw [ctsStealDec_arrange s d short full hs hf]
  refine ⟨?_, hx.1⟩
  simp only [List.length_append, hx.2]
  split <;> simp [hz, hs] <;> omega

/-- Any `BS + d` bytes are a short piece and a full block in R244's order. -/
theorem exists_arrange (v : Variant) (d : Nat) (tail : Bytes) (h : tail.length = p.bs + d) :
    ∃ short full, tail = arrange p v d short full ∧ short.length = d ∧ full.length = p.bs := by
  cases hf : shortFirst p v d
  · exact ⟨tail.drop p.bs, tail.take p.bs, by simp [arrange, hf], by simp [h], by simp [h]⟩
  · exact ⟨tail.take d, tail.drop d, by simp [arrange, hf], by simp [h], by simp [h]⟩

/-- R245: the last two blocks of DEC undo those of ENC. -/
theorem ctsSteal_undo (hv : p.Valid) (s : State) (pa pb : Bytes) (hi : s.Inv p)
    (hm : s.mode = .cbccts ∨ s.mode = .ecbcts) (ha : pa.length = p.bs) (hb : pb.length ≤ p.bs) :
    (ctsStealDec p s pb.length (ctsStealEnc p s pa pb).2).2 = pa ++ pb := by
  have hx := baseEnc_inv hv s pa hi hm ha
  have hxs := baseDec_enc hv s pa hi ha
  generalize hX : (baseEnc p s pa).2 = x at hx hxs
  have hcat : slice x 0 pb.length ++ slice x pb.length p.bs = x := by
    simp [slice, ← hx.2]
  have hlen : (slice x 0 pb.length).length = pb.length := by simp [hx.2]; omega
  simp only [ctsStealEnc, hX]
  split
  · rename_i hc
    have hy : (xorBytes (pb ++ zeros (p.bs - pb.length)) x).length = p.bs := by simp [hx.2]; omega
    rw [ctsStealDec_arrange s _ _ _ hlen (hv.E_length _ hy)]
    simp only [hc, if_true, hv.D_E _ hy]
    have e1 : slice (xorBytes (pb ++ zeros (p.bs - pb.length)) x) pb.length p.bs = slice x pb.length p.bs := by
      have h2 : x.length = p.bs := hx.2
      rw [slice, List.take_of_length_le (by omega), drop_xorBytes]
      have : (pb ++ zeros (p.bs - pb.length)).drop pb.length = zeros (x.drop pb.length).length := by simp [h2]
      rw [this]
      have hz : ∀ l : Bytes, xorBytes (zeros l.length) l = l := by
        intro l
        induction l with
        | nil => rfl
        | cons a l ih =>
          simp only [List.length_cons, zeros, List.replicate_succ, xorBytes_cons] at ih ⊢
          rw [ih]; simp
      rw [hz, slice, List.take_of_length_le (by omega)]
    have e2 : slice (xorBytes (pb ++ zeros (p.bs - pb.length)) x) 0 pb.length = xorBytes pb (slice x 0 pb.length) := by
      simp [slice, take_xorBytes]
    rw [e1, hcat, e2, xorBytes_cancel _ _ (by omega), hxs]
  · rename_i hc
    have hy : (pb ++ slice x pb.length p.bs).length = p.bs := by simp [hx.2]; omega
    rw [ctsStealDec_arrange s _ _ _ hlen (hv.E_length _ hy)]
    simp only [hc, if_false, hv.D_E _ hy]
    have e1 : slice (pb ++ slice x pb.length p.bs) pb.length p.bs = slice x pb.length p.bs :=
      slice_end _ _ _ _ rfl (by simp [hx.2]; omega)
    have e2 : slice (pb ++ slice x pb.length p.bs) 0 pb.length = pb := by simp [slice]
    rw [e1, hcat, e2, hxs]

end Sys2Proof.Machine
end

