-- ==== Sys2Proof/Laws/Transform.lean ====
section
/-! SUPPORT. The arms of ENC and DEC in every mode: they keep the invariant, return as many bytes as they take, and write only
registers that are live in the mode. -/

namespace Sys2Proof.Machine

variable {p : Params}

/-- A byte loop keeps what each byte keeps, and yields one byte for each. -/
theorem bytes_spec (f : State → Byte → State × Bytes) (m : Mode) (hmode : ∀ s b, (f s b).1.mode = s.mode)
    (hinv : ∀ s b, s.Inv p → s.mode = m → (f s b).1.Inv p) (hout : ∀ s b, (f s b).2.length = 1) (s : State) (data : Bytes)
    (hi : s.Inv p) (hm : s.mode = m) :
    (fold f s data).1.Inv p ∧ (fold f s data).2.length = data.length := by
  have h := fold_preserves f (fun t => t.Inv p ∧ t.mode = m) (fun _ => True)
    (fun t b h _ => ⟨hinv t b h.1 h.2, (hmode t b).trans h.2⟩) s data ⟨hi, hm⟩ fun _ _ => trivial
  have h' := fold_length f (fun _ => True) (fun _ => True) 1 (fun t b _ _ => ⟨trivial, hout t b⟩) s data trivial fun _ _ => trivial
  exact ⟨h.1, by simpa using h'⟩

/-- A block loop keeps what each block keeps, and yields a block for each. `frame` are further fields that stay. -/
theorem blocks_spec (f : State → Bytes → State × Bytes) (P : State → Prop) (k : Nat)
    (h : ∀ s b, P s → b.length = k → P (f s b).1 ∧ (f s b).2.length = k) (s : State) (data : Bytes) (n : Nat) (hs : P s)
    (hd : data.length = n * k) :
    P (fold f s (chunks k n data)).1 ∧ (fold f s (chunks k n data)).2.length = data.length := by
  have hQ := mem_chunks_length k n data (by omega)
  have h1 := fold_preserves f P (fun b => b.length = k) (fun t b ht hb => (h t b ht hb).1) s _ hs hQ
  have h2 := fold_length f P (fun b => b.length = k) k h s _ hs hQ
  exact ⟨h1, by rw [h2, length_chunks, hd]⟩

/-- R111: the length of whole pieces. -/
theorem div_mul_of_mod (a b : Nat) (h : a % b = 0) : a = a / b * b := (Nat.div_mul_cancel (Nat.dvd_of_mod_eq_zero h)).symm

theorem xtsArm_spec (block : State → Bytes → State × Bytes) (steal : State → Bytes → Bytes → State × Bytes)
    (hblock : ∀ s b, s.Inv p → s.mode = .xts → b.length = 16 → (block s b).1.Inv p ∧ (block s b).2.length = 16)
    (hmode : ∀ s b, (block s b).1.mode = s.mode)
    (hsteal : ∀ s a b, (steal s a b).1 = s.dropTw p)
    (hlen : ∀ s a b, s.tw.length = 16 → a.length = 16 → b.length ≤ 16 → (steal s a b).2.length = 16 + b.length)
    (s : State) (data : Bytes) (hi : s.Inv p) (hm : s.mode = .xts) (hd : 16 ≤ data.length) :
    (xtsArm block steal s data).1.Inv p ∧ (xtsArm block steal s data).2.length = data.length := by
  have hspec := blocks_spec block (fun t => t.Inv p ∧ t.mode = .xts) 16
    (fun t b h hb => ⟨⟨(hblock t b h.1 h.2 hb).1, (hmode t b).trans h.2⟩, (hblock t b h.1 h.2 hb).2⟩)
  by_cases hw : data.length % 16 = 0
  · rw [xtsArm_whole _ _ _ _ hw]
    have := hspec s data (data.length / 16) ⟨hi, hm⟩ (div_mul_of_mod _ _ hw)
    exact ⟨this.1.1, this.2⟩
  · obtain ⟨n, lead, pa, pb, rfl, hn, hl, ha, hb, hb'⟩ := exists_parts 16 (by decide) data (by omega)
    have hlt : pb.length < 16 := by
      simp only [List.length_append, hl, ha] at hw
      omega
    rw [xtsArm_parts _ _ _ (n - 2) lead pa pb hl ha hb hlt]
    have := hspec s lead (n - 2) ⟨hi, hm⟩ hl
    refine ⟨?_, ?_⟩
    · simp only [hsteal]
      exact this.1.1.dropTw this.1.2
    · simp only [List.length_append, this.2, hlen _ _ _ this.1.1.tw_length ha hb', ha]
      omega

theorem ctsDone_inv (s : State) (hi : s.Inv p) : (ctsDone p s).Inv p := by
  simp only [ctsDone]
  split
  · exact hi.dropIv (by simp [*, Mode.ivLive])
  · exact hi

theorem baseEnc_mode (s : State) (b : Bytes) : (baseEnc p s b).1.mode = s.mode := by
  rw [(baseEnc_frame s b).1]

theorem baseDec_mode (s : State) (b : Bytes) : (baseDec p s b).1.mode = s.mode := by
  rw [(baseDec_frame s b).1]

theorem ctsEncArm_spec (hv : p.Valid) (s : State) (data : Bytes) (hi : s.Inv p) (hm : s.mode = .cbccts ∨ s.mode = .ecbcts)
    (hd : p.bs ≤ data.length) : (ctsEncArm p s data).1.Inv p ∧ (ctsEncArm p s data).2.length = data.length := by
  by_cases hw : data.length = p.bs
  · rw [ctsEncArm_one hv.bs_pos _ _ hw]
    have := baseEnc_inv hv s data hi hm hw
    exact ⟨ctsDone_inv _ this.1, by rw [this.2, hw]⟩
  · obtain ⟨n, lead, pa, pb, rfl, hn, hl, ha, hb, hb'⟩ := exists_parts p.bs hv.bs_pos data (by omega)
    rw [ctsEncArm_parts hv.bs_pos s n lead pa pb hn hl ha hb hb']
    have := blocks_spec (baseEnc p) (fun t => t.Inv p ∧ (t.mode = .cbccts ∨ t.mode = .ecbcts)) p.bs
      (fun t b h hb => ⟨⟨(baseEnc_inv hv t b h.1 h.2 hb).1, by rw [baseEnc_mode]; exact h.2⟩, (baseEnc_inv hv t b h.1 h.2 hb).2⟩)
      s lead (n - 2) ⟨hi, hm⟩ hl
    exact ⟨ctsDone_inv _ (baseEnc_inv hv _ pa this.1.1 this.1.2 ha).1,
      by simp only [List.length_append, this.2, ctsStealEnc_length hv _ pa pb this.1.1 this.1.2 ha hb', ha]; omega⟩

theorem fold_baseDec_variant (s : State) (as : List Bytes) : (fold (baseDec p) s as).1.variant = s.variant :=
  fold_frame (baseDec p) State.variant (fun t b => by rw [(baseDec_frame t b).1]) s as

theorem fold_baseEnc_variant (s : State) (as : List Bytes) : (fold (baseEnc p) s as).1.variant = s.variant :=
  fold_frame (baseEnc p) State.variant (fun t b => by rw [(baseEnc_frame t b).1]) s as

theorem ctsDecArm_spec (hv : p.Valid) (s : State) (data : Bytes) (hi : s.Inv p) (hm : s.mode = .cbccts ∨ s.mode = .ecbcts)
    (hd : p.bs ≤ data.length) : (ctsDecArm p s data).1.Inv p ∧ (ctsDecArm p s data).2.length = data.length := by
  by_cases hw : data.length = p.bs
  · rw [ctsDecArm_one hv.bs_pos _ _ hw]
    have := baseDec_inv hv s data hi hm hw
    exact ⟨ctsDone_inv _ this.1, by rw [this.2, hw]⟩
  · obtain ⟨n, lead, pa, pb, rfl, hn, hl, ha, hb, hb'⟩ := exists_parts p.bs hv.bs_pos data (by omega)
    rw [List.append_assoc]
    have ht : (pa ++ pb).length = p.bs + pb.length := by simp [ha]
    rw [ctsDecArm_parts hv.bs_pos s n pb.length lead _ hn hl ht hb hb']
    have h1 := blocks_spec (baseDec p) (fun t => t.Inv p ∧ (t.mode = .cbccts ∨ t.mode = .ecbcts)) p.bs
      (fun t b h hb => ⟨⟨(baseDec_inv hv t b h.1 h.2 hb).1, by rw [baseDec_mode]; exact h.2⟩, (baseDec_inv hv t b h.1 h.2 hb).2⟩)
      s lead (n - 2) ⟨hi, hm⟩ hl
    obtain ⟨short, full, he, hs, hf⟩ := exists_arrange (p := p) (fold (baseDec p) s (chunks p.bs (n - 2) lead)).1.variant
      pb.length _ ht
    rw [he]
    have h2 := ctsStealDec_length hv _ pb.length short full h1.1.1 h1.1.2 hs hf hb'
    refine ⟨ctsDone_inv _ h2.2, ?_⟩
    simp only [List.length_append, h1.2, h2.1, length_arrange, hs, hf]
    omega

theorem encArm_spec (hv : p.Valid) (s : State) (data : Bytes) (hi : s.Inv p) (hm : s.mode ≠ .none)
    (hl : lenOk p s data.length = true) : (encArm p s data).1.Inv p ∧ (encArm p s data).2.length = data.length := by
  have hblk : ∀ (m : Mode) (f : State → Bytes → State × Bytes),
      (∀ t b, t.Inv p → t.mode = m → b.length = p.bs → (f t b).1.Inv p ∧ (f t b).2.length = p.bs) →
      (∀ t b, (f t b).1.mode = t.mode) → s.mode = m → data.length % p.bs = 0 →
      (fold f s (chunks p.bs (data.length / p.bs) data)).1.Inv p ∧
        (fold f s (chunks p.bs (data.length / p.bs) data)).2.length = data.length := by
    intro m f hf hmode hs hd
    have := blocks_spec f (fun t => t.Inv p ∧ t.mode = m) p.bs
      (fun t b h hb => ⟨⟨(hf t b h.1 h.2 hb).1, (hmode t b).trans h.2⟩, (hf t b h.1 h.2 hb).2⟩) s data (data.length / p.bs)
      ⟨hi, hs⟩ (div_mul_of_mod _ _ hd)
    exact ⟨this.1.1, this.2⟩
  cases h : s.mode <;> simp only [lenOk, h, decide_eq_true_eq] at hl <;> simp only [encArm, h]
  · exact absurd h hm
  · exact bytes_spec _ .ctr (fun t b => by rw [ctrByte_frame]) (fun t b => ctrByte_inv hv t b) (fun _ _ => rfl) s data hi h
  · exact hblk .cbc _ (fun t b h1 h2 h3 => cbcEncBlock_inv hv t b h1 (by simp [h2, Mode.ivLive]) h3) (fun _ _ => rfl) h hl
  · exact bytes_spec _ .cfb (fun t b => by rw [cfbEncByte, cfbFeed_frame]) (fun t b => cfbFeed_inv hv t _) (fun _ _ => rfl) s
      data hi h
  · exact bytes_spec _ .cfb8 (fun _ _ => rfl)
      (fun t b h1 h2 => shiftIn_inv t _ h1 (by simp [h2, Mode.ivLive]) (by simpa using hv.bs_pos)) (fun _ _ => rfl) s data hi h
  · have := blocks_spec (cfbsEncSeg p) (fun t => t.Inv p ∧ t.mode = .cfbs ∧ t.seg.toNat = s.seg.toNat) s.seg.toNat
      (fun t b h hb => by
        have := cfbsEncSeg_inv hv t b h.1 h.2.1 (hb.trans h.2.2.symm)
        exact ⟨⟨this.1, h.2.1, h.2.2⟩, this.2.trans h.2.2⟩) s data (data.length / s.seg.toNat) ⟨hi, h, rfl⟩ (div_mul_of_mod _ _ hl)
    exact ⟨this.1.1, this.2⟩
  · exact bytes_spec _ .ofb (fun t b => by rw [ofbByte_frame]) (fun t b => ofbByte_inv hv t b) (fun _ _ => rfl) s data hi h
  · exact hblk .pcbc _ (fun t b h1 h2 h3 => pcbcEncBlock_inv hv t b h1 (by simp [h2, Mode.ivLive]) h3) (fun _ _ => rfl) h hl
  · exact hblk .ige _ (fun t b => igeEncBlock_inv hv t b) (fun _ _ => rfl) h hl
  · have hbs := hi.xts_bs h
    exact xtsArm_spec _ _ (xtsEncBlock_inv hv) (fun _ _ => rfl) (fun _ _ _ => rfl) (xtsStealEnc_length hv hbs) s data hi h
      (by omega)
  · exact ctsEncArm_spec hv s data hi (by simp [h]) hl
  · exact ctsEncArm_spec hv s data hi (by simp [h]) hl

theorem decArm_spec (hv : p.Valid) (s : State) (data : Bytes) (hi : s.Inv p) (hm : s.mode ≠ .none)
    (hl : lenOk p s data.length = true) : (decArm p s data).1.Inv p ∧ (decArm p s data).2.length = data.length := by
  have hblk : ∀ (m : Mode) (f : State → Bytes → State × Bytes),
      (∀ t b, t.Inv p → t.mode = m → b.length = p.bs → (f t b).1.Inv p ∧ (f t b).2.length = p.bs) →
      (∀ t b, (f t b).1.mode = t.mode) → s.mode = m → data.length % p.bs = 0 →
      (fold f s (chunks p.bs (data.length / p.bs) data)).1.Inv p ∧
        (fold f s (chunks p.bs (data.length / p.bs) data)).2.length = data.length := by
    intro m f hf hmode hs hd
    have := blocks_spec f (fun t => t.Inv p ∧ t.mode = m) p.bs
      (fun t b h hb => ⟨⟨(hf t b h.1 h.2 hb).1, (hmode t b).trans h.2⟩, (hf t b h.1 h.2 hb).2⟩) s data (data.length / p.bs)
      ⟨hi, hs⟩ (div_mul_of_mod _ _ hd)
    exact ⟨this.1.1, this.2⟩
  cases h : s.mode <;> simp only [lenOk, h, decide_eq_true_eq] at hl <;> simp only [decArm, h]
  · exact absurd h hm
  · exact bytes_spec _ .ctr (fun t b => by rw [ctrByte_frame]) (fun t b => ctrByte_inv hv t b) (fun _ _ => rfl) s data hi h
  · exact hblk .cbc _ (fun t b h1 h2 h3 => cbcDecBlock_inv hv t b h1 (by simp [h2, Mode.ivLive]) h3) (fun _ _ => rfl) h hl
  · exact bytes_spec _ .cfb (fun t b => by rw [cfbDecByte, cfbFeed_frame]) (fun t b => cfbFeed_inv hv t _) (fun _ _ => rfl) s
      data hi h
  · exact bytes_spec _ .cfb8 (fun _ _ => rfl)
      (fun t b h1 h2 => shiftIn_inv t _ h1 (by simp [h2, Mode.ivLive]) (by simpa using hv.bs_pos)) (fun _ _ => rfl) s data hi h
  · have := blocks_spec (cfbsDecSeg p) (fun t => t.Inv p ∧ t.mode = .cfbs ∧ t.seg.toNat = s.seg.toNat) s.seg.toNat
      (fun t b h hb => by
        have := cfbsDecSeg_inv hv t b h.1 h.2.1 (hb.trans h.2.2.symm)
        exact ⟨⟨this.1, h.2.1, h.2.2⟩, this.2.trans h.2.2⟩) s data (data.length / s.seg.toNat) ⟨hi, h, rfl⟩ (div_mul_of_mod _ _ hl)
    exact ⟨this.1.1, this.2⟩
  · exact bytes_spec _ .ofb (fun t b => by rw [ofbByte_frame]) (fun t b => ofbByte_inv hv t b) (fun _ _ => rfl) s data hi h
  · exact hblk .pcbc _ (fun t b h1 h2 h3 => pcbcDecBlock_inv hv t b h1 (by simp [h2, Mode.ivLive]) h3) (fun _ _ => rfl) h hl
  · exact hblk .ige _ (fun t b => igeDecBlock_inv hv t b) (fun _ _ => rfl) h hl
  · have hbs := hi.xts_bs h
    exact xtsArm_spec _ _ (xtsDecBlock_inv hv) (fun _ _ => rfl) (fun _ _ _ => rfl) (xtsStealDec_length hv hbs) s data hi h
      (by omega)
  · exact ctsDecArm_spec hv s data hi (by simp [h]) hl
  · exact ctsDecArm_spec hv s data hi (by simp [h]) hl

/-! ### Frames, in any state -/

theorem fold_iv_frame {α : Type} (f : State → α → State × Bytes) (h : ∀ s a, (f s a).1 = { s with iv := (f s a).1.iv })
    (s : State) (as : List α) : (fold f s as).1 = { s with iv := (fold f s as).1.iv } :=
  fold_rel f (fun s t => t = { s with iv := t.iv }) (fun _ => rfl)
    (fun s t u h1 h2 => by rw [h2, h1]) (fun s a => h s a) s as

theorem fold_tw_frame {α : Type} (f : State → α → State × Bytes) (h : ∀ s a, (f s a).1 = { s with tw := (f s a).1.tw })
    (s : State) (as : List α) : (fold f s as).1 = { s with tw := (fold f s as).1.tw } :=
  fold_rel f (fun s t => t = { s with tw := t.tw }) (fun _ => rfl)
    (fun s t u h1 h2 => by rw [h2, h1]) (fun s a => h s a) s as

theorem fold_xy_frame {α : Type} (f : State → α → State × Bytes)
    (h : ∀ s a, (f s a).1 = { s with x := (f s a).1.x, y := (f s a).1.y })
    (s : State) (as : List α) : (fold f s as).1 = { s with x := (fold f s as).1.x, y := (fold f s as).1.y } :=
  fold_rel f (fun s t => t = { s with x := t.x, y := t.y }) (fun _ => rfl)
    (fun s t u h1 h2 => by rw [h2, h1]) (fun s a => h s a) s as

theorem fold_fb_frame {α : Type} (f : State → α → State × Bytes)
    (h : ∀ s a, (f s a).1 = { s with fb := (f s a).1.fb, pos := (f s a).1.pos })
    (s : State) (as : List α) : (fold f s as).1 = { s with fb := (fold f s as).1.fb, pos := (fold f s as).1.pos } :=
  fold_rel f (fun s t => t = { s with fb := t.fb, pos := t.pos }) (fun _ => rfl)
    (fun s t u h1 h2 => by rw [h2, h1]) (fun s a => h s a) s as

theorem fold_ofb_frame {α : Type} (f : State → α → State × Bytes)
    (h : ∀ s a, (f s a).1 = { s with iv := (f s a).1.iv, pos := (f s a).1.pos })
    (s : State) (as : List α) : (fold f s as).1 = { s with iv := (fold f s as).1.iv, pos := (fold f s as).1.pos } :=
  fold_rel f (fun s t => t = { s with iv := t.iv, pos := t.pos }) (fun _ => rfl)
    (fun s t u h1 h2 => by rw [h2, h1]) (fun s a => h s a) s as

theorem fold_ctr_frame {α : Type} (f : State → α → State × Bytes)
    (h : ∀ s a, (f s a).1 = { s with pos := (f s a).1.pos, ctr := (f s a).1.ctr, ksbuf := (f s a).1.ksbuf })
    (s : State) (as : List α) :
    (fold f s as).1 = { s with pos := (fold f s as).1.pos, ctr := (fold f s as).1.ctr, ksbuf := (fold f s as).1.ksbuf } :=
  fold_rel f (fun s t => t = { s with pos := t.pos, ctr := t.ctr, ksbuf := t.ksbuf }) (fun _ => rfl)
    (fun s t u h1 h2 => by rw [h2, h1]) (fun s a => h s a) s as

theorem xtsArm_frame (block : State → Bytes → State × Bytes) (steal : State → Bytes → Bytes → State × Bytes)
    (hblock : ∀ s b, (block s b).1 = { s with tw := (block s b).1.tw })
    (hsteal : ∀ s a b, (steal s a b).1 = s.dropTw p) (s : State) (data : Bytes) :
    (xtsArm block steal s data).1 =
      { s with tw := (xtsArm block steal s data).1.tw, draws := (xtsArm block steal s data).1.draws } := by
  have hf := fold_tw_frame block hblock s (chunks 16 (xtsPlainBlocks data.length) data)
  simp only [xtsArm]
  split
  · rw [hf]
  · simp only [hsteal]
    rw [hf]; rfl

/-- Only `IV`, and the count of draws, in CBCCTS; nothing in ECBCTS. -/
def CtsFrame (s t : State) : Prop :=
  t = { s with iv := t.iv, draws := t.draws } ∧ (s.mode ≠ .cbccts → t = s)

theorem ctsDone_frame (s : State) : CtsFrame s (ctsDone p s) := by
  simp only [ctsDone]; split <;> simp_all [CtsFrame, State.dropIv]

theorem CtsFrame.trans {s t u : State} (h1 : CtsFrame s t) (h2 : CtsFrame t u) : CtsFrame s u := by
  have hm : t.mode = s.mode := by rw [h1.1]
  refine ⟨by rw [h2.1, h1.1], fun h => ?_⟩
  rw [h2.2 (by rwa [hm]), h1.2 h]

theorem fold_base_frame (f : State → Bytes → State × Bytes)
    (h : ∀ s b, (f s b).1 = { s with iv := (f s b).1.iv } ∧ (s.mode ≠ .cbccts → (f s b).1 = s)) (s : State) (as : List Bytes) :
    CtsFrame s (fold f s as).1 :=
  fold_rel f CtsFrame (fun _ => ⟨rfl, fun _ => rfl⟩) (fun _ _ _ => CtsFrame.trans)
    (fun s a => ⟨by rw [(h s a).1], (h s a).2⟩) s as

theorem baseEnc_cts (s : State) (b : Bytes) : CtsFrame s (baseEnc p s b).1 :=
  ⟨by rw [(baseEnc_frame s b).1], (baseEnc_frame s b).2⟩

theorem baseDec_cts (s : State) (b : Bytes) : CtsFrame s (baseDec p s b).1 :=
  ⟨by rw [(baseDec_frame s b).1], (baseDec_frame s b).2⟩

theorem ctsEncArm_frame (s : State) (data : Bytes) : CtsFrame s (ctsEncArm p s data).1 := by
  simp only [ctsEncArm]
  split
  · exact (baseEnc_cts s _).trans (ctsDone_frame _)
  · exact ((fold_base_frame _ baseEnc_frame s _).trans (baseEnc_cts _ _)).trans (ctsDone_frame _)

theorem ctsDecArm_frame (s : State) (data : Bytes) : CtsFrame s (ctsDecArm p s data).1 := by
  simp only [ctsDecArm]
  split
  · exact (baseDec_cts s _).trans (ctsDone_frame _)
  · exact ((fold_base_frame _ baseDec_frame s _).trans (baseDec_cts _ _)).trans (ctsDone_frame _)

theorem encArm_frame (s : State) (data : Bytes) : ArmFrame s (encArm p s data).1 := by
  cases h : s.mode <;> simp only [ArmFrame, encArm, h]
  · exact rfl
  · exact fold_ctr_frame (ctrByte p) ctrByte_frame s data
  · exact fold_iv_frame (cbcEncBlock p) (fun _ _ => rfl) s _
  · exact fold_fb_frame (cfbEncByte p) (fun s b => cfbFeed_frame s _) s data
  · exact fold_iv_frame (cfb8EncByte p) (fun _ _ => rfl) s data
  · exact fold_iv_frame (cfbsEncSeg p) (fun _ _ => rfl) s _
  · exact fold_ofb_frame (ofbByte p) ofbByte_frame s data
  · exact fold_iv_frame (pcbcEncBlock p) (fun _ _ => rfl) s _
  · exact fold_xy_frame (igeEncBlock p) (fun _ _ => rfl) s _
  · exact xtsArm_frame (p := p) (xtsEncBlock p) (xtsStealEnc p) (fun _ _ => rfl) (fun _ _ _ => rfl) s data
  · exact (ctsEncArm_frame s data).1
  · exact (ctsEncArm_frame s data).2 (by simp [h])

theorem decArm_frame (s : State) (data : Bytes) : ArmFrame s (decArm p s data).1 := by
  cases h : s.mode <;> simp only [ArmFrame, decArm, h]
  · exact rfl
  · exact fold_ctr_frame (ctrByte p) ctrByte_frame s data
  · exact fold_iv_frame (cbcDecBlock p) (fun _ _ => rfl) s _
  · exact fold_fb_frame (cfbDecByte p) (fun s b => cfbFeed_frame s _) s data
  · exact fold_iv_frame (cfb8DecByte p) (fun _ _ => rfl) s data
  · exact fold_iv_frame (cfbsDecSeg p) (fun _ _ => rfl) s _
  · exact fold_ofb_frame (ofbByte p) ofbByte_frame s data
  · exact fold_iv_frame (pcbcDecBlock p) (fun _ _ => rfl) s _
  · exact fold_xy_frame (igeDecBlock p) (fun _ _ => rfl) s _
  · exact xtsArm_frame (p := p) (xtsDecBlock p) (xtsStealDec p) (fun _ _ => rfl) (fun _ _ _ => rfl) s data
  · exact (ctsDecArm_frame s data).1
  · exact (ctsDecArm_frame s data).2 (by simp [h])

end Sys2Proof.Machine
end

