-- ==== Sys2Proof/Laws/Step.lean ====
section
/-! SUPPORT. What a step and each kind of command can do. -/

namespace Sys2Proof.Machine

variable {p : Params}

/-! ### A step -/

theorem stepWith_idle (run : Instr → State → Host.Outcome State Fault Refusal) (s : State) (h : s.pending = []) :
    stepWith run p s = .next s := by simp [stepWith, State.take, h]

theorem stepWith_receive (run : Instr → State → Host.Outcome State Fault Refusal) (s : State) (rest : List HostEvent)
    (h : s.pending = .receive :: rest) : stepWith run p s = .next (State.receive { s with pending := rest }) := by
  simp [stepWith, State.take, h]

theorem stepWith_reset (run : Instr → State → Host.Outcome State Fault Refusal) (s : State) (ip : Option Packet)
    (rest : List HostEvent) (h : s.pending = .reset ip :: rest) (hr : ip = none ∨ s.resp = none) :
    stepWith run p s = .next (State.hardReset { s with pending := rest } p) := by
  cases ip with
  | none => simp [stepWith, State.take, h]
  | some k =>
    have hr : s.resp = none := hr.resolve_left nofun
    simp [stepWith, State.take, h, hr]

/-- R57: a command issued, or being issued when a reset arrives, before the previous response is received. -/
theorem stepWith_early (run : Instr → State → Host.Outcome State Fault Refusal) (s : State) (k : Packet)
    (rest : List HostEvent) (h : s.pending = .command k :: rest ∨ s.pending = .reset (some k) :: rest) (hr : s.resp ≠ none) :
    stepWith run p s = .refused .earlyCommand := by
  obtain ⟨r, hr⟩ := Option.ne_none_iff_exists'.mp hr
  rcases h with h | h <;> simp [stepWith, State.take, h, hr]

theorem stepWith_command (run : Instr → State → Host.Outcome State Fault Refusal) (s : State) (k : Packet) (i : Instr)
    (rest : List HostEvent) (h : s.pending = .command k :: rest) (hr : s.resp = none) (hk : decode k = .ok i) :
    stepWith run p s = run i { s with pending := rest } := by simp [stepWith, State.take, h, hr, hk]

theorem stepWith_error (run : Instr → State → Host.Outcome State Fault Refusal) (s : State) (k : Packet) (e : DecodeError)
    (rest : List HostEvent) (h : s.pending = .command k :: rest) (hr : s.resp = none) (hk : decode k = .error e) :
    stepWith run p s = answerUndecoded e { s with pending := rest } := by simp [stepWith, State.take, h, hr, hk]

/-- A framed packet whose word is no row of the table is answered `IllegalCommand`. -/
theorem stepWith_noRow (run : Instr → State → Host.Outcome State Fault Refusal) (s : State) (w : Word) (ws : List Word)
    (bytes : Bytes) (rest : List HostEvent) (h : s.pending = .command ⟨w :: ws, bytes⟩ :: rest) (hp : s.resp = none)
    (hf : Packet.WellFramed ⟨w :: ws, bytes⟩) (hr : decodeRow w ws bytes = none) :
    stepWith run p s = .next { s with pending := rest, resp := some ⟨3, []⟩ } := by
  have hd : decode ⟨w :: ws, bytes⟩ = .error (if opcodeAssigned w then .reservedField else .reservedOpcode) := by
    rw [decode_framed w ws bytes hf, hr]
  rw [stepWith_error run s _ _ rest h hp hd]
  split <;> rfl

/-- A command issued in its time: it runs, or its word is illegal, or its packet is malformed. -/
theorem stepWith_command_cases (run : Instr → State → Host.Outcome State Fault Refusal) (s : State) (k : Packet)
    (rest : List HostEvent) (h : s.pending = .command k :: rest) (hr : s.resp = none) :
    (∃ i, decode k = .ok i ∧ stepWith run p s = run i { s with pending := rest }) ∨
    (k.WellFramed ∧ stepWith run p s = .next (State.raise { s with pending := rest } .illegalCommand)) ∨
    (¬ k.WellFramed ∧ stepWith run p s = .refused .malformedPacket) := by
  cases hk : decode k with
  | ok i => exact .inl ⟨i, rfl, stepWith_command run s k i rest h hr hk⟩
  | error e =>
    have hs := stepWith_error (p := p) run s k e rest h hr hk
    by_cases hw : k.WellFramed
    · refine .inr (.inl ⟨hw, ?_⟩)
      have : e = .reservedOpcode ∨ e = .reservedField := by
        by_contra hne
        rw [not_or] at hne
        exact (decode_malformed_iff k).mp ⟨e, hk, hne⟩ hw
      rcases this with rfl | rfl <;> exact hs
    · refine .inr (.inr ⟨hw, ?_⟩)
      obtain ⟨e', he', h1, h2⟩ := (decode_malformed_iff k).mpr hw
      rw [hk] at he'
      cases he'
      cases e <;> first | exact hs | exact absurd rfl h1 | exact absurd rfl h2

/-- Everything a step can be. -/
theorem stepWith_cases (run : Instr → State → Host.Outcome State Fault Refusal) (s : State) :
    (s.pending = [] ∧ stepWith run p s = .next s) ∨
    (∃ rest, s.pending = .receive :: rest ∧ stepWith run p s = .next (State.receive { s with pending := rest })) ∨
    (∃ ip rest, s.pending = .reset ip :: rest ∧ (ip = none ∨ s.resp = none) ∧
      stepWith run p s = .next (State.hardReset { s with pending := rest } p)) ∨
    (∃ k rest i, s.pending = .command k :: rest ∧ s.resp = none ∧ decode k = .ok i ∧
      stepWith run p s = run i { s with pending := rest }) ∨
    (∃ k rest, s.pending = .command k :: rest ∧ s.resp = none ∧ k.WellFramed ∧
      stepWith run p s = .next (State.raise { s with pending := rest } .illegalCommand)) ∨
    (∃ k rest, s.pending = .command k :: rest ∧ s.resp = none ∧ ¬ k.WellFramed ∧
      stepWith run p s = .refused .malformedPacket) ∨
    (∃ k rest, (s.pending = .command k :: rest ∨ s.pending = .reset (some k) :: rest) ∧ s.resp ≠ none ∧
      stepWith run p s = .refused .earlyCommand) := by
  rcases h : s.pending with _ | ⟨k | _ | ip, rest⟩
  · exact .inl ⟨rfl, stepWith_idle run s h⟩
  · by_cases hr : s.resp = none
    · rcases stepWith_command_cases (p := p) run s k rest h hr with ⟨i, hk, e⟩ | ⟨hw, e⟩ | ⟨hw, e⟩
      · exact .inr (.inr (.inr (.inl ⟨k, rest, i, rfl, hr, hk, e⟩)))
      · exact .inr (.inr (.inr (.inr (.inl ⟨k, rest, rfl, hr, hw, e⟩))))
      · exact .inr (.inr (.inr (.inr (.inr (.inl ⟨k, rest, rfl, hr, hw, e⟩)))))
    · exact .inr (.inr (.inr (.inr (.inr (.inr ⟨k, rest, .inl rfl, hr, stepWith_early run s k rest (.inl h) hr⟩)))))
  · exact .inr (.inl ⟨rest, rfl, stepWith_receive run s rest h⟩)
  · by_cases hr : ip = none ∨ s.resp = none
    · exact .inr (.inr (.inl ⟨ip, rest, rfl, hr, stepWith_reset run s ip rest h hr⟩))
    · rw [not_or] at hr
      obtain ⟨k, rfl⟩ := Option.ne_none_iff_exists'.mp hr.1
      exact .inr (.inr (.inr (.inr (.inr (.inr ⟨k, rest, .inr rfl, hr.2, stepWith_early run s k rest (.inr h) hr.2⟩)))))

/-- A word that matches no row is illegal, however its packet goes on. -/
theorem illegalWord_of_noRow (w : Word) (h : ∀ ws bytes, decodeRow w ws bytes = none) : IllegalWord w :=
  fun s ws bytes rest hf hr hp => stepWith_noRow exec s w ws bytes rest hp hr hf (h ws bytes)

/-- INIT words with a field that must be zero (30_encoding.md R84). -/
theorem initFieldsMustBeZero (mode : Nat) (h1 : mode ≠ 1) (h2 : mode ≠ 5) (h3 : mode ≠ 10) (h4 : mode ≠ 11) :
    InitFieldsMustBeZero mode := by
  intro w ho hm hf
  refine illegalWord_of_noRow w fun ws bytes => ?_
  simp only [decodeRow, ho]
  unfold decodeInit
  split <;> first | omega | rfl

/-! ### INIT, LDST, ENC and DEC -/

/-- Everything INIT can be. -/
theorem initWith_cases (mode : Mode) (runnable : Bool) (pay : Bytes) (arm : State → State) (s : State) :
    (runnable = false ∧ initWith p mode runnable pay arm s = .next (s.raise .illegalCommand)) ∨
    (runnable = true ∧ pay.length ≠ ivLen p mode ∧ initWith p mode runnable pay arm s = .next (s.raise .constructionError)) ∨
    (runnable = true ∧ pay.length = ivLen p mode ∧
      initWith p mode runnable pay arm s = .next ((arm { s.clear p with mode := mode }).finish [])) := by
  simp only [initWith]
  by_cases h1 : runnable = false
  · simp [h1]
  · by_cases h2 : pay.length = ivLen p mode <;> simp_all

/-- Everything LDST can be. -/
theorem loadWith_cases (mode : Mode) (runnable : Bool) (pay : Bytes) (load : State → Bytes → Byte → State) (s : State) :
    (runnable = false ∧ loadWith p mode runnable pay load s = .next (s.raise .illegalCommand)) ∨
    (runnable = true ∧ (pay.length ≠ stLen p mode + 1 ∨ sposOk p mode (pay.getD (stLen p mode) 0) = false) ∧
      loadWith p mode runnable pay load s = .next (s.raise .constructionError)) ∨
    (runnable = true ∧ pay.length = stLen p mode + 1 ∧ sposOk p mode (pay.getD (stLen p mode) 0) = true ∧
      loadWith p mode runnable pay load s =
        .next ((load { s.clear p with mode := mode } (slice pay 0 (stLen p mode)) (pay.getD (stLen p mode) 0)).finish [])) := by
  simp only [loadWith]
  by_cases h1 : runnable = false
  · simp [h1]
  · by_cases h2 : pay.length = stLen p mode + 1
    · cases h3 : sposOk p mode (pay.getD (stLen p mode) 0) <;> simp_all
    · simp_all

/-- Everything ENC and DEC can be. -/
theorem transformWith_cases (arm : State → Bytes → State × Bytes) (olen : Word) (data : Bytes) (s : State) :
    (s.mode = .none ∧ transformWith p arm olen data s = .next (s.raise .illegalCommand)) ∨
    (s.mode ≠ .none ∧ (olen.toNat ≠ data.length ∨ lenOk p s data.length = false) ∧
      transformWith p arm olen data s = .next (s.raise .lengthError)) ∨
    (s.mode ≠ .none ∧ olen.toNat = data.length ∧ lenOk p s data.length = true ∧
      transformWith p arm olen data s = .next ((arm s data).1.finish (arm s data).2)) := by
  simp only [transformWith]
  by_cases h1 : s.mode = .none
  · simp [h1]
  · by_cases h2 : olen.toNat = data.length
    · cases h3 : lenOk p s data.length <;> simp_all
    · simp_all

theorem transformWith_ok (arm : State → Bytes → State × Bytes) (olen : Word) (data : Bytes) (s : State)
    (hm : s.mode ≠ .none) (ho : olen.toNat = data.length) (hl : lenOk p s data.length = true) :
    transformWith p arm olen data s = .next ((arm s data).1.finish (arm s data).2) := by
  simp [transformWith, hm, ho, hl]

/-! ### The common part of the INIT and LDST arms keeps the invariant -/

/-- Clearing, then setting the mode and one chaining register. -/
theorem inv_clear_iv (hv : p.Valid) (s : State) (m : Mode) (hm : m = .cbc ∨ m = .cfb8 ∨ m = .pcbc) (v : Bytes)
    (h : v.length = p.bs) : State.Inv { s.clear p with mode := m, iv := v } p := by
  rcases hm with rfl | rfl | rfl <;>
    exact { State.Inv.clear (s := s) hv with
      iv_length := h, ctr_supported := by simp, ctr_dead := by simp, pos_dead := by simp, seg_range := by simp,
      seg_dead := by simp, variant_range := by simp [Mode.variantLive], variant_dead := by simp,
      iv_dead := by simp [Mode.ivLive], fb_dead := by simp, xy_dead := by simp, tw_dead := by simp, xts_bs := by simp,
      ksbuf_is_keystream := by simp }

theorem inv_clear_ofb (hv : p.Valid) (s : State) (v : Bytes) (h : v.length = p.bs) (q : Byte) (hq : q.toNat < p.bs) :
    State.Inv { s.clear p with mode := .ofb, iv := v, pos := q } p :=
  { State.Inv.clear (s := s) hv with
    iv_length := h, pos_lt := hq, ctr_supported := by simp, ctr_dead := by simp, pos_dead := by simp [Mode.posLive],
    seg_range := by simp,
    seg_dead := by simp, variant_range := by simp [Mode.variantLive], variant_dead := by simp,
    iv_dead := by simp [Mode.ivLive], fb_dead := by simp, xy_dead := by simp, tw_dead := by simp, xts_bs := by simp,
    ksbuf_is_keystream := by simp }

theorem inv_clear_cfb (hv : p.Valid) (s : State) (v : Bytes) (h : v.length = p.bs) (q : Byte) (hq : q.toNat < p.bs) :
    State.Inv { s.clear p with mode := .cfb, fb := v, pos := q } p :=
  { State.Inv.clear (s := s) hv with
    fb_length := h, pos_lt := hq, ctr_supported := by simp, ctr_dead := by simp, pos_dead := by simp [Mode.posLive],
    seg_range := by simp,
    seg_dead := by simp, variant_range := by simp [Mode.variantLive], variant_dead := by simp,
    iv_dead := by simp, fb_dead := by simp, xy_dead := by simp, tw_dead := by simp, xts_bs := by simp,
    ksbuf_is_keystream := by simp }

theorem inv_clear_cfbs (hv : p.Valid) (s : State) (v : Bytes) (h : v.length = p.bs) (seg : Byte)
    (hs : segInRange p seg = true) : State.Inv { s.clear p with mode := .cfbs, seg := seg, iv := v } p := by
  simp only [segInRange, decide_eq_true_eq] at hs
  exact { State.Inv.clear (s := s) hv with
    iv_length := h, ctr_supported := by simp, ctr_dead := by simp, pos_dead := by simp,
    seg_range := fun _ => hs,
    seg_dead := by simp, variant_range := by simp [Mode.variantLive], variant_dead := by simp,
    iv_dead := by simp [Mode.ivLive], fb_dead := by simp, xy_dead := by simp, tw_dead := by simp, xts_bs := by simp,
    ksbuf_is_keystream := by simp }

theorem inv_clear_ige (hv : p.Valid) (s : State) (x y : Bytes) (hx : x.length = p.bs) (hy : y.length = p.bs) :
    State.Inv { s.clear p with mode := .ige, x := x, y := y } p :=
  { State.Inv.clear (s := s) hv with
    x_length := hx, y_length := hy, ctr_supported := by simp, ctr_dead := by simp, pos_dead := by simp, seg_range := by simp,
    seg_dead := by simp, variant_range := by simp [Mode.variantLive], variant_dead := by simp,
    iv_dead := by simp, fb_dead := by simp, xy_dead := by simp, tw_dead := by simp, xts_bs := by simp,
    ksbuf_is_keystream := by simp }

theorem inv_clear_xts (hv : p.Valid) (hbs : p.bs = 16) (s : State) (v : Bytes) (h : v.length = 16) :
    State.Inv { s.clear p with mode := .xts, tw := v } p :=
  { State.Inv.clear (s := s) hv with
    tw_length := h, ctr_supported := by simp, ctr_dead := by simp, pos_dead := by simp, seg_range := by simp,
    seg_dead := by simp, variant_range := by simp [Mode.variantLive], variant_dead := by simp,
    iv_dead := by simp, fb_dead := by simp, xy_dead := by simp, tw_dead := by simp, xts_bs := fun _ => hbs,
    ksbuf_is_keystream := by simp }

theorem inv_clear_cbccts (hv : p.Valid) (s : State) (v : Variant) (hvar : v ≠ .none) (iv : Bytes) (h : iv.length = p.bs) :
    State.Inv { s.clear p with mode := .cbccts, variant := v, iv := iv } p :=
  { State.Inv.clear (s := s) hv with
    iv_length := h, ctr_supported := by simp, ctr_dead := by simp, pos_dead := by simp, seg_range := by simp,
    seg_dead := by simp, variant_range := fun _ => hvar, variant_dead := by simp [Mode.variantLive],
    iv_dead := by simp [Mode.ivLive], fb_dead := by simp, xy_dead := by simp, tw_dead := by simp, xts_bs := by simp,
    ksbuf_is_keystream := by simp }

theorem inv_clear_ecbcts (hv : p.Valid) (s : State) (v : Variant) (hvar : v ≠ .none) :
    State.Inv { s.clear p with mode := .ecbcts, variant := v } p :=
  { State.Inv.clear (s := s) hv with
    ctr_supported := by simp, ctr_dead := by simp, pos_dead := by simp, seg_range := by simp,
    seg_dead := by simp, variant_range := fun _ => hvar, variant_dead := by simp [Mode.variantLive],
    iv_dead := by simp, fb_dead := by simp, xy_dead := by simp, tw_dead := by simp, xts_bs := by simp,
    ksbuf_is_keystream := by simp }

theorem inv_clear_ctr (hv : p.Valid) (s : State) (f : Flavor) (hf : f.supported p.bs = true) (nonce : Bytes)
    (h : nonce.length = p.bs) :
    State.Inv { s.clear p with mode := .ctr, flavor := f, nonce := nonce, ctr := 0, pos := 0, ksbuf := zeros p.bs } p :=
  { State.Inv.clear (s := s) hv with
    nonce_length := h, ctr_lt := Nat.two_pow_pos _, ctr_supported := fun _ => hf, ctr_dead := by simp,
    pos_dead := by simp [Mode.posLive], seg_range := by simp,
    seg_dead := by simp, variant_range := by simp [Mode.variantLive], variant_dead := by simp,
    iv_dead := by simp, fb_dead := by simp, xy_dead := by simp, tw_dead := by simp, xts_bs := by simp,
    ksbuf_is_keystream := by simp }

end Sys2Proof.Machine
end

