-- ==== Sys2Proof/Laws/Commands.lean ====
section
/-! SUPPORT. What every command does: it raises an error or finishes, it leaves the pending list alone, and it keeps the
invariant. -/

namespace Sys2Proof.Machine

variable {p : Params}

/-- Every command raises an error status, changing only the response, or finishes with output. -/
def RaisesOrFinishes (s : State) (r : Host.Outcome State Fault Refusal) : Prop :=
  (∃ e, e ≠ Status.ok ∧ r = .next (s.raise e)) ∨
  ∃ (t : State) (out : Bytes), r = .next (t.finish out) ∧ t.pending = s.pending

theorem initWith_shape (mode : Mode) (runnable : Bool) (pay : Bytes) (arm : State → State) (s : State)
    (h : ∀ t, (arm t).pending = t.pending) : RaisesOrFinishes s (initWith p mode runnable pay arm s) := by
  rcases initWith_cases (p := p) mode runnable pay arm s with ⟨-, e⟩ | ⟨-, -, e⟩ | ⟨-, -, e⟩
  · exact .inl ⟨_, by decide, e⟩
  · exact .inl ⟨_, by decide, e⟩
  · exact .inr ⟨_, _, e, h _⟩

theorem loadWith_shape (mode : Mode) (runnable : Bool) (pay : Bytes) (load : State → Bytes → Byte → State) (s : State)
    (h : ∀ t v q, (load t v q).pending = t.pending) : RaisesOrFinishes s (loadWith p mode runnable pay load s) := by
  rcases loadWith_cases (p := p) mode runnable pay load s with ⟨-, e⟩ | ⟨-, -, e⟩ | ⟨-, -, -, e⟩
  · exact .inl ⟨_, by decide, e⟩
  · exact .inl ⟨_, by decide, e⟩
  · exact .inr ⟨_, _, e, h _ _ _⟩

theorem ArmFrame.pending {s t : State} (h : ArmFrame s t) : t.pending = s.pending := by
  rw [ArmFrame] at h
  cases hm : s.mode <;> rw [hm] at h <;> rw [h]

theorem transformWith_shape (arm : State → Bytes → State × Bytes) (olen : Word) (data : Bytes) (s : State)
    (h : ArmFrame s (arm s data).1) : RaisesOrFinishes s (transformWith p arm olen data s) := by
  rcases transformWith_cases (p := p) arm olen data s with ⟨-, e⟩ | ⟨-, -, e⟩ | ⟨-, -, -, e⟩
  · exact .inl ⟨_, by decide, e⟩
  · exact .inl ⟨_, by decide, e⟩
  · exact .inr ⟨_, _, e, h.pending⟩

theorem seekTo_pending (s : State) (blk : BitVec 128) (off : Byte) : (seekTo p s blk off).pending = s.pending := by
  simp only [seekTo]; split <;> rfl

theorem execOn_shape (i : Instr) (s : State) : RaisesOrFinishes s (execOn p i s) := by
  cases i with
  | enc olen data => exact transformWith_shape _ olen data s (encArm_frame s data)
  | dec olen data => exact transformWith_shape _ olen data s (decArm_frame s data)
  | seek blk off =>
    simp only [execOn, execSeek]
    split
    · exact .inl ⟨_, by decide, rfl⟩
    · split
      · exact .inl ⟨_, by decide, rfl⟩
      · exact .inr ⟨_, _, rfl, seekTo_pending s blk off⟩
  | getpos =>
    simp only [execOn, execGetpos]
    split
    · exact .inl ⟨_, by decide, rfl⟩
    · exact .inr ⟨_, _, rfl, rfl⟩
  | getrem =>
    simp only [execOn, execGetrem]
    split
    · exact .inl ⟨_, by decide, rfl⟩
    · exact .inr ⟨_, _, rfl, rfl⟩
  | getst =>
    simp only [execOn, execGetst]
    split
    · exact .inr ⟨_, _, rfl, rfl⟩
    · exact .inl ⟨_, by decide, rfl⟩
  | wipe => exact .inr ⟨_, _, rfl, rfl⟩
  | ldstCbc | ldstCfb | ldstCfb8 | ldstCfbs | ldstOfb | ldstPcbc | ldstIge | ldstXts =>
    simp only [execOn, execLdstCbc, execLdstCfb, execLdstCfb8, execLdstCfbs, execLdstOfb, execLdstPcbc, execLdstIge, execLdstXts]
    exact loadWith_shape _ _ _ _ s fun _ _ _ => rfl
  | _ =>
    simp only [execOn, execInitCtr32be, execInitCtr32le, execInitCtr64be, execInitCtr64le, execInitCtr128be,
      execInitCtr128le, execInitBelt, execInitCbc, execInitCfb, execInitCfb8, execInitCfbs, execInitOfb, execInitPcbc,
      execInitIge, execInitXts, execInitCbccs1, execInitCbccs2, execInitCbccs3, execInitEcbcs1, execInitEcbcs2,
      execInitEcbcs3, initCtr, initCbccts, initEcbcts]
    exact initWith_shape _ _ _ _ s fun _ => rfl

/-- 60_exceptions.md R268: no command stops the engine. -/
theorem execOn_next (i : Instr) (s : State) : ∃ t, execOn p i s = .next t := by
  rcases execOn_shape (p := p) i s with ⟨e, -, h⟩ | ⟨t, out, h, -⟩
  · exact ⟨_, h⟩
  · exact ⟨_, h⟩

theorem exec_next (i : Instr) (s : State) : ∃ t, exec i s = .next t := by
  rw [← execOn_params]; exact execOn_next i s

theorem exec_shape (i : Instr) (s : State) : RaisesOrFinishes s (exec i s) := by
  rw [← execOn_params]; exact execOn_shape i s

theorem execGetst_some (s : State) (out : Bytes) (h : exported s = some out) : execGetst s = .next (s.finish out) := by
  simp [execGetst, h]

theorem execGetst_none (s : State) (h : exported s = none) : execGetst s = .next (s.raise .illegalCommand) := by
  simp [execGetst, h]

/-- The arm of a direction. -/
def transformArm (p : Params) (encrypt : Bool) : State → Bytes → State × Bytes := if encrypt then encArm p else decArm p

theorem execOn_transform (encrypt : Bool) (olen : Word) (data : Bytes) (s : State) :
    execOn p (.transform encrypt olen data) s = transformWith p (transformArm p encrypt) olen data s := by
  cases encrypt <;> rfl

/-- ENC and DEC at this machine's parameters. -/
theorem exec_transform (encrypt : Bool) (olen : Word) (data : Bytes) (s : State) :
    exec (.transform encrypt olen data) s = transformWith Config.params (transformArm Config.params encrypt) olen data s := by
  cases encrypt <;> rfl

/-- ENC and DEC that pass the checks. -/
theorem exec_transform_ok (encrypt : Bool) (olen : Word) (data : Bytes) (s : State) (hm : s.mode ≠ .none)
    (ho : olen.toNat = data.length) (hl : lenOk Config.params s data.length = true) :
    exec (.transform encrypt olen data) s =
      .next ((transformArm Config.params encrypt s data).1.finish (transformArm Config.params encrypt s data).2) := by
  rw [exec_transform, transformWith_ok _ _ _ _ hm ho hl]

theorem transformArm_spec (hv : p.Valid) (encrypt : Bool) (s : State) (data : Bytes) (hi : s.Inv p) (hm : s.mode ≠ .none)
    (hl : lenOk p s data.length = true) :
    (transformArm p encrypt s data).1.Inv p ∧ (transformArm p encrypt s data).2.length = data.length := by
  cases encrypt
  · exact decArm_spec hv s data hi hm hl
  · exact encArm_spec hv s data hi hm hl

theorem transformArm_frame (encrypt : Bool) (s : State) (data : Bytes) : ArmFrame s (transformArm p encrypt s data).1 := by
  cases encrypt
  · exact decArm_frame s data
  · exact encArm_frame s data

/-- R113: one arm for both directions. -/
theorem transformArm_ctr (encrypt : Bool) (s : State) (data : Bytes) (h : s.mode = .ctr) :
    transformArm p encrypt s data = fold (ctrByte p) s data := by
  cases encrypt <;> simp [transformArm, encArm, decArm, h, ctrArm]

theorem transformArm_ofb (encrypt : Bool) (s : State) (data : Bytes) (h : s.mode = .ofb) :
    transformArm p encrypt s data = fold (ofbByte p) s data := by
  cases encrypt <;> simp [transformArm, encArm, decArm, h, ofbArm]

theorem transformArm_cfb8 (encrypt : Bool) (s : State) (data : Bytes) (h : s.mode = .cfb8) :
    transformArm p encrypt s data = fold (if encrypt then cfb8EncByte p else cfb8DecByte p) s data := by
  cases encrypt <;> simp [transformArm, encArm, decArm, h, cfb8EncArm, cfb8DecArm]

theorem transformArm_cfb (encrypt : Bool) (s : State) (data : Bytes) (h : s.mode = .cfb) :
    transformArm p encrypt s data = fold (if encrypt then cfbEncByte p else cfbDecByte p) s data := by
  cases encrypt <;> simp [transformArm, encArm, decArm, h, cfbEncArm, cfbDecArm]

theorem transformArm_cfbs (encrypt : Bool) (s : State) (data : Bytes) (h : s.mode = .cfbs) :
    transformArm p encrypt s data = fold (if encrypt then cfbsEncSeg p else cfbsDecSeg p) s
      (chunks s.seg.toNat (data.length / s.seg.toNat) data) := by
  cases encrypt <;> simp [transformArm, encArm, decArm, h, cfbsEncArm, cfbsDecArm]

/-- The byte streams take every length (R111). -/
theorem lenOk_bytes (s : State) (n : Nat) (h : s.mode = .ctr ∨ s.mode = .ofb ∨ s.mode = .cfb ∨ s.mode = .cfb8) :
    s.mode ≠ .none ∧ lenOk p s n = true := by
  rcases h with h | h | h | h <;> simp [lenOk, h]

/-- The thirteen registers of R20, one by one. -/
theorem sameRegisters_iff (s t : State) : s.SameRegisters t ↔
    t.mode = s.mode ∧ t.flavor = s.flavor ∧ t.variant = s.variant ∧ t.seg = s.seg ∧ t.pos = s.pos ∧ t.ctr = s.ctr ∧
      t.nonce = s.nonce ∧ t.ksbuf = s.ksbuf ∧ t.iv = s.iv ∧ t.fb = s.fb ∧ t.x = s.x ∧ t.y = s.y ∧ t.tw = s.tw := by
  cases s; cases t; simp [State.SameRegisters]

/-- R111: the length check, as the rule states it. -/
theorem lengthRefused_iff (s : State) (n : Nat) : LengthRefused s n ↔ lenOk Config.params s n = false := by
  have : Config.BS = 16 := rfl
  cases h : s.mode <;> simp only [LengthRefused, lenOk, h, decide_eq_false_iff_not] <;> simp [this]

/-! ### The invariant -/

theorem initWith_inv (mode : Mode) (runnable : Bool) (pay : Bytes) (arm : State → State) (s t : State) (hi : s.Inv p)
    (h : initWith p mode runnable pay arm s = .next t)
    (harm : runnable = true → pay.length = ivLen p mode → State.Inv (arm { s.clear p with mode := mode }) p) : t.Inv p := by
  rcases initWith_cases (p := p) mode runnable pay arm s with ⟨-, e⟩ | ⟨-, -, e⟩ | ⟨h1, h2, e⟩ <;> rw [e] at h <;> cases h
  · exact hi.raise _
  · exact hi.raise _
  · exact (harm h1 h2).finish _

theorem loadWith_inv (mode : Mode) (runnable : Bool) (pay : Bytes) (load : State → Bytes → Byte → State) (s t : State)
    (hi : s.Inv p) (h : loadWith p mode runnable pay load s = .next t)
    (hload : runnable = true → ∀ v q, v.length = stLen p mode → sposOk p mode q = true →
      State.Inv (load { s.clear p with mode := mode } v q) p) : t.Inv p := by
  rcases loadWith_cases (p := p) mode runnable pay load s with ⟨-, e⟩ | ⟨-, -, e⟩ | ⟨h1, h2, h3, e⟩ <;> rw [e] at h <;> cases h
  · exact hi.raise _
  · exact hi.raise _
  · exact (hload h1 _ _ (by simp [h2]) h3).finish _

theorem transformWith_inv (arm : State → Bytes → State × Bytes) (olen : Word) (data : Bytes) (s t : State) (hi : s.Inv p)
    (h : transformWith p arm olen data s = .next t)
    (harm : s.mode ≠ .none → lenOk p s data.length = true → (arm s data).1.Inv p) : t.Inv p := by
  rcases transformWith_cases (p := p) arm olen data s with ⟨-, e⟩ | ⟨-, -, e⟩ | ⟨h1, -, h3, e⟩ <;> rw [e] at h <;> cases h
  · exact hi.raise _
  · exact hi.raise _
  · exact (harm h1 h3).finish _

theorem initCtr_inv (hv : p.Valid) (f : Flavor) (pay : Bytes) (s t : State) (hi : s.Inv p)
    (h : initCtr p f pay s = .next t) : t.Inv p :=
  initWith_inv _ _ _ _ s t hi h fun hr hl => inv_clear_ctr hv s f hr _ (by split <;> simp_all [ivLen, hv.E_length])

theorem initCbccts_inv (hv : p.Valid) (v : Variant) (hvar : v ≠ .none) (pay : Bytes) (s t : State) (hi : s.Inv p)
    (h : initCbccts p v pay s = .next t) : t.Inv p :=
  initWith_inv _ _ _ _ s t hi h fun _ hl => inv_clear_cbccts hv s v hvar pay hl

theorem initEcbcts_inv (hv : p.Valid) (v : Variant) (hvar : v ≠ .none) (pay : Bytes) (s t : State) (hi : s.Inv p)
    (h : initEcbcts p v pay s = .next t) : t.Inv p :=
  initWith_inv _ _ _ _ s t hi h fun _ _ => inv_clear_ecbcts hv s v hvar

theorem seekTo_inv (hv : p.Valid) (blk : BitVec 128) (off : Byte) (s : State) (hi : s.Inv p) (hm : s.mode = .ctr)
    (ho : off.toNat < p.bs) : (seekTo p s blk off).Inv p := by
  have hb : blk.toNat % 2 ^ s.flavor.width < 2 ^ s.flavor.width := Nat.mod_lt _ (by positivity)
  simp only [seekTo]
  split
  · exact hi.setCtr hm hi.ksbuf_length (by rwa [Flavor.toNat_ofNat _ _ hb]) hv.bs_pos (by simp)
  · refine hi.setCtr hm (keystream_length hv _ _ _ (hi.ctr_supported hm) hi.nonce_length).2 ?_ ho fun _ => ?_
    · rw [Flavor.toNat_ofNat _ _ (Flavor.next_lt _ _)]; exact Flavor.next_lt _ _
    · rw [Flavor.toNat_ofNat _ _ (Flavor.next_lt _ _), Flavor.prev_next _ _ hb]

/-- Every command keeps the invariant. -/
theorem execOn_inv (hv : p.Valid) (i : Instr) (s t : State) (hi : s.Inv p) (h : execOn p i s = .next t) : t.Inv p := by
  cases i with
  | initCtr32be pay | initCtr32le pay | initCtr64be pay | initCtr64le pay | initCtr128be pay | initCtr128le pay | initBelt pay =>
    exact initCtr_inv hv _ pay s t hi h
  | initCbc pay =>
    unfold execOn execInitCbc at h
    exact initWith_inv _ _ _ _ s t hi h fun _ hl => inv_clear_iv hv s .cbc (by simp) pay hl
  | initCfb pay =>
    unfold execOn execInitCfb at h
    exact initWith_inv _ _ _ _ s t hi h fun _ hl => inv_clear_cfb hv s _ (hv.E_length _ hl) 0 hv.bs_pos
  | initCfb8 pay =>
    unfold execOn execInitCfb8 at h
    exact initWith_inv _ _ _ _ s t hi h fun _ hl => inv_clear_iv hv s .cfb8 (by simp) pay hl
  | initCfbs seg pay =>
    unfold execOn execInitCfbs at h
    exact initWith_inv _ _ _ _ s t hi h fun hr hl => inv_clear_cfbs hv s pay hl seg hr
  | initOfb pay =>
    unfold execOn execInitOfb at h
    exact initWith_inv _ _ _ _ s t hi h fun _ hl => inv_clear_ofb hv s pay hl 0 hv.bs_pos
  | initPcbc pay =>
    unfold execOn execInitPcbc at h
    exact initWith_inv _ _ _ _ s t hi h fun _ hl => inv_clear_iv hv s .pcbc (by simp) pay hl
  | initIge pay =>
    unfold execOn execInitIge at h
    refine initWith_inv _ _ _ _ s t hi h fun _ hl => inv_clear_ige hv s _ _ ?_ ?_
    all_goals
      have hl : pay.length = 2 * p.bs := hl
      simp [hl]; omega
  | initXts pay =>
    unfold execOn execInitXts at h
    exact initWith_inv _ _ _ _ s t hi h fun hr hl => inv_clear_xts hv (by simpa [xtsRunnable] using hr) s _ (hv.T_length _ hl)
  | initCbccs1 pay | initCbccs2 pay | initCbccs3 pay => exact initCbccts_inv hv _ (by decide) pay s t hi h
  | initEcbcs1 pay | initEcbcs2 pay | initEcbcs3 pay => exact initEcbcts_inv hv _ (by decide) pay s t hi h
  | ldstCbc pay =>
    unfold execOn execLdstCbc at h
    exact loadWith_inv _ _ _ _ s t hi h fun _ v q hl _ => inv_clear_iv hv s .cbc (by simp) v hl
  | ldstCfb pay =>
    unfold execOn execLdstCfb at h
    exact loadWith_inv _ _ _ _ s t hi h fun _ v q hl hq => inv_clear_cfb hv s v hl q (by simpa [sposOk] using hq)
  | ldstCfb8 pay =>
    unfold execOn execLdstCfb8 at h
    exact loadWith_inv _ _ _ _ s t hi h fun _ v q hl _ => inv_clear_iv hv s .cfb8 (by simp) v hl
  | ldstCfbs seg pay =>
    unfold execOn execLdstCfbs at h
    exact loadWith_inv _ _ _ _ s t hi h fun hr v q hl _ => inv_clear_cfbs hv s v hl seg hr
  | ldstOfb pay =>
    unfold execOn execLdstOfb at h
    exact loadWith_inv _ _ _ _ s t hi h fun _ v q hl hq => inv_clear_ofb hv s v hl q (by simpa [sposOk] using hq)
  | ldstPcbc pay =>
    unfold execOn execLdstPcbc at h
    exact loadWith_inv _ _ _ _ s t hi h fun _ v q hl _ => inv_clear_iv hv s .pcbc (by simp) v hl
  | ldstIge pay =>
    unfold execOn execLdstIge at h
    refine loadWith_inv _ _ _ _ s t hi h fun _ v q hl _ => inv_clear_ige hv s _ _ ?_ ?_
    all_goals
      have hl : v.length = 2 * p.bs := hl
      simp [hl]; omega
  | ldstXts pay =>
    unfold execOn execLdstXts at h
    exact loadWith_inv _ _ _ _ s t hi h fun hr v q hl _ => inv_clear_xts hv (by simpa [xtsRunnable] using hr) s v hl
  | enc olen data => exact transformWith_inv _ _ _ s t hi h fun hm hl => (encArm_spec hv s data hi hm hl).1
  | dec olen data => exact transformWith_inv _ _ _ s t hi h fun hm hl => (decArm_spec hv s data hi hm hl).1
  | seek blk off =>
    simp only [execOn, execSeek] at h
    split at h
    · cases h; exact hi.raise _
    · split at h
      · cases h; exact hi.raise _
      · cases h; exact (seekTo_inv hv blk off s hi (by simp_all) (by omega)).finish _
  | getpos =>
    simp only [execOn, execGetpos] at h
    split at h <;> cases h
    · exact hi.raise _
    · exact hi.finish _
  | getrem =>
    simp only [execOn, execGetrem] at h
    split at h <;> cases h
    · exact hi.raise _
    · exact hi.finish _
  | getst =>
    simp only [execOn, execGetst] at h
    split at h <;> cases h
    · exact hi.finish _
    · exact hi.raise _
  | wipe => cases h; exact (State.Inv.clear hv).finish _

end Sys2Proof.Machine
end

