-- ==== Sys2Proof/Laws/Ctr.lean ====
section
/-! SUPPORT. The CTR engine: counter blocks, the stream as a function of the position (41_ctr.md R138), and SEEK. -/

namespace Sys2Proof.Machine

variable {p : Params}

/-- Every byte of the stream comes from the keystream block of the logical position (R139). -/
theorem ctrRefill_ksbuf (hv : p.Valid) (s : State) (hi : s.Inv p) (hm : s.mode = .ctr) :
    (ctrRefill p s).ksbuf = keystream p s.flavor s.nonce (pblk s) ∧ (ctrRefill p s).pos = s.pos ∧
      (ctrRefill p s).ctr.toNat = s.flavor.next (pblk s) := by
  simp only [ctrRefill, pblk]
  split
  · exact ⟨rfl, by simp_all, Flavor.toNat_ofNat _ _ (Flavor.next_lt _ _)⟩
  · exact ⟨hi.ksbuf_is_keystream hm ‹_›, rfl, (Flavor.next_prev _ _ hi.ctr_lt).symm⟩

theorem pblk_lt (s : State) (hi : s.Inv p) : pblk s < 2 ^ s.flavor.width := by
  simp only [pblk]
  split
  · exact hi.ctr_lt
  · exact Flavor.prev_lt _ _

/-- One byte moves the logical position by one byte. -/
theorem ctrByte_position (hv : p.Valid) (s : State) (b : Byte) (hi : s.Inv p) (hm : s.mode = .ctr) :
    (ctrByte p s b).1.pos.toNat = (s.pos.toNat + 1) % p.bs ∧
      pblk (ctrByte p s b).1 = (pblk s + (s.pos.toNat + 1) / p.bs) % 2 ^ s.flavor.width := by
  obtain ⟨-, h2, h3⟩ := ctrRefill_ksbuf hv s hi hm
  have hpos : (ctrByte p s b).1.pos.toNat = (s.pos.toNat + 1) % p.bs := by
    have : (ctrByte p s b).1.pos = nextPos p (ctrRefill p s).pos := rfl
    rw [this, toNat_nextPos p hv, h2]
  have hctr : (ctrByte p s b).1.ctr = (ctrRefill p s).ctr := rfl
  have hfl : (ctrByte p s b).1.flavor = s.flavor := by rw [ctrByte_frame]
  refine ⟨hpos, ?_⟩
  have hlt := hi.pos_lt
  have hb := pblk_lt s hi
  rw [pblk, hctr, hfl, h3, Flavor.prev_next _ _ hb]
  by_cases he : s.pos.toNat + 1 = p.bs
  · have h0 : (ctrByte p s b).1.pos = 0 := by rw [byte_eq_zero_iff, hpos, he, Nat.mod_self]
    rw [if_pos h0, he, Nat.div_self hv.bs_pos]; rfl
  · have h0 : (ctrByte p s b).1.pos ≠ 0 := by
      rw [Ne, byte_eq_zero_iff, hpos, Nat.mod_eq_of_lt (by omega)]; omega
    rw [if_neg h0, Nat.div_eq_of_lt (by omega), Nat.add_zero, Nat.mod_eq_of_lt hb]

/-- R138: which keystream byte each data byte meets, and where the stream then stands. -/
theorem ctrArm_view (hv : p.Valid) (data : Bytes) (s : State) (hi : s.Inv p) (hm : s.mode = .ctr) :
    (ctrArm p s data).1.pos.toNat = (s.pos.toNat + data.length) % p.bs ∧
    pblk (ctrArm p s data).1 = (pblk s + (s.pos.toNat + data.length) / p.bs) % 2 ^ s.flavor.width ∧
    ∀ j, j < data.length → (ctrArm p s data).2.getD j 0 = data.getD j 0 ^^^
      (keystream p s.flavor s.nonce ((pblk s + (s.pos.toNat + j) / p.bs) % 2 ^ s.flavor.width)).getD
        ((s.pos.toNat + j) % p.bs) 0 := by
  induction data generalizing s with
  | nil =>
    have hlt := hi.pos_lt
    refine ⟨(Nat.mod_eq_of_lt hlt).symm, ?_, by simp⟩
    simp [ctrArm, Nat.div_eq_of_lt hlt, Nat.mod_eq_of_lt (pblk_lt s hi)]
  | cons b data ih =>
    obtain ⟨h1, h2⟩ := ctrByte_position hv s b hi hm
    have hi' := ctrByte_inv hv s b hi hm
    have hm' : (ctrByte p s b).1.mode = .ctr := by rw [ctrByte_frame]; exact hm
    have hf' : (ctrByte p s b).1.flavor = s.flavor := by rw [ctrByte_frame]
    have hn' : (ctrByte p s b).1.nonce = s.nonce := by rw [ctrByte_frame]
    obtain ⟨i1, i2, i3⟩ := ih (ctrByte p s b).1 hi' hm'
    rw [hf', hn'] at i3
    rw [hf'] at i2
    have hsplit := Nat.div_add_mod (s.pos.toNat + 1) p.bs
    have hdiv : ∀ k, (s.pos.toNat + (k + 1)) / p.bs = (s.pos.toNat + 1) / p.bs + ((s.pos.toNat + 1) % p.bs + k) / p.bs := by
      intro k
      rw [← Nat.mul_add_div hv.bs_pos]
      congr 1; omega
    have hmod : ∀ k, (s.pos.toNat + (k + 1)) % p.bs = ((s.pos.toNat + 1) % p.bs + k) % p.bs := by
      intro k
      rw [Nat.mod_add_mod]; congr 1; omega
    have hb : ∀ k, (pblk s + (s.pos.toNat + (k + 1)) / p.bs) % 2 ^ s.flavor.width =
        (pblk (ctrByte p s b).1 + ((ctrByte p s b).1.pos.toNat + k) / p.bs) % 2 ^ s.flavor.width := by
      intro k
      rw [h2, h1, Nat.mod_add_mod, hdiv k, Nat.add_assoc]
    have e : ctrArm p s (b :: data) = ((ctrArm p (ctrByte p s b).1 data).1,
        (ctrByte p s b).2 ++ (ctrArm p (ctrByte p s b).1 data).2) := rfl
    rw [e]
    refine ⟨?_, ?_, ?_⟩
    · rw [List.length_cons, hmod, ← h1]; exact i1
    · rw [List.length_cons, hb]; exact i2
    · intro j hj
      cases j with
      | zero =>
        obtain ⟨k1, k2, -⟩ := ctrRefill_ksbuf hv s hi hm
        have hlt := hi.pos_lt
        simp only [ctrByte_out, List.cons_append, List.getD_cons_zero, Nat.add_zero, Nat.div_eq_of_lt hlt,
          Nat.mod_eq_of_lt hlt, Nat.mod_eq_of_lt (pblk_lt s hi), k1, k2]
      | succ k =>
        rw [hb, hmod, ← h1]
        simp only [ctrByte_out, List.cons_append, List.nil_append, List.getD_cons_succ]
        exact i3 k (by simpa using hj)

/-- The counter behind a logical position. -/
theorem ctr_of_pblk (s : State) (hi : s.Inv p) :
    s.ctr.toNat = if s.pos = 0 then pblk s else s.flavor.next (pblk s) := by
  simp only [pblk]
  split
  · rfl
  · exact (Flavor.next_prev _ _ hi.ctr_lt).symm

/-! ### Counter blocks -/

theorem pow_width (f : Flavor) : 256 ^ (f.width / 8) = 2 ^ f.width := by cases f <;> rfl

theorem supported_width (f : Flavor) (bs : Nat) (h : f.supported bs = true) : f.width / 8 ≤ bs := by
  cases f <;> simp [Flavor.supported, Flavor.width] at h ⊢ <;> omega

theorem blockForBe_parts (f : Flavor) (nonce : Bytes) (i : Nat) (h : f.width / 8 ≤ p.bs) (hn : nonce.length = p.bs) :
    (blockForBe p f.width nonce i).take (p.bs - f.width / 8) = nonce.take (p.bs - f.width / 8) ∧
      be ((blockForBe p f.width nonce i).drop (p.bs - f.width / 8)) =
        (be (nonce.drop (p.bs - f.width / 8)) + i) % 2 ^ f.width := by
  have hl : (nonce.take (p.bs - f.width / 8)).length = p.bs - f.width / 8 := by simp [hn]
  simp only [blockForBe]
  rw [List.take_left' hl, List.drop_left' hl, be_beBytes, pow_width, Nat.mod_mod]
  exact ⟨rfl, rfl⟩

theorem blockForLe_parts (f : Flavor) (nonce : Bytes) (i : Nat) :
    (blockForLe f.width nonce i).drop (f.width / 8) = nonce.drop (f.width / 8) ∧
      le ((blockForLe f.width nonce i).take (f.width / 8)) = (le (nonce.take (f.width / 8)) + i) % 2 ^ f.width := by
  simp only [blockForLe]
  rw [List.take_left' (length_leBytes _ _), List.drop_left' (length_leBytes _ _), le_leBytes, pow_width, Nat.mod_mod]
  exact ⟨rfl, rfl⟩

/-- The counter enters a block only modulo `2^W` (R136). -/
theorem blockFor_mod (f : Flavor) (nonce : Bytes) (i : Nat) :
    blockFor p f nonce (i % 2 ^ f.width) = blockFor p f nonce i := by
  cases f <;> simp [blockFor, blockForBe, blockForLe, blockForBelt, Flavor.width, Nat.add_mod_mod]

/-! ### SEEK -/

/-- R140, R141: after SEEK the logical position is the one sought. -/
theorem seekTo_position (s : State) (blk : BitVec 128) (off : Byte) :
    (seekTo p s blk off).pos = off ∧ pblk (seekTo p s blk off) = blk.toNat % 2 ^ s.flavor.width := by
  have hb : blk.toNat % 2 ^ s.flavor.width < 2 ^ s.flavor.width := Nat.mod_lt _ (by positivity)
  simp only [seekTo]
  split
  · rename_i h
    exact ⟨h.symm, by simp only [pblk, if_true, Flavor.toNat_ofNat _ _ hb]⟩
  · rename_i h
    exact ⟨rfl, by simp only [pblk, h, if_false, Flavor.toNat_ofNat _ _ (Flavor.next_lt _ _), Flavor.prev_next _ _ hb]⟩

end Sys2Proof.Machine
end

