-- ==== Sys2Proof/Laws/Xts.lean ====
section
/-! SUPPORT. The tweak multiplier (47_xts.md R221, R222) and the whole blocks of XTS (R224, R225). -/

namespace Sys2Proof.Machine

variable {p : Params}

/-- Exclusive or with a number below 256 touches the low byte only. -/
theorem xor_low (h k c : Nat) (hh : h < 256) (hc : c < 256) : (h + 256 * k) ^^^ c = (h ^^^ c) + 256 * k := by
  have e1 : ((h + 256 * k) ^^^ c) % 2 ^ 8 = h ^^^ c := by
    rw [Nat.xor_mod_two_pow, show (h + 256 * k) % 2 ^ 8 = h by omega, Nat.mod_eq_of_lt (show c < 2 ^ 8 by omega)]
  have e2 : ((h + 256 * k) ^^^ c) / 2 ^ 8 = k := by
    rw [Nat.xor_div_two_pow, show (h + 256 * k) / 2 ^ 8 = k by omega, Nat.div_eq_of_lt (show c < 2 ^ 8 by omega), Nat.xor_zero]
  have := Nat.div_add_mod ((h + 256 * k) ^^^ c) (2 ^ 8)
  rw [e1, e2] at this
  omega

/-- R221, the byte-by-byte form: doubling with a carry in and a carry out. -/
theorem shiftBytes_spec (carry : Nat) (t : Bytes) (hc : carry ≤ 1) :
    le (shiftBytes carry t).1 + 256 ^ t.length * (shiftBytes carry t).2 = 2 * le t + carry ∧
      (shiftBytes carry t).1.length = t.length ∧ (shiftBytes carry t).2 ≤ 1 := by
  induction t generalizing carry with
  | nil => simp [shiftBytes, le, hc]
  | cons b t ih =>
    have hb := b.isLt
    obtain ⟨h1, h2, h3⟩ := ih (b.toNat / 128) (by omega)
    have hor : (BitVec.ofNat 8 (b.toNat * 2 % 256) ||| BitVec.ofNat 8 carry).toNat = b.toNat * 2 % 256 + carry := by
      have hlo : b.toNat * 2 % 256 = 2 ^ 1 * (b.toNat % 128) := by omega
      rw [BitVec.toNat_or, BitVec.toNat_ofNat, BitVec.toNat_ofNat, Nat.mod_eq_of_lt (show b.toNat * 2 % 256 < 2 ^ 8 by omega),
        Nat.mod_eq_of_lt (show carry < 2 ^ 8 by omega), hlo, ← Nat.two_pow_add_eq_or_of_lt (by omega)]
    refine ⟨?_, by simp [shiftBytes, h2], h3⟩
    simp only [shiftBytes, le, List.length_cons, pow_succ, hor]
    have e : 256 ^ t.length * 256 * (shiftBytes (b.toNat / 128) t).2 =
        256 * (256 ^ t.length * (shiftBytes (b.toNat / 128) t).2) := by ring
    rw [e]
    omega

/-- The number `mulx` makes. -/
theorem le_mulx (t : Bytes) (h : t.length = 16) :
    le (mulx t) = if le t / 2 ^ 127 = 1 then (2 * le t % 2 ^ 128) ^^^ 0x87 else 2 * le t % 2 ^ 128 := by
  have hx : (2 * le t % 2 ^ 128) ^^^ 0x87 < 2 ^ 128 := Nat.xor_lt_two_pow (Nat.mod_lt _ (by decide)) (by decide)
  have hd : 2 * le t % 2 ^ 128 < 2 ^ 128 := Nat.mod_lt _ (by decide)
  simp only [mulx]
  rw [le_leBytes]
  apply Nat.mod_eq_of_lt
  split
  · exact hx
  · exact hd

theorem mulx_eq_bytewise (t : Bytes) (h : t.length = 16) : mulx t = mulxBytewise t := by
  obtain ⟨h1, h2, h3⟩ := shiftBytes_spec 0 t (by decide)
  have hlt := le_lt t
  have hlt' := le_lt (shiftBytes 0 t).1
  rw [h2] at hlt'
  rw [h] at h1 h2 hlt hlt'
  have key : ∀ b : Bytes, b.length = 16 → le (mulx t) = le b → mulx t = b := by
    intro b hb he
    have a := leBytes_le (mulx t)
    have c := leBytes_le b
    rw [length_mulx, he] at a
    rw [hb] at c
    exact a.symm.trans c
  have hc : (shiftBytes 0 t).2 = le t / 2 ^ 127 := by omega
  have hd : le (shiftBytes 0 t).1 = 2 * le t % 2 ^ 128 := by omega
  rcases hr : (shiftBytes 0 t).1 with _ | ⟨b, r⟩
  · rw [hr] at h2; cases h2
  · apply key
    · simp only [mulxBytewise, hr]
      rw [hr] at h2
      split <;> simpa using h2
    · rw [le_mulx t h]
      simp only [mulxBytewise, hr, hc]
      split
      · rw [← hd, hr]
        simp only [List.headD_cons, List.tail_cons, le]
        rw [xor_low _ _ _ b.isLt (by decide)]
        simp
      · rw [← hd, hr]

theorem xor_parity (a : Nat) : (a ^^^ 0x87) % 2 = (a + 1) % 2 := by
  have := Nat.xor_mod_two_eq (m := a) (n := 0x87)
  omega

theorem xor_twice (a c : Nat) : (a ^^^ c) ^^^ c = a := by rw [Nat.xor_assoc, Nat.xor_self, Nat.xor_zero]

theorem eq_of_le_eq (a b : Bytes) (ha : a.length = 16) (hb : b.length = 16) (h : le a = le b) : a = b := by
  have x := leBytes_le a
  have y := leBytes_le b
  rw [ha, h] at x
  rw [hb] at y
  exact x.symm.trans y

theorem le_mulxInv (t : Bytes) (h : t.length = 16) :
    le (mulxInv t) = (if le t % 2 = 1 then le t ^^^ 0x87 else le t) / 2 + le t % 2 * 2 ^ 127 := by
  have hlt := le_lt t
  rw [h] at hlt
  have hx : le t ^^^ 0x87 < 2 ^ 128 := Nat.xor_lt_two_pow hlt (by decide)
  simp only [mulxInv]
  rw [le_leBytes]
  apply Nat.mod_eq_of_lt
  split <;> omega

theorem mulxInv_mulx (t : Bytes) (h : t.length = 16) : mulxInv (mulx t) = t := by
  apply eq_of_le_eq _ _ (by simp) h
  have hlt := le_lt t
  rw [h] at hlt
  rw [le_mulxInv _ (by simp), le_mulx t h]
  have hp := xor_parity (2 * le t % 2 ^ 128)
  by_cases hc : le t / 2 ^ 127 = 1
  · rw [if_pos hc, if_pos (by omega), xor_twice]
    omega
  · rw [if_neg hc, if_neg (by omega)]
    omega

theorem mulx_mulxInv (t : Bytes) (h : t.length = 16) : mulx (mulxInv t) = t := by
  apply eq_of_le_eq _ _ (by simp) h
  have hlt := le_lt t
  rw [h] at hlt
  rw [le_mulx _ (by simp), le_mulxInv t h]
  have hp := xor_parity (le t)
  have hx : le t ^^^ 0x87 < 2 ^ 128 := Nat.xor_lt_two_pow hlt (by decide)
  by_cases hc : le t % 2 = 1
  · rw [if_pos hc, hc]
    have e : 2 * ((le t ^^^ 0x87) / 2 + 1 * 2 ^ 127) % 2 ^ 128 = le t ^^^ 0x87 := by omega
    rw [e, if_pos (by omega), xor_twice]
  · have hc0 : le t % 2 = 0 := by omega
    rw [if_neg hc, hc0, if_neg (by omega)]
    omega

/-- The tweak before block `k`. -/
theorem tw_iterate (block : State → Bytes → State × Bytes) (hblock : ∀ s b, (block s b).1 = { s with tw := mulx s.tw })
    (s : State) (as : List Bytes) (j : Nat) (hj : j ≤ as.length) :
    stateAt block s as j = { s with tw := mulx^[j] s.tw } := by
  induction j with
  | zero => simp
  | succ j ih =>
    rw [stateAt_succ _ _ _ _ (by omega), hblock, ih (by omega), Function.iterate_succ_apply']

/-- R224, R225: whole blocks: the tweak is advanced once for each, and masks the block on both sides. -/
theorem xts_lead (block : State → Bytes → State × Bytes) (F : Bytes → Bytes)
    (hblock : ∀ s b, block s b = ({ s with tw := mulx s.tw }, xorBytes (F (xorBytes b s.tw)) s.tw))
    (hF : ∀ b, b.length = 16 → (F b).length = 16) (s : State) (hs : s.tw.length = 16) (m : Nat) (data : Bytes)
    (hd : data.length = m * 16) :
    (fold block s (chunks 16 m data)).1 = { s with tw := mulx^[m] s.tw } ∧
    (fold block s (chunks 16 m data)).2.length = data.length ∧
    ∀ k, k < m → blk 16 (fold block s (chunks 16 m data)).2 k =
      xorBytes (F (xorBytes (blk 16 data k) (mulx^[k] s.tw))) (mulx^[k] s.tw) := by
  have hst := tw_iterate block (fun s b => by rw [hblock]) s (chunks 16 m data)
  have hP : ∀ (t : State) (b : Bytes), t.tw.length = 16 → b.length = 16 →
      (block t b).1.tw.length = 16 ∧ (block t b).2.length = 16 := by
    intro t b ht hb
    rw [hblock]
    exact ⟨length_mulx _, by simp [hF, ht, hb]⟩
  have hspec := blocks_spec block (fun t => t.tw.length = 16) 16 hP s data m hs hd
  refine ⟨?_, hspec.2, fun k hk => ?_⟩
  · rw [← stateAt_length, length_chunks]
    exact hst m (by simp)
  · have hk' : k < (chunks 16 m data).length := by simpa
    have e : blk 16 data k = (chunks 16 m data)[k] := by
      rw [blk, ← getD_chunks 16 m data k hk, List.getD_eq_getElem _ _ hk']
    rw [blk_fold block (fun t => t.tw.length = 16) (fun a => a.length = 16) 16 hP s _ hs
      (mem_chunks_length 16 m data (by omega)) k hk', hst k (by omega), hblock, e]

end Sys2Proof.Machine
end

