-- ==== Sys2Proof/Laws/Modes.lean ====
section
/-! SUPPORT. What holds of every mode: DEC undoes ENC (40_common.md R125), a message may be cut in two (R112), and the response
already shown plays no part. -/

namespace Sys2Proof.Machine

variable {p : Params}

/-! ### DEC undoes ENC -/

/-- R125, for the arms. In the modes that leave no register unspecified the two directions end in one state. -/
theorem decArm_encArm (hv : p.Valid) (s : State) (data : Bytes) (hi : s.Inv p) (hm : s.mode ≠ .none)
    (hl : lenOk p s data.length = true) :
    (decArm p s (encArm p s data).2).2 = data ∧
      (s.mode ≠ .cbccts → s.mode ≠ .ecbcts → (s.mode = .xts → data.length % 16 = 0) →
        (decArm p s (encArm p s data).2).1 = (encArm p s data).1) := by
  have hlen := (encArm_spec hv s data hi hm hl).2
  have hbytes : ∀ (f g : State → Byte → State × Bytes) (o : State → Byte → Byte), (∀ s a, (f s a).2 = [o s a]) →
      (∀ s a, g s (o s a) = ((f s a).1, [a])) → encArm p s data = fold f s data →
      (∀ d, decArm p s d = fold g s d) → decArm p s (encArm p s data).2 = ((encArm p s data).1, data) := by
    intro f g o h1 h2 h3 h4
    rw [h3, h4, fold_undo_bytes f g o h1 h2]
  have hblocks : ∀ (f g : State → Bytes → State × Bytes) (P : State → Prop) (k : Nat), P s →
      (∀ s a, P s → a.length = k → P (f s a).1 ∧ (f s a).2.length = k ∧ g s (f s a).2 = ((f s a).1, a)) →
      data.length % k = 0 → encArm p s data = fold f s (chunks k (data.length / k) data) →
      (∀ d : Bytes, d.length % k = 0 → decArm p s d = fold g s (chunks k (d.length / k) d)) →
      decArm p s (encArm p s data).2 = ((encArm p s data).1, data) := by
    intro f g P k hP h hd h3 h4
    have hd' := div_mul_of_mod _ _ hd
    have hQ := mem_chunks_length k (data.length / k) data (by omega)
    have hu := fold_undo f g P (fun a => a.length = k) k h s _ hP hQ
    rw [length_chunks, flatten_chunks k _ data hd'] at hu
    rw [h4 _ (by rw [hlen, hd]), hlen, h3, hu]
  cases h : s.mode <;> simp only [lenOk, h, decide_eq_true_eq] at hl
  · exact absurd h hm
  · have := hbytes _ _ _ ctrByte_out ctrByte_twice (by simp only [encArm, h]; rfl) (fun d => by simp only [decArm, h]; rfl)
    rw [this]; exact ⟨rfl, fun _ _ _ => rfl⟩
  · have := hblocks (cbcEncBlock p) (cbcDecBlock p) (fun t => t.Inv p ∧ t.mode = .cbc) p.bs ⟨hi, h⟩
      (fun t a ht ha =>
        have hx := cbcEncBlock_inv hv t a ht.1 (by simp [ht.2, Mode.ivLive]) ha
        ⟨⟨hx.1, ht.2⟩, hx.2, cbcDec_enc hv t a ht.1 ha⟩) hl
      (by simp only [encArm, h]; rfl) (fun d _ => by simp only [decArm, h]; rfl)
    rw [this]; exact ⟨rfl, fun _ _ _ => rfl⟩
  · have := hbytes _ _ _ cfbEncByte_out cfbDec_enc (by simp only [encArm, h]; rfl) (fun d => by simp only [decArm, h]; rfl)
    rw [this]; exact ⟨rfl, fun _ _ _ => rfl⟩
  · have := hbytes _ _ _ cfb8EncByte_out cfb8Dec_enc (by simp only [encArm, h]; rfl) (fun d => by simp only [decArm, h]; rfl)
    rw [this]; exact ⟨rfl, fun _ _ _ => rfl⟩
  · have := hblocks (cfbsEncSeg p) (cfbsDecSeg p) (fun t => t.Inv p ∧ t.mode = .cfbs ∧ t.seg = s.seg) s.seg.toNat ⟨hi, h, rfl⟩
      (fun t a ht ha =>
        have ha' : a.length = t.seg.toNat := by rw [ht.2.2]; exact ha
        have hx := cfbsEncSeg_inv hv t a ht.1 ht.2.1 ha'
        ⟨⟨hx.1, ht.2⟩, by rw [hx.2, ht.2.2], cfbsDec_enc hv t a ht.1 ht.2.1 ha'⟩) hl
      (by simp only [encArm, h]; rfl) (fun d _ => by simp only [decArm, h]; rfl)
    rw [this]; exact ⟨rfl, fun _ _ _ => rfl⟩
  · have := hbytes _ _ _ ofbByte_out ofbByte_twice (by simp only [encArm, h]; rfl) (fun d => by simp only [decArm, h]; rfl)
    rw [this]; exact ⟨rfl, fun _ _ _ => rfl⟩
  · have := hblocks (pcbcEncBlock p) (pcbcDecBlock p) (fun t => t.Inv p ∧ t.mode = .pcbc) p.bs ⟨hi, h⟩
      (fun t a ht ha =>
        have hx := pcbcEncBlock_inv hv t a ht.1 (by simp [ht.2, Mode.ivLive]) ha
        ⟨⟨hx.1, ht.2⟩, hx.2, pcbcDec_enc hv t a ht.1 ha⟩) hl
      (by simp only [encArm, h]; rfl) (fun d _ => by simp only [decArm, h]; rfl)
    rw [this]; exact ⟨rfl, fun _ _ _ => rfl⟩
  · have := hblocks (igeEncBlock p) (igeDecBlock p) (fun t => t.Inv p ∧ t.mode = .ige) p.bs ⟨hi, h⟩
      (fun t a ht ha =>
        have hx := igeEncBlock_inv hv t a ht.1 ht.2 ha
        ⟨⟨hx.1, ht.2⟩, hx.2, igeDec_enc hv t a ht.1 ha⟩) hl
      (by simp only [encArm, h]; rfl) (fun d _ => by simp only [decArm, h]; rfl)
    rw [this]; exact ⟨rfl, fun _ _ _ => rfl⟩
  · have hbs := hi.xts_bs h
    have hE : ∀ d, encArm p s d = xtsEncArm p s d := fun d => by simp only [encArm, h]
    have hD : ∀ d, decArm p s d = xtsDecArm p s d := fun d => by simp only [decArm, h]
    have hundo : ∀ t a, (t.Inv p ∧ t.mode = .xts) → a.length = 16 →
        ((xtsEncBlock p t a).1.Inv p ∧ (xtsEncBlock p t a).1.mode = .xts) ∧ (xtsEncBlock p t a).2.length = 16 ∧
          xtsDecBlock p t (xtsEncBlock p t a).2 = ((xtsEncBlock p t a).1, a) := fun t a ht ha =>
      have hx := xtsEncBlock_inv hv t a ht.1 ht.2 ha
      ⟨⟨hx.1, ht.2⟩, hx.2, xtsDec_enc hv t a ht.1 ht.2 ha⟩
    by_cases hw : data.length % 16 = 0
    · have := hblocks (xtsEncBlock p) (xtsDecBlock p) (fun t => t.Inv p ∧ t.mode = .xts) 16 ⟨hi, h⟩ hundo hw
        (by rw [hE, xtsEncArm, xtsArm_whole _ _ _ _ hw]) (fun d hd => by rw [hD, xtsDecArm, xtsArm_whole _ _ _ _ hd])
      rw [this]; exact ⟨rfl, fun _ _ _ => rfl⟩
    · refine ⟨?_, fun _ _ hx => absurd (hx rfl) hw⟩
      obtain ⟨n, lead, pa, pb, rfl, hn, hle, ha, hb, hb'⟩ := exists_parts 16 (by decide) data (by omega)
      have hlt : pb.length < 16 := by
        simp only [List.length_append, hle, ha] at hw
        omega
      have hQ := mem_chunks_length 16 (n - 2) lead (by omega)
      have hu := fold_undo (xtsEncBlock p) (xtsDecBlock p) (fun t => t.Inv p ∧ t.mode = .xts) (fun a => a.length = 16) 16
        hundo s _ ⟨hi, h⟩ hQ
      rw [length_chunks, flatten_chunks 16 _ lead hle] at hu
      have hs := blocks_spec (xtsEncBlock p) (fun t => t.Inv p ∧ t.mode = .xts) 16
        (fun t a ht ha => ⟨(hundo t a ht ha).1, (hundo t a ht ha).2.1⟩) s lead (n - 2) ⟨hi, h⟩ hle
      obtain ⟨ca, cb, h1, h2, h3, h4⟩ := xtsSteal_undo hv hbs (fold (xtsEncBlock p) s (chunks 16 (n - 2) lead)).1 pa pb
        hs.1.1.tw_length ha hb'
      rw [hE, hD, xtsEncArm, xtsArm_parts _ _ _ (n - 2) lead pa pb hle ha hb hlt]
      simp only [h1]
      rw [← List.append_assoc, xtsDecArm, xtsArm_parts _ _ _ (n - 2) _ ca cb (by rw [hs.2, hle]) h2 (by omega) (by omega), hu]
      simp only [h4, List.append_assoc]
  all_goals
    have hcts : s.mode = .cbccts ∨ s.mode = .ecbcts := by simp [h]
    refine ⟨?_, fun h1 h2 _ => ?_⟩
    swap
    · simp at h1 h2
    have hE : ∀ d, encArm p s d = ctsEncArm p s d := fun d => by simp only [encArm, h]
    have hD : ∀ d, decArm p s d = ctsDecArm p s d := fun d => by simp only [decArm, h]
    by_cases hw : data.length = p.bs
    · have hx := baseEnc_inv hv s data hi hcts hw
      rw [hE, hD, ctsEncArm_one hv.bs_pos s data hw, ctsDecArm_one hv.bs_pos s _ hx.2, baseDec_enc hv s data hi hw]
    · obtain ⟨n, lead, pa, pb, rfl, hn, hle, ha, hb, hb'⟩ := exists_parts p.bs hv.bs_pos data (by omega)
      have hundo : ∀ t a, (t.Inv p ∧ (t.mode = .cbccts ∨ t.mode = .ecbcts)) → a.length = p.bs →
          ((baseEnc p t a).1.Inv p ∧ ((baseEnc p t a).1.mode = .cbccts ∨ (baseEnc p t a).1.mode = .ecbcts)) ∧
            (baseEnc p t a).2.length = p.bs ∧ baseDec p t (baseEnc p t a).2 = ((baseEnc p t a).1, a) := fun t a ht ha =>
        have hx := baseEnc_inv hv t a ht.1 ht.2 ha
        ⟨⟨hx.1, by rw [baseEnc_mode]; exact ht.2⟩, hx.2, baseDec_enc hv t a ht.1 ha⟩
      have hQ := mem_chunks_length p.bs (n - 2) lead (by omega)
      have hu := fold_undo (baseEnc p) (baseDec p) (fun t => t.Inv p ∧ (t.mode = .cbccts ∨ t.mode = .ecbcts))
        (fun a => a.length = p.bs) p.bs hundo s _ ⟨hi, hcts⟩ hQ
      rw [length_chunks, flatten_chunks p.bs _ lead hle] at hu
      have hs := blocks_spec (baseEnc p) (fun t => t.Inv p ∧ (t.mode = .cbccts ∨ t.mode = .ecbcts)) p.bs
        (fun t a ht ha => ⟨(hundo t a ht ha).1, (hundo t a ht ha).2.1⟩) s lead (n - 2) ⟨hi, hcts⟩ hle
      have h5 := ctsStealEnc_length hv (fold (baseEnc p) s (chunks p.bs (n - 2) lead)).1 pa pb hs.1.1 hs.1.2 ha hb'
      have h6 := ctsSteal_undo hv (fold (baseEnc p) s (chunks p.bs (n - 2) lead)).1 pa pb hs.1.1 hs.1.2 ha hb'
      rw [hE, hD, ctsEncArm_parts hv.bs_pos s n lead pa pb hn hle ha hb hb']
      simp only
      rw [ctsDecArm_parts hv.bs_pos s n pb.length _ _ hn (by rw [hs.2, hle]) h5 hb hb', hu]
      simp only [h6, List.append_assoc]

/-! ### The response already shown plays no part -/

theorem fold_finish {α : Type} (f : State → α → State × Bytes) (o : Bytes)
    (h : ∀ s a, f (s.finish o) a = ((f s a).1.finish o, (f s a).2)) (s : State) (as : List α) :
    fold f (s.finish o) as = ((fold f s as).1.finish o, (fold f s as).2) := by
  induction as generalizing s with
  | nil => rfl
  | cons a as ih => simp only [fold_cons, h, ih]

theorem ctrByte_finish (o : Bytes) (s : State) (b : Byte) :
    ctrByte p (s.finish o) b = ((ctrByte p s b).1.finish o, (ctrByte p s b).2) := by
  by_cases h : s.pos = 0
  · simp only [ctrByte, ctrRefill, State.finish_pos, h, if_true]; rfl
  · simp only [ctrByte, ctrRefill, State.finish_pos, h, if_false]; rfl

theorem ofbByte_finish (o : Bytes) (s : State) (b : Byte) :
    ofbByte p (s.finish o) b = ((ofbByte p s b).1.finish o, (ofbByte p s b).2) := by
  by_cases h : s.pos = 0
  · simp only [ofbByte, ofbRefill, State.finish_pos, h, if_true]; rfl
  · simp only [ofbByte, ofbRefill, State.finish_pos, h, if_false]; rfl

theorem cfbFeed_finish (o : Bytes) (s : State) (c : Byte) : cfbFeed p (s.finish o) c = (cfbFeed p s c).finish o := by
  by_cases h : s.pos.toNat + 1 = p.bs
  · simp only [cfbFeed, State.finish_pos, h, if_true]; rfl
  · simp only [cfbFeed, State.finish_pos, h, if_false]; rfl

/-! ### Cutting a message in two -/

theorem chunks_append_div (k : Nat) (a b : Bytes) (ha : a.length % k = 0) :
    chunks k ((a ++ b).length / k) (a ++ b) = chunks k (a.length / k) a ++ chunks k (b.length / k) b := by
  have hd := div_mul_of_mod _ _ ha
  have : (a ++ b).length / k = a.length / k + b.length / k := by
    rw [List.length_append, Nat.add_div_of_dvd_right (Nat.dvd_of_mod_eq_zero ha)]
  rw [this, chunks_append k _ _ a b hd]

/-- The loop of a mode that streams, and its pieces. -/
theorem stream_fold (encrypt : Bool) (s : State) (n : Nat) (hs : Streams p.bs s n) :
    (∃ f : State → Byte → State × Bytes, (∀ t d, t.mode = s.mode → t.seg = s.seg → transformArm p encrypt t d = fold f t d) ∧
      (∀ o t b, f (t.finish o) b = ((f t b).1.finish o, (f t b).2)) ∧ ∀ t b, (f t b).2.length = 1) ∨
    ∃ (f : State → Bytes → State × Bytes) (k : Nat), n % k = 0 ∧
      (∀ t (d : Bytes), t.mode = s.mode → t.seg = s.seg → (s.mode = .xts → d.length % 16 = 0) →
        transformArm p encrypt t d = fold f t (chunks k (d.length / k) d)) ∧
      ∀ o t b, f (t.finish o) b = ((f t b).1.finish o, (f t b).2) := by
  rcases hs with h | h | h | h | ⟨h, hn⟩ | ⟨h, hn⟩ | ⟨h, hn, -⟩
  · exact .inl ⟨ctrByte p, fun t d ht _ => transformArm_ctr _ _ _ (ht.trans h), ctrByte_finish, fun _ _ => rfl⟩
  · exact .inl ⟨ofbByte p, fun t d ht _ => transformArm_ofb _ _ _ (ht.trans h), ofbByte_finish, fun _ _ => rfl⟩
  · refine .inl ⟨_, fun t d ht _ => transformArm_cfb _ _ _ (ht.trans h), fun o t b => ?_, fun t b => by cases encrypt <;> rfl⟩
    cases encrypt <;> simp [cfbEncByte, cfbDecByte, cfbFeed_finish]
  · exact .inl ⟨_, fun t d ht _ => transformArm_cfb8 _ _ _ (ht.trans h), fun o t b => by cases encrypt <;> rfl,
      fun t b => by cases encrypt <;> rfl⟩
  · refine .inr ⟨if encrypt then cfbsEncSeg p else cfbsDecSeg p, s.seg.toNat, hn, fun t d ht hg _ => ?_, fun o t b => ?_⟩
    · rw [transformArm_cfbs _ _ _ (ht.trans h), hg]
    · cases encrypt <;> rfl
  · rcases h with h | h | h
    · exact .inr ⟨if encrypt then cbcEncBlock p else cbcDecBlock p, p.bs, hn, fun t d ht _ _ => by
        cases encrypt <;> simp [transformArm, encArm, decArm, ht.trans h, cbcEncArm, cbcDecArm], fun o t b => by
        cases encrypt <;> rfl⟩
    · exact .inr ⟨if encrypt then pcbcEncBlock p else pcbcDecBlock p, p.bs, hn, fun t d ht _ _ => by
        cases encrypt <;> simp [transformArm, encArm, decArm, ht.trans h, pcbcEncArm, pcbcDecArm], fun o t b => by
        cases encrypt <;> rfl⟩
    · exact .inr ⟨if encrypt then igeEncBlock p else igeDecBlock p, p.bs, hn, fun t d ht _ _ => by
        cases encrypt <;> simp [transformArm, encArm, decArm, ht.trans h, igeEncArm, igeDecArm], fun o t b => by
        cases encrypt <;> rfl⟩
  · exact .inr ⟨if encrypt then xtsEncBlock p else xtsDecBlock p, 16, hn, fun t d ht _ hw => by
      cases encrypt <;> simp [transformArm, encArm, decArm, ht.trans h, xtsEncArm, xtsDecArm, xtsArm_whole _ _ _ _ (hw h)],
      fun o t b => by cases encrypt <;> rfl⟩

/-- An arm leaves the mode and SEG alone. -/
theorem ArmFrame.mode_seg {s t : State} (h : ArmFrame s t) : t.mode = s.mode ∧ t.seg = s.seg := by
  rw [ArmFrame] at h
  cases hm : s.mode <;> rw [hm] at h <;> rw [h] <;> exact ⟨hm, rfl⟩

/-- R112: a message cut at a piece boundary, with the first response in between. -/
theorem transformArm_append (encrypt : Bool) (s : State) (a b : Bytes) (ha : Streams p.bs s a.length)
    (hb : s.mode = .xts → b.length % 16 = 0) (o : Bytes) :
    transformArm p encrypt ((transformArm p encrypt s a).1.finish o) b =
        ((transformArm p encrypt s (a ++ b)).1.finish o, (transformArm p encrypt (transformArm p encrypt s a).1 b).2) ∧
      (transformArm p encrypt s (a ++ b)).2 =
        (transformArm p encrypt s a).2 ++ (transformArm p encrypt (transformArm p encrypt s a).1 b).2 := by
  have hms := (transformArm_frame (p := p) encrypt s a).mode_seg
  rcases stream_fold encrypt s a.length ha with ⟨f, h1, h2, -⟩ | ⟨f, k, hk, h1, h2⟩
  · rw [h1 s a rfl rfl] at hms ⊢
    rw [h1 s _ rfl rfl, h1 _ _ hms.1 hms.2, h1 _ _ (by simpa using hms.1) (by simpa using hms.2), fold_finish f o (h2 o),
      fold_append]
    exact ⟨rfl, rfl⟩
  · have hax : s.mode = .xts → a.length % 16 = 0 := by
      intro hx
      rcases ha with h | h | h | h | ⟨h, -⟩ | ⟨h, -⟩ | ⟨-, h, -⟩
      all_goals first
        | exact h
        | (rw [hx] at h; simp at h)
    have habx : s.mode = .xts → (a ++ b).length % 16 = 0 := by
      intro hx; rw [List.length_append]; have := hax hx; have := hb hx; omega
    rw [h1 s a rfl rfl hax] at hms ⊢
    rw [h1 s _ rfl rfl habx, h1 _ _ hms.1 hms.2 hb, h1 _ _ (by simpa using hms.1) (by simpa using hms.2) hb,
      fold_finish f o (h2 o), chunks_append_div k a b hk, fold_append]
    exact ⟨rfl, rfl⟩

end Sys2Proof.Machine
end

