-- ==== Sys2Proof/Laws/Cts.lean ====
section
/-! SUPPORT. The leading blocks of CTS and the order of the last two (48_cts.md R242 to R245). -/

namespace Sys2Proof.Machine

variable {p : Params}

/-- The chaining value before block `k`, for the blocks of `chain`. -/
def chainBefore (p : Params) (iv chain : Bytes) (k : Nat) : Bytes := if k = 0 then iv else blk p.bs chain (k - 1)

/-- R242: the base transform of ENC as a function of the block and the chaining value. -/
def baseEncOf (p : Params) (cbc : Bool) (m v : Bytes) : Bytes := if cbc then p.E (xorBytes m v) else p.E m

/-- R242: that of DEC. -/
def baseDecOf (p : Params) (cbc : Bool) (c v : Bytes) : Bytes := if cbc then xorBytes (p.D c) v else p.D c

theorem baseEnc_eq (s : State) (b : Bytes) :
    baseEnc p s b = ({ s with iv := if s.mode = .cbccts then p.E (xorBytes b s.iv) else s.iv },
      baseEncOf p (decide (s.mode = .cbccts)) b s.iv) := by
  by_cases h : s.mode = .cbccts
  · simp only [baseEnc, h, if_true, cbcEncBlock, baseEncOf, decide_true]
  · simp only [baseEnc, h, if_false, baseEncOf, decide_false, Bool.false_eq_true]

theorem baseDec_eq (s : State) (b : Bytes) :
    baseDec p s b = ({ s with iv := if s.mode = .cbccts then b else s.iv },
      baseDecOf p (decide (s.mode = .cbccts)) b s.iv) := by
  by_cases h : s.mode = .cbccts
  · simp only [baseDec, h, if_true, cbcDecBlock, baseDecOf, decide_true]
  · simp only [baseDec, h, if_false, baseDecOf, decide_false, Bool.false_eq_true]

/-- The leading blocks of ENC. -/
theorem cts_lead_enc (hv : p.Valid) (s : State) (hi : s.Inv p) (hm : s.mode = .cbccts ∨ s.mode = .ecbcts) (m : Nat)
    (lead : Bytes) (hl : lead.length = m * p.bs) :
    (fold (baseEnc p) s (chunks p.bs m lead)).1 = { s with
      iv := if s.mode = .cbccts then chainBefore p s.iv (fold (baseEnc p) s (chunks p.bs m lead)).2 m else s.iv } ∧
    (fold (baseEnc p) s (chunks p.bs m lead)).2.length = lead.length ∧
    ∀ k, k < m → blk p.bs (fold (baseEnc p) s (chunks p.bs m lead)).2 k =
      baseEncOf p (decide (s.mode = .cbccts)) (blk p.bs lead k)
        (chainBefore p s.iv (fold (baseEnc p) s (chunks p.bs m lead)).2 k) := by
  have hP : ∀ (t : State) (b : Bytes), (t.Inv p ∧ t.mode = s.mode) → b.length = p.bs →
      ((baseEnc p t b).1.Inv p ∧ (baseEnc p t b).1.mode = s.mode) ∧ (baseEnc p t b).2.length = p.bs := by
    intro t b ht hb
    have := baseEnc_inv hv t b ht.1 (by rw [ht.2]; exact hm) hb
    exact ⟨⟨this.1, by rw [baseEnc_mode]; exact ht.2⟩, this.2⟩
  have hlen := (blocks_spec (baseEnc p) (fun t => t.Inv p ∧ t.mode = s.mode) p.bs hP s lead m ⟨hi, rfl⟩ hl).2
  obtain ⟨st, h0, hend, hst⟩ := loop_blocks (baseEnc p) (fun t => t.Inv p ∧ t.mode = s.mode) p.bs m hP
    (fun a b a' c => c = baseEncOf p (decide (s.mode = .cbccts)) b a.iv ∧
      a' = { a with iv := if s.mode = .cbccts then c else a.iv })
    (fun a b ha _ => by
      rw [baseEnc_eq, ha.2]
      refine ⟨rfl, ?_⟩
      by_cases h : s.mode = .cbccts <;> simp [h, baseEncOf]) s ⟨hi, rfl⟩ lead hl
  have hiv : ∀ k, k ≤ m → st k = { s with
      iv := if s.mode = .cbccts then chainBefore p s.iv (fold (baseEnc p) s (chunks p.bs m lead)).2 k else s.iv } := by
    intro k
    induction k with
    | zero => intro _; rw [h0]; simp [chainBefore]
    | succ k ih =>
      intro hk
      rw [(hst k (by omega)).2, ih (by omega)]
      by_cases h : s.mode = .cbccts <;> simp [h, chainBefore]
  refine ⟨by rw [← hend]; exact hiv m le_rfl, hlen, fun k hk => ?_⟩
  rw [(hst k hk).1, hiv k (by omega)]
  by_cases h : s.mode = .cbccts <;> simp [h, baseEncOf]

/-- The leading blocks of DEC. -/
theorem cts_lead_dec (hv : p.Valid) (s : State) (hi : s.Inv p) (hm : s.mode = .cbccts ∨ s.mode = .ecbcts) (m : Nat)
    (lead : Bytes) (hl : lead.length = m * p.bs) :
    (fold (baseDec p) s (chunks p.bs m lead)).1 = { s with
      iv := if s.mode = .cbccts then chainBefore p s.iv lead m else s.iv } ∧
    (fold (baseDec p) s (chunks p.bs m lead)).2.length = lead.length ∧
    ∀ k, k < m → blk p.bs (fold (baseDec p) s (chunks p.bs m lead)).2 k =
      baseDecOf p (decide (s.mode = .cbccts)) (blk p.bs lead k) (chainBefore p s.iv lead k) := by
  have hP : ∀ (t : State) (b : Bytes), (t.Inv p ∧ t.mode = s.mode) → b.length = p.bs →
      ((baseDec p t b).1.Inv p ∧ (baseDec p t b).1.mode = s.mode) ∧ (baseDec p t b).2.length = p.bs := by
    intro t b ht hb
    have := baseDec_inv hv t b ht.1 (by rw [ht.2]; exact hm) hb
    exact ⟨⟨this.1, by rw [baseDec_mode]; exact ht.2⟩, this.2⟩
  have hlen := (blocks_spec (baseDec p) (fun t => t.Inv p ∧ t.mode = s.mode) p.bs hP s lead m ⟨hi, rfl⟩ hl).2
  obtain ⟨st, h0, hend, hst⟩ := loop_blocks (baseDec p) (fun t => t.Inv p ∧ t.mode = s.mode) p.bs m hP
    (fun a b a' c => c = baseDecOf p (decide (s.mode = .cbccts)) b a.iv ∧
      a' = { a with iv := if s.mode = .cbccts then b else a.iv })
    (fun a b ha _ => by
      rw [baseDec_eq, ha.2]
      exact ⟨rfl, rfl⟩) s ⟨hi, rfl⟩ lead hl
  have hiv : ∀ k, k ≤ m → st k = { s with
      iv := if s.mode = .cbccts then chainBefore p s.iv lead k else s.iv } := by
    intro k
    induction k with
    | zero => intro _; rw [h0]; simp [chainBefore]
    | succ k ih =>
      intro hk
      rw [(hst k (by omega)).2, ih (by omega)]
      by_cases h : s.mode = .cbccts <;> simp [h, chainBefore]
  refine ⟨by rw [← hend]; exact hiv m le_rfl, hlen, fun k hk => ?_⟩
  rw [(hst k hk).1, hiv k (by omega)]
  by_cases h : s.mode = .cbccts <;> simp [h, baseDecOf]

/-- R243: the last two blocks of ENC. -/
theorem ctsStealEnc_eq (s : State) (pa pb : Bytes) :
    (ctsStealEnc p s pa pb).2 = arrange p s.variant pb.length
      (slice (baseEncOf p (decide (s.mode = .cbccts)) pa s.iv) 0 pb.length)
      (if s.mode = .cbccts then
        p.E (xorBytes (pb ++ zeros (p.bs - pb.length)) (baseEncOf p (decide (s.mode = .cbccts)) pa s.iv))
      else p.E (pb ++ slice (baseEncOf p (decide (s.mode = .cbccts)) pa s.iv) pb.length p.bs)) := by
  simp only [ctsStealEnc, baseEnc_eq]

theorem cts_lenOk (s : State) (n : Nat) (hm : s.mode = .cbccts ∨ s.mode = .ecbcts) (h : p.bs ≤ n) :
    s.mode ≠ .none ∧ lenOk p s n = true := by
  rcases hm with hm | hm <;> simp [lenOk, hm, h]

theorem transformArm_cts (encrypt : Bool) (s : State) (data : Bytes) (hm : s.mode = .cbccts ∨ s.mode = .ecbcts) :
    transformArm p encrypt s data = if encrypt then ctsEncArm p s data else ctsDecArm p s data := by
  rcases hm with hm | hm <;> cases encrypt <;> simp [transformArm, encArm, decArm, hm]

end Sys2Proof.Machine
end

