-- ==== Sys2Proof/Laws/PerInstr.lean ====
section
/-! SUPPORT. Laws about every command as syntax, one lemma per constructor. EncodedIsFramed: the packet of an encodable command
holds exactly the words and bytes its words announce (30_encoding.md R70, R84). -/

namespace Sys2Proof.Laws.EncodedIsFramed

open Sys2Proof Sys2Proof.Machine

def Statement (i : Instr) : Prop := i.wellFormed = true → (encode i).WellFramed

/-- Format I with the opcode 1 or 2 (R72). -/
theorem formatI (opc mode sub : Nat) (seg : Byte) (pay : Bytes) (ho : opc = 1 ∨ opc = 2) (hm : mode < 16) (hs : sub < 16)
    (hp : pay.length < 256) : (encodeI (opc * 2 ^ 28 + mode * 2 ^ 24 + sub * 2 ^ 20) seg pay).WellFramed := by
  have h := fields_fieldsWord opc mode sub seg.toNat 0 pay.length (by omega) hm hs seg.isLt (by decide) hp
  rw [encodeI_fields]
  exact wellFramed_payload _ _ (by rw [h.1]; omega) h.2.2.2.2.2.symm

theorem payload_lt (i : Instr) (h : i.wellFormed = true) : i.payload.length < 256 := by
  simp only [Instr.wellFormed, Bool.and_eq_true, decide_eq_true_eq] at h; omega

theorem data_lt (i : Instr) (h : i.wellFormed = true) : i.inputData.length < 2 ^ 32 := by
  simp only [Instr.wellFormed, Bool.and_eq_true, decide_eq_true_eq] at h; exact h.2

/-- Format D (R73). -/
theorem formatD (w olen : Word) (data : Bytes) (ho : opcOf w = 3 ∨ opcOf w = 4) (hd : data.length < 2 ^ 32) :
    (encodeD w olen data).WellFramed :=
  ⟨w, [BitVec.ofNat 32 data.length, olen], rfl, .inr (.inl ⟨ho, _, _, rfl, by
    show data.length = (BitVec.ofNat 32 data.length).toNat
    rw [BitVec.toNat_ofNat, Nat.mod_eq_of_lt hd]⟩)⟩

theorem initCtr32be (pay : Bytes) : Statement (.initCtr32be pay) := fun h =>
  formatI 1 1 0 0 pay (.inl rfl) (by decide) (by decide) (payload_lt _ h)

theorem initCtr32le (pay : Bytes) : Statement (.initCtr32le pay) := fun h =>
  formatI 1 1 1 0 pay (.inl rfl) (by decide) (by decide) (payload_lt _ h)

theorem initCtr64be (pay : Bytes) : Statement (.initCtr64be pay) := fun h =>
  formatI 1 1 2 0 pay (.inl rfl) (by decide) (by decide) (payload_lt _ h)

theorem initCtr64le (pay : Bytes) : Statement (.initCtr64le pay) := fun h =>
  formatI 1 1 3 0 pay (.inl rfl) (by decide) (by decide) (payload_lt _ h)

theorem initCtr128be (pay : Bytes) : Statement (.initCtr128be pay) := fun h =>
  formatI 1 1 4 0 pay (.inl rfl) (by decide) (by decide) (payload_lt _ h)

theorem initCtr128le (pay : Bytes) : Statement (.initCtr128le pay) := fun h =>
  formatI 1 1 5 0 pay (.inl rfl) (by decide) (by decide) (payload_lt _ h)

theorem initBelt (pay : Bytes) : Statement (.initBelt pay) := fun h =>
  formatI 1 1 6 0 pay (.inl rfl) (by decide) (by decide) (payload_lt _ h)

theorem initCbc (pay : Bytes) : Statement (.initCbc pay) := fun h =>
  formatI 1 2 0 0 pay (.inl rfl) (by decide) (by decide) (payload_lt _ h)

theorem initCfb (pay : Bytes) : Statement (.initCfb pay) := fun h =>
  formatI 1 3 0 0 pay (.inl rfl) (by decide) (by decide) (payload_lt _ h)

theorem initCfb8 (pay : Bytes) : Statement (.initCfb8 pay) := fun h =>
  formatI 1 4 0 0 pay (.inl rfl) (by decide) (by decide) (payload_lt _ h)

theorem initCfbs (seg : Byte) (pay : Bytes) : Statement (.initCfbs seg pay) := fun h =>
  formatI 1 5 0 seg pay (.inl rfl) (by decide) (by decide) (payload_lt _ h)

theorem initOfb (pay : Bytes) : Statement (.initOfb pay) := fun h =>
  formatI 1 6 0 0 pay (.inl rfl) (by decide) (by decide) (payload_lt _ h)

theorem initPcbc (pay : Bytes) : Statement (.initPcbc pay) := fun h =>
  formatI 1 7 0 0 pay (.inl rfl) (by decide) (by decide) (payload_lt _ h)

theorem initIge (pay : Bytes) : Statement (.initIge pay) := fun h =>
  formatI 1 8 0 0 pay (.inl rfl) (by decide) (by decide) (payload_lt _ h)

theorem initXts (pay : Bytes) : Statement (.initXts pay) := fun h =>
  formatI 1 9 0 0 pay (.inl rfl) (by decide) (by decide) (payload_lt _ h)

theorem initCbccs1 (pay : Bytes) : Statement (.initCbccs1 pay) := fun h =>
  formatI 1 10 1 0 pay (.inl rfl) (by decide) (by decide) (payload_lt _ h)

theorem initCbccs2 (pay : Bytes) : Statement (.initCbccs2 pay) := fun h =>
  formatI 1 10 2 0 pay (.inl rfl) (by decide) (by decide) (payload_lt _ h)

theorem initCbccs3 (pay : Bytes) : Statement (.initCbccs3 pay) := fun h =>
  formatI 1 10 3 0 pay (.inl rfl) (by decide) (by decide) (payload_lt _ h)

theorem initEcbcs1 (pay : Bytes) : Statement (.initEcbcs1 pay) := fun h =>
  formatI 1 11 1 0 pay (.inl rfl) (by decide) (by decide) (payload_lt _ h)

theorem initEcbcs2 (pay : Bytes) : Statement (.initEcbcs2 pay) := fun h =>
  formatI 1 11 2 0 pay (.inl rfl) (by decide) (by decide) (payload_lt _ h)

theorem initEcbcs3 (pay : Bytes) : Statement (.initEcbcs3 pay) := fun h =>
  formatI 1 11 3 0 pay (.inl rfl) (by decide) (by decide) (payload_lt _ h)

theorem ldstCbc (pay : Bytes) : Statement (.ldstCbc pay) := fun h =>
  formatI 2 2 0 0 pay (.inr rfl) (by decide) (by decide) (payload_lt _ h)

theorem ldstCfb (pay : Bytes) : Statement (.ldstCfb pay) := fun h =>
  formatI 2 3 0 0 pay (.inr rfl) (by decide) (by decide) (payload_lt _ h)

theorem ldstCfb8 (pay : Bytes) : Statement (.ldstCfb8 pay) := fun h =>
  formatI 2 4 0 0 pay (.inr rfl) (by decide) (by decide) (payload_lt _ h)

theorem ldstCfbs (seg : Byte) (pay : Bytes) : Statement (.ldstCfbs seg pay) := fun h =>
  formatI 2 5 0 seg pay (.inr rfl) (by decide) (by decide) (payload_lt _ h)

theorem ldstOfb (pay : Bytes) : Statement (.ldstOfb pay) := fun h =>
  formatI 2 6 0 0 pay (.inr rfl) (by decide) (by decide) (payload_lt _ h)

theorem ldstPcbc (pay : Bytes) : Statement (.ldstPcbc pay) := fun h =>
  formatI 2 7 0 0 pay (.inr rfl) (by decide) (by decide) (payload_lt _ h)

theorem ldstIge (pay : Bytes) : Statement (.ldstIge pay) := fun h =>
  formatI 2 8 0 0 pay (.inr rfl) (by decide) (by decide) (payload_lt _ h)

theorem ldstXts (pay : Bytes) : Statement (.ldstXts pay) := fun h =>
  formatI 2 9 0 0 pay (.inr rfl) (by decide) (by decide) (payload_lt _ h)

theorem enc (olen : Word) (data : Bytes) : Statement (.enc olen data) := fun h =>
  formatD _ olen data (.inl (by decide)) (data_lt _ h)

theorem dec (olen : Word) (data : Bytes) : Statement (.dec olen data) := fun h =>
  formatD _ olen data (.inr (by decide)) (data_lt _ h)

theorem seek (blk : BitVec 128) (off : Byte) : Statement (.seek blk off) := fun _ =>
  wellFramed_payload _ _ (.inr (.inr (by decide))) (by rw [List.length_append, length_leBytes]; show 17 = plenOf 0x50000011#32; decide)

theorem getpos : Statement .getpos := fun _ => ⟨0x60000000#32, [], rfl, .inr (.inr ⟨.inr (by decide), rfl, rfl⟩)⟩

theorem getrem : Statement .getrem := fun _ => ⟨0x70000000#32, [], rfl, .inr (.inr ⟨.inr (by decide), rfl, rfl⟩)⟩

theorem getst : Statement .getst := fun _ => ⟨0x80000000#32, [], rfl, .inr (.inr ⟨.inr (by decide), rfl, rfl⟩)⟩

theorem wipe : Statement .wipe := fun _ => ⟨0x90000000#32, [], rfl, .inr (.inr ⟨.inr (by decide), rfl, rfl⟩)⟩

end Sys2Proof.Laws.EncodedIsFramed
end

