-- ==== Sys2Proof/Laws/Streams.lean ====
section
/-! SUPPORT. OFB as iterated encryption (44_ofb.md R192), and CFB block by block (43_cfb.md R173, R181). -/

namespace Sys2Proof.Machine

variable {p : Params}

/-- R192: from a block boundary. -/
theorem ofb_view (hv : p.Valid) (data : Bytes) (s : State) (hp : s.pos = 0) :
    (fold (ofbByte p) s data).1.pos.toNat = data.length % p.bs ∧
    (fold (ofbByte p) s data).1.iv = p.E^[ceilDiv data.length p.bs] s.iv ∧
    ∀ q, q < data.length → (fold (ofbByte p) s data).2.getD q 0 =
      data.getD q 0 ^^^ (p.E^[q / p.bs + 1] s.iv).getD (q % p.bs) 0 := by
  have hb := hv.bs_pos
  have hceil : ∀ j, ceilDiv j p.bs = j / p.bs + if j % p.bs = 0 then 0 else 1 := by
    intro j
    have hdm := Nat.div_add_mod j p.bs
    have hlt := Nat.mod_lt j hb
    have e : j + p.bs - 1 = p.bs * (j / p.bs) + (j % p.bs + p.bs - 1) := by omega
    rw [ceilDiv, e, Nat.mul_add_div hb]
    congr 1
    split
    · exact Nat.div_eq_of_lt (by omega)
    · rename_i h
      have : j % p.bs + p.bs - 1 = p.bs + (j % p.bs - 1) := by omega
      rw [this, Nat.add_div_left _ hb, Nat.div_eq_of_lt (by omega)]
  have key : ∀ j, j ≤ data.length → (stateAt (ofbByte p) s data j).pos.toNat = j % p.bs ∧
      (stateAt (ofbByte p) s data j).iv = p.E^[ceilDiv j p.bs] s.iv := by
    intro j
    induction j with
    | zero =>
      intro _
      have : ceilDiv 0 p.bs = 0 := by simp [hceil]
      simp [hp, this]
    | succ j ih =>
      intro hj
      obtain ⟨i1, i2⟩ := ih (by omega)
      rw [stateAt_succ _ _ _ j (by omega)]
      have hz : (stateAt (ofbByte p) s data j).pos = 0 ↔ j % p.bs = 0 := by rw [byte_eq_zero_iff, i1]
      have hpos : (ofbRefill p (stateAt (ofbByte p) s data j)).pos = (stateAt (ofbByte p) s data j).pos := by
        simp only [ofbRefill]; split <;> rfl
      refine ⟨?_, ?_⟩
      · simp only [ofbByte, toNat_nextPos p hv, hpos, i1, Nat.mod_add_mod]
      · simp only [ofbByte, ofbRefill, hz]
        have hstep : ceilDiv (j + 1) p.bs = ceilDiv j p.bs + if j % p.bs = 0 then 1 else 0 := by
          have e : ceilDiv (j + 1) p.bs = j / p.bs + 1 := by
            rw [ceilDiv, show j + 1 + p.bs - 1 = j + p.bs by omega, Nat.add_div_right _ hb]
          rw [e, hceil]; split <;> rfl
        split
        · rename_i h
          rw [hstep, if_pos h, Function.iterate_succ_apply', i2]
        · rename_i h
          rw [hstep, if_neg h, Nat.add_zero, i2]
  have hend := key data.length le_rfl
  rw [stateAt_length] at hend
  refine ⟨hend.1, hend.2, fun q hq => ?_⟩
  rw [getD_fold _ _ _ _ ofbByte_out q hq, List.getD_eq_getElem _ _ hq]
  obtain ⟨i1, i2⟩ := key q (by omega)
  have hz : (stateAt (ofbByte p) s data q).pos = 0 ↔ q % p.bs = 0 := by rw [byte_eq_zero_iff, i1]
  have hpos : (ofbRefill p (stateAt (ofbByte p) s data q)).pos = (stateAt (ofbByte p) s data q).pos := by
    simp only [ofbRefill]; split <;> rfl
  rw [hpos, i1]
  congr 2
  simp only [ofbRefill, hz]
  split
  · rename_i h
    simp only [i2, hceil, h, if_true, Nat.add_zero, Function.iterate_succ_apply']
  · rename_i h
    simp only [i2, hceil, h, if_false]

/-- CFB inside one block: the bytes used so far are ciphertext, the rest keystream (10_state.md R32). -/
theorem cfb_run (hv : p.Valid) (encrypt : Bool) (data : Bytes) (s : State) (hfb : s.fb.length = p.bs)
    (hq : s.pos.toNat + data.length ≤ p.bs) (hq' : s.pos.toNat < p.bs) :
    (fold (if encrypt then cfbEncByte p else cfbDecByte p) s data).2 = xorBytes data (s.fb.drop s.pos.toNat) ∧
    (s.pos.toNat + data.length < p.bs → (fold (if encrypt then cfbEncByte p else cfbDecByte p) s data).1 =
      { s with
        fb := s.fb.take s.pos.toNat ++ (if encrypt then xorBytes data (s.fb.drop s.pos.toNat) else data) ++
          s.fb.drop (s.pos.toNat + data.length)
        pos := BitVec.ofNat 8 (s.pos.toNat + data.length) }) ∧
    (s.pos.toNat + data.length = p.bs → (fold (if encrypt then cfbEncByte p else cfbDecByte p) s data).1 =
      { s with
        fb := p.E (s.fb.take s.pos.toNat ++ if encrypt then xorBytes data (s.fb.drop s.pos.toNat) else data)
        pos := 0 }) := by
  induction data generalizing s with
  | nil =>
    refine ⟨by simp [xorBytes], fun _ => ?_, fun h => ?_⟩
    · cases encrypt <;> simp [xorBytes]
    · simp at h; omega
  | cons b data ih =>
    simp only [List.length_cons] at hq
    have hdrop : s.fb.drop s.pos.toNat = s.fb.getD s.pos.toNat 0 :: s.fb.drop (s.pos.toNat + 1) := by
      rw [List.getD_eq_getElem _ _ (by omega)]
      exact List.drop_eq_getElem_cons (by omega)
    have hset : ∀ c, (s.fb.set s.pos.toNat c).take (s.pos.toNat + 1) = s.fb.take s.pos.toNat ++ [c] := by
      intro c
      rw [List.set_eq_take_append_cons_drop, if_pos (by omega)]
      have : (s.fb.take s.pos.toNat).length = s.pos.toNat := by simp; omega
      rw [show s.pos.toNat + 1 = (s.fb.take s.pos.toNat).length + 1 by omega, List.take_length_add_append]
      simp
    have hset' : ∀ c k, s.pos.toNat + 1 ≤ k → (s.fb.set s.pos.toNat c).drop k = s.fb.drop k := by
      intro c k hk
      rw [List.drop_set_of_lt (by omega)]
    have hfull : ∀ c, s.pos.toNat + 1 = p.bs → s.fb.set s.pos.toNat c = s.fb.take s.pos.toNat ++ [c] := by
      intro c h
      have := hset c
      rwa [h, List.take_of_length_le (by simp [hfb])] at this
    rw [fold_cons]
    generalize hf : (if encrypt then cfbEncByte p else cfbDecByte p) = f at *
    have h1 : (f s b).2 = [b ^^^ s.fb.getD s.pos.toNat 0] := by cases encrypt <;> subst hf <;> rfl
    have h2 : (f s b).1 = cfbFeed p s (if encrypt then b ^^^ s.fb.getD s.pos.toNat 0 else b) := by
      cases encrypt <;> subst hf <;> rfl
    by_cases hlast : s.pos.toNat + 1 = p.bs
    · have hnil : data = [] := by rw [← List.length_eq_zero_iff]; omega
      subst hnil
      refine ⟨?_, fun h => ?_, fun _ => ?_⟩
      · simp [h1, hdrop, xorBytes]
      · simp at h; omega
      · simp only [fold_nil, h2, cfbFeed, hlast, if_true, hfull _ hlast, hdrop]
        cases encrypt <;> simp [xorBytes]
    · have h3 : (f s b).1 = { s with
          fb := s.fb.set s.pos.toNat (if encrypt then b ^^^ s.fb.getD s.pos.toNat 0 else b)
          pos := BitVec.ofNat 8 (s.pos.toNat + 1) } := by simp only [h2, cfbFeed, hlast, if_false]
      have hp : (f s b).1.pos.toNat = s.pos.toNat + 1 := by rw [h3]; exact toNat_pos p hv _ (by omega)
      have hfb' : (f s b).1.fb = s.fb.set s.pos.toNat (if encrypt then b ^^^ s.fb.getD s.pos.toNat 0 else b) := by rw [h3]
      obtain ⟨i1, i2, i3⟩ := ih (f s b).1 (by simp [hfb', hfb]) (by omega) (by omega)
      rw [hp, hfb', hset' _ _ le_rfl] at i1 i2 i3
      rw [hset] at i2 i3
      refine ⟨?_, fun h => ?_, fun h => ?_⟩
      · rw [i1, h1, hdrop]; rfl
      · rw [List.length_cons] at h
        simp only
        rw [i2 (by omega), hset' _ _ (by omega), h3, hdrop]
        have e : s.pos.toNat + (b :: data).length = s.pos.toNat + 1 + data.length := by simp; omega
        rw [e]
        cases encrypt <;> simp [xorBytes]
      · rw [List.length_cons] at h
        simp only
        rw [i3 (by omega), h3, hdrop]
        cases encrypt <;> simp [xorBytes]

/-- R173: CFB on one whole block from a block boundary. -/
theorem cfb_block (hv : p.Valid) (encrypt : Bool) (data : Bytes) (s : State) (hfb : s.fb.length = p.bs) (hp : s.pos = 0)
    (hd : data.length = p.bs) :
    (fold (if encrypt then cfbEncByte p else cfbDecByte p) s data).2 = xorBytes data s.fb ∧
    (fold (if encrypt then cfbEncByte p else cfbDecByte p) s data).1 =
      { s with fb := p.E (if encrypt then xorBytes data s.fb else data), pos := 0 } := by
  have h0 : s.pos.toNat = 0 := by rw [hp]; rfl
  obtain ⟨h1, -, h3⟩ := cfb_run hv encrypt data s hfb (by omega) (by have := hv.bs_pos; omega)
  rw [h0] at h1 h3
  exact ⟨by simpa using h1, by simpa using h3 (by omega)⟩

end Sys2Proof.Machine
end

