-- ==== Sys2Proof/Tests/Slice0.lean ====
section
/-! SUPPORT. Tests: what WellFormed refuses, a word of every row written out from 30_encoding.md R81, the words that are illegal,
vectors of 95_test_vectors.md with its test cipher TOY, and for every statement with hypotheses a witness that meets them. -/

namespace Sys2Proof.Tests

open Sys2Proof Sys2Proof.Machine

/-! ## Well-formedness -/

/-- R71: `PLEN` has 8 bits. -/
theorem test_payload_of_256_bytes_refused : (Instr.initCbc (zeros 256)).wellFormed = false := by decide +kernel

theorem test_payload_of_255_bytes_accepted : (Instr.ldstCfbs 4 (zeros 255)).wellFormed = true := by decide +kernel

/-- R9, R73: `ILEN` has 32 bits. -/
theorem test_data_of_2_pow_32_bytes_refused (data : Bytes) (h : data.length = 2 ^ 32) :
    (Instr.enc 0 data).wellFormed = false ∧ (Instr.dec 0 data).wellFormed = false := by
  simp [Instr.wellFormed, Instr.payload, Instr.inputData, h]

/-! ## Decoding: the words of 95_test_vectors.md section 3 -/

theorem test_decode_init_ctr :
    decode ⟨[0x11000010#32], zeros 16⟩ = .ok (.initCtr32be (zeros 16)) ∧
    decode ⟨[0x11100010#32], zeros 16⟩ = .ok (.initCtr32le (zeros 16)) ∧
    decode ⟨[0x11200010#32], zeros 16⟩ = .ok (.initCtr64be (zeros 16)) ∧
    decode ⟨[0x11300010#32], zeros 16⟩ = .ok (.initCtr64le (zeros 16)) ∧
    decode ⟨[0x11400010#32], zeros 16⟩ = .ok (.initCtr128be (zeros 16)) ∧
    decode ⟨[0x11500010#32], zeros 16⟩ = .ok (.initCtr128le (zeros 16)) ∧
    decode ⟨[0x11600010#32], zeros 16⟩ = .ok (.initBelt (zeros 16)) := by decide

theorem test_decode_init_modes :
    decode ⟨[0x12000010#32], zeros 16⟩ = .ok (.initCbc (zeros 16)) ∧
    decode ⟨[0x13000010#32], zeros 16⟩ = .ok (.initCfb (zeros 16)) ∧
    decode ⟨[0x14000010#32], zeros 16⟩ = .ok (.initCfb8 (zeros 16)) ∧
    decode ⟨[0x15004010#32], zeros 16⟩ = .ok (.initCfbs 4 (zeros 16)) ∧
    decode ⟨[0x15010010#32], zeros 16⟩ = .ok (.initCfbs 16 (zeros 16)) ∧
    decode ⟨[0x16000010#32], zeros 16⟩ = .ok (.initOfb (zeros 16)) ∧
    decode ⟨[0x17000010#32], zeros 16⟩ = .ok (.initPcbc (zeros 16)) ∧
    decode ⟨[0x18000020#32], zeros 32⟩ = .ok (.initIge (zeros 32)) ∧
    decode ⟨[0x19000010#32], zeros 16⟩ = .ok (.initXts (zeros 16)) := by decide

theorem test_decode_init_cts :
    decode ⟨[0x1A100010#32], zeros 16⟩ = .ok (.initCbccs1 (zeros 16)) ∧
    decode ⟨[0x1A200010#32], zeros 16⟩ = .ok (.initCbccs2 (zeros 16)) ∧
    decode ⟨[0x1A300010#32], zeros 16⟩ = .ok (.initCbccs3 (zeros 16)) ∧
    decode ⟨[0x1B100000#32], []⟩ = .ok (.initEcbcs1 []) ∧
    decode ⟨[0x1B200000#32], []⟩ = .ok (.initEcbcs2 []) ∧
    decode ⟨[0x1B300000#32], []⟩ = .ok (.initEcbcs3 []) := by decide

theorem test_decode_ldst :
    decode ⟨[0x22000011#32], zeros 17⟩ = .ok (.ldstCbc (zeros 17)) ∧
    decode ⟨[0x23000011#32], zeros 17⟩ = .ok (.ldstCfb (zeros 17)) ∧
    decode ⟨[0x24000011#32], zeros 17⟩ = .ok (.ldstCfb8 (zeros 17)) ∧
    decode ⟨[0x25004011#32], zeros 17⟩ = .ok (.ldstCfbs 4 (zeros 17)) ∧
    decode ⟨[0x26000011#32], zeros 17⟩ = .ok (.ldstOfb (zeros 17)) ∧
    decode ⟨[0x27000011#32], zeros 17⟩ = .ok (.ldstPcbc (zeros 17)) ∧
    decode ⟨[0x28000021#32], zeros 33⟩ = .ok (.ldstIge (zeros 33)) ∧
    decode ⟨[0x29000011#32], zeros 17⟩ = .ok (.ldstXts (zeros 17)) := by decide

/-- R73 to R75: ENC with `W1 = 4`, `W2 = 5` (section 4.1), SEEK with block `0x100000001` and offset 4, and format N. -/
theorem test_decode_other_formats :
    decode ⟨[0x30000000#32, 4#32, 5#32], [0x24, 0x3F, 0x6A, 0x88]⟩ = .ok (.enc 5 [0x24, 0x3F, 0x6A, 0x88]) ∧
    decode ⟨[0x40000000#32, 1#32, 1#32], [0xAF]⟩ = .ok (.dec 1 [0xAF]) ∧
    decode ⟨[0x50000011#32], [1, 0, 0, 0, 1, 0, 0, 0, 0, 0, 0, 0, 0, 0, 0, 0, 4]⟩ = .ok (.seek 0x100000001#128 4) ∧
    decode ⟨[0x60000000#32], []⟩ = .ok .getpos ∧
    decode ⟨[0x70000000#32], []⟩ = .ok .getrem ∧
    decode ⟨[0x80000000#32], []⟩ = .ok .getst ∧
    decode ⟨[0x90000000#32], []⟩ = .ok .wipe := by decide

/-- R83, R84: the illegal words of section 3. (CFBS with SEG 0 or 17 decodes and is refused by the meaning, log entry 8.) -/
theorem test_decode_reserved :
    decode ⟨[0x00000000#32], []⟩ = .error .reservedOpcode ∧
    decode ⟨[0xA0000000#32], []⟩ = .error .reservedOpcode ∧
    decode ⟨[0xF0000010#32], []⟩ = .error .reservedOpcode ∧
    decode ⟨[0x10000010#32], zeros 16⟩ = .error .reservedField ∧
    decode ⟨[0x1C000010#32], zeros 16⟩ = .error .reservedField ∧
    decode ⟨[0x11700010#32], zeros 16⟩ = .error .reservedField ∧
    decode ⟨[0x12100010#32], zeros 16⟩ = .error .reservedField ∧
    decode ⟨[0x1A000010#32], zeros 16⟩ = .error .reservedField ∧
    decode ⟨[0x1B400000#32], []⟩ = .error .reservedField ∧
    decode ⟨[0x12004010#32], zeros 16⟩ = .error .reservedField ∧
    decode ⟨[0x12000110#32], zeros 16⟩ = .error .reservedField ∧
    decode ⟨[0x21000011#32], zeros 17⟩ = .error .reservedField ∧
    decode ⟨[0x22100011#32], zeros 17⟩ = .error .reservedField ∧
    decode ⟨[0x30000001#32, 2#32, 2#32], [0, 0]⟩ = .error .reservedField ∧
    decode ⟨[0x50000010#32], zeros 16⟩ = .error .reservedField ∧
    decode ⟨[0x60000001#32], []⟩ = .error .reservedField := by decide

/-- R57: counts that differ from what the words announce. -/
theorem test_decode_malformed :
    decode ⟨[], []⟩ = .error .noCommandWord ∧
    decode ⟨[0x12000010#32], zeros 15⟩ = .error .byteCount ∧
    decode ⟨[0x30000000#32, 2#32], [0, 0]⟩ = .error .wordCount ∧
    decode ⟨[0x90000000#32], [0]⟩ = .error .byteCount := by decide

theorem test_table_words :
    decodeTableWord 32 0x12000010 = some (.initCbc (zeros 16)) ∧ decodeTableWord 32 0x30000000 = some (.enc 0 []) ∧
    decodeTableWord 32 0x50000011 = some (.seek 0 0) ∧ decodeTableWord 32 0x00000000 = none := by decide

/-! ## The test cipher TOY and the constants of 95_test_vectors.md section 2 -/

/-- The `n`-byte string written as a hexadecimal numeral, first byte leftmost (00_scope.md R11). -/
def hex (n v : Nat) : Bytes := (List.range n).map fun i => BitVec.ofNat 8 (v / 256 ^ (n - 1 - i))

def rotl8 (v : Byte) (n : Nat) : Byte := BitVec.ofNat 8 (v.toNat * 2 ^ n % 256 + v.toNat / 2 ^ (8 - n))

def toyE (k b : Bytes) : Bytes := (List.range 16).map fun i => rotl8 (b.getD ((i + 5) % 16) 0) 3 + k.getD i 0

def toyD (k b : Bytes) : Bytes := (List.range 16).map fun j =>
  rotl8 (b.getD ((j + 11) % 16) 0 - k.getD ((j + 11) % 16) 0) 5

def K : Bytes := hex 16 0xC0AC29B7C97C50DD3F84D5B5B5470917
def K2 : Bytes := hex 16 0x2FFD72DBD01ADFB7B8E1AFED6A267E96
def IV0 : Bytes := hex 16 0x9216D5D98979FB1BD1310BA698DFB5AC
def IV1 : Bytes := hex 16 0xBA7C9045F12C7F9924A19947B3916CF7

/-- `P0[0..n)`, for `n` at most 32. -/
def P0 (n : Nat) : Bytes := (hex 32 0x243F6A8885A308D313198A2E03707344A4093822299F31D0082EFA98EC4E6C89).take n

def toy (rem : Nat) (short : ShortPos) : Params := ⟨16, toyE K, toyD K, toyE K2, rem, short, fun _ => 0⟩

def Toy : Params := toy 64 .penultimate

/-- The state after a command on the TOY engine, without its response. -/
def after (i : Instr) (s : State) (p : Params := Toy) : State :=
  match execOn p i s with
  | .next t => { t with resp := none }
  | .fault _ => s
  | .refused _ => s

/-- The response to a command on the TOY engine. -/
def answer (i : Instr) (s : State) (p : Params := Toy) : Option Response :=
  match execOn p i s with
  | .next t => t.resp
  | .fault _ => none
  | .refused _ => none

def encOf (data : Bytes) : Instr := .enc (BitVec.ofNat 32 data.length) data
def decOf (data : Bytes) : Instr := .dec (BitVec.ofNat 32 data.length) data

def ok (out : Bytes) : Option Response := some ⟨0, out⟩

/-- Section 2: single blocks through E, D and T. -/
theorem test_toy : toyE K IV0 = hex 16 0x8B8B014552D485A13D313A4965F5D763 ∧ toyD K IV0 = hex 16 0x3E7C1395B25A4D954418BF75C752B5C6 ∧
    toyE K2 IV0 = hex 16 0xFADC4A695972147BB68E14811AD44CE2 := by decide +kernel

/-! ## CTR (sections 5.1 to 5.4) -/

/-- Section 5.1: `block_for(NONCE, 2)` of the nonces whose segment wraps there, and BELT's block 0 of a nonce of ones. -/
theorem test_counter_blocks_wrap :
    blockFor Toy .ctr32be (hex 16 0x000102030405060708090A0BFFFFFFFE) 2 = hex 16 0x000102030405060708090A0B00000000 ∧
    blockFor Toy .ctr32le (hex 16 0xFEFFFFFF0405060708090A0B0C0D0E0F) 2 = hex 16 0x000000000405060708090A0B0C0D0E0F ∧
    blockFor Toy .ctr64be (hex 16 0x0001020304050607FFFFFFFFFFFFFFFE) 2 = hex 16 0x00010203040506070000000000000000 ∧
    blockFor Toy .ctr64le (hex 16 0xFEFFFFFFFFFFFFFF08090A0B0C0D0E0F) 2 = hex 16 0x000000000000000008090A0B0C0D0E0F ∧
    blockFor Toy .ctr128be (hex 16 0xFFFFFFFFFFFFFFFFFFFFFFFFFFFFFFFE) 2 = zeros 16 ∧
    blockFor Toy .ctr128le (hex 16 0xFEFFFFFFFFFFFFFFFFFFFFFFFFFFFFFF) 2 = zeros 16 ∧
    blockFor Toy .belt (hex 16 0xFFFFFFFFFFFFFFFFFFFFFFFFFFFFFFFF) 0 = zeros 16 := by decide +kernel

/-- R132: INIT keeps the nonce; BELT its encryption. -/
theorem test_init_ctr : (after (.initCtr32be IV0) .reset).nonce = IV0 ∧ (after (.initCtr64le IV0) .reset).flavor = .ctr64le ∧
    (after (.initBelt IV0) .reset).nonce = hex 16 0x8B8B014552D485A13D313A4965F5D763 := by decide +kernel

def ctrState : State := after (encOf (P0 20)) (after (.initCtr32be IV0) .reset)

/-- Section 5.3: 20 bytes, then the position, the count and the rest of the block. -/
theorem test_ctr_enc : answer (encOf (P0 20)) (after (.initCtr32be IV0) .reset) =
      ok (hex 20 0xAFB46BCDD7778D722E28B0676685A4272F823967) ∧
    ctrState.ctr = 2 ∧ ctrState.pos = 4 ∧ ctrState.ksbuf = hex 16 0x8B8B014552D485A13D31424965F5D763 ∧
    answer (decOf (hex 4 0x299F31D0)) ctrState = ok (hex 4 0x7B4BB471) := by decide +kernel

theorem test_belt_enc : answer (encOf (P0 20)) (after (.initBelt IV0) .reset) =
    ok (hex 20 0x42E75C28D7EE92DBFD5B7A37123F40EDC2D10E82) := by decide +kernel

theorem test_getpos : answer .getpos ctrState = ok (hex 17 0x0100000000000000000000000000000004) := by decide +kernel

theorem test_getrem : answer .getrem ctrState = ok (hex 16 0xFDFFFFFF000000000000000000000000) ∧
    answer .getrem { ctrState with flavor := .ctr128be } = ok (hex 16 0xFFFFFFFFFFFFFFFF0000000000000000) ∧
    answer .getrem { ctrState with flavor := .ctr64be } (toy 32 .last) = ok (hex 16 0xFFFFFFFF000000000000000000000000) := by
  decide +kernel

theorem test_seek : after (.seek 1 4) ctrState = ctrState ∧ (after (.seek 0x100000001 0) ctrState).ctr = 1 ∧
    answer (.seek 0 16) ctrState = some ⟨3, []⟩ ∧
    (after (encOf (zeros 32)) (after (.seek 0xFFFFFFFF 0) ctrState)).ctr = 1 := by decide +kernel

/-! ## The block and feedback modes (sections 6 to 8) -/

theorem test_cbc :
    answer (encOf (P0 32)) (after (.initCbc IV0) .reset) =
      ok (hex 32 0x964B6FCD0A8894B9BCBA1C6AFE44937778D9745C6DB3E76D8F83CC46C7018830) ∧
    answer (decOf (hex 32 0x964B6FCD0A8894B9BCBA1C6AFE44937778D9745C6DB3E76D8F83CC46C7018830))
      (after (.initCbc IV0) .reset) = ok (P0 32) := by decide +kernel

/-- Section 4.1: the statuses of ENC and INIT, which leave the engine as it was. -/
theorem test_cbc_errors : answer (.enc 5 (P0 4)) .reset = some ⟨3, []⟩ ∧
    answer (.enc 15 (P0 16)) (after (.initCbc IV0) .reset) = some ⟨1, []⟩ ∧
    answer (encOf (P0 17)) (after (.initCbc IV0) .reset) = some ⟨1, []⟩ ∧
    answer (.initCbc (IV0.take 15)) .reset = some ⟨2, []⟩ ∧
    after (encOf (P0 17)) (after (.initCbc IV0) .reset) = after (.initCbc IV0) .reset := by decide +kernel

theorem test_cfb :
    answer (encOf (P0 20)) (after (.initCfb IV0) .reset) = ok (hex 20 0xAFB46BCDD7778D722E28B0676685A427DF11840A) ∧
    (after (encOf (P0 20)) (after (.initCfb IV0) .reset)).fb = hex 16 0xDF11840A0A018B106BA90E325AA277D5 ∧
    answer (decOf (hex 20 0xAFB46BCDD7778D722E28B0676685A427DF11840A)) (after (.initCfb IV0) .reset) = ok (P0 20) := by
  decide +kernel

theorem test_cfb8 : answer (encOf (P0 3)) (after (.initCfb8 IV0) .reset) = ok (hex 3 0xAFA0F2) ∧
    (after (encOf (P0 3)) (after (.initCfb8 IV0) .reset)).iv = hex 16 0xD98979FB1BD1310BA698DFB5ACAFA0F2 ∧
    answer (decOf (hex 3 0xAFA0F2)) (after (.initCfb8 IV0) .reset) = ok (P0 3) := by decide +kernel

theorem test_cfbs : answer (encOf (P0 8)) (after (.initCfbs 4 IV0) .reset) = ok (hex 8 0xAFB46BCDCCA756A8) ∧
    (after (encOf (P0 8)) (after (.initCfbs 4 IV0) .reset)).iv = hex 16 0xD1310BA698DFB5ACAFB46BCDCCA756A8 ∧
    answer (decOf (hex 8 0xAFB46BCDCCA756A8)) (after (.initCfbs 4 IV0) .reset) = ok (P0 8) ∧
    answer (encOf (P0 6)) (after (.initCfbs 4 IV0) .reset) = some ⟨1, []⟩ := by decide +kernel

theorem test_cfbs_seg_range : answer (.initCfbs 0 IV0) .reset = some ⟨3, []⟩ ∧ answer (.initCfbs 17 IV0) .reset = some ⟨3, []⟩ ∧
    answer (.initCfbs 16 IV0) .reset = ok [] := by decide +kernel

theorem test_ofb :
    answer (encOf (P0 20)) (after (.initOfb IV0) .reset) = ok (hex 20 0xAFB46BCDD7778D722E28B0676685A427C2D10E82) ∧
    answer .getst (after (encOf (P0 20)) (after (.initOfb IV0) .reset)) =
      ok (hex 17 0x66D836A0524D9A08EE42F011114F33A904) := by decide +kernel

theorem test_pcbc :
    answer (encOf (P0 32)) (after (.initPcbc IV0) .reset) =
      ok (hex 32 0x964B6FCD0A8894B9BCBA1C6AFE4493776519FEF435DF366512E8AA65A030444C) ∧
    (after (encOf (P0 32)) (after (.initPcbc IV0) .reset)).iv = hex 16 0xC110C6D61C4007B51AC650FD4C7E28C5 ∧
    answer (decOf (hex 32 0x964B6FCD0A8894B9BCBA1C6AFE4493776519FEF435DF366512E8AA65A030444C))
      (after (.initPcbc IV0) .reset) = ok (P0 32) := by decide +kernel

theorem test_ige :
    answer (encOf (P0 32)) (after (.initIge (IV0 ++ IV1)) .reset) =
      ok (hex 32 0x2C37FF88FBA4EB20981B852D4DD5FF80BDBDDAB3F7D4F539083997D7A5F52DE9) ∧
    answer .getst (after (encOf (P0 32)) (after (.initIge (IV0 ++ IV1)) .reset)) =
      ok (hex 33 0xBDBDDAB3F7D4F539083997D7A5F52DE9A4093822299F31D0082EFA98EC4E6C8900) ∧
    answer (decOf (hex 32 0x2C37FF88FBA4EB20981B852D4DD5FF80BDBDDAB3F7D4F539083997D7A5F52DE9))
      (after (.initIge (IV0 ++ IV1)) .reset) = ok (P0 32) := by decide +kernel

/-! ## XTS and CTS (sections 9 and 10) -/

theorem test_mulx : mulx (hex 16 0x00112233445566778899AABBCCDDEEFF) = hex 16 0x8722446688AACCEE1033557799BBDDFF ∧
    mulxInv (hex 16 0x01000000000000000000000000000000) = hex 16 0x43000000000000000000000000000080 := by decide +kernel

theorem test_xts :
    answer .getst (after (.initXts IV0) .reset) = ok (hex 17 0xFADC4A695972147BB68E14811AD44CE200) ∧
    answer (encOf (P0 32)) (after (.initXts IV0) .reset) =
      ok (hex 32 0xB450248DDC02D9DED2F31E2ACE9C541FE8CDCF08D0FE0C5D1A2E16710F1C0937) ∧
    answer (decOf (hex 32 0xB450248DDC02D9DED2F31E2ACE9C541FE8CDCF08D0FE0C5D1A2E16710F1C0937))
      (after (.initXts IV0) .reset) = ok (P0 32) := by decide +kernel

theorem test_xts_stealing :
    answer (encOf (P0 20)) (after (.initXts IV0) .reset) = ok (hex 20 0x8482FF7EF2D1B94A8CEF9A710F1C094EB450248D) ∧
    answer (decOf (hex 20 0x8482FF7EF2D1B94A8CEF9A710F1C094EB450248D)) (after (.initXts IV0) .reset) = ok (P0 20) ∧
    answer (encOf (P0 17)) (after (.initXts IV0) .reset) = ok (hex 17 0x8482FF7EF2D1B94A8CEF9A71317C9A4EB4) ∧
    answer (encOf (P0 15)) (after (.initXts IV0) .reset) = some ⟨1, []⟩ := by decide +kernel

theorem test_cts_cbc :
    answer (encOf (P0 20)) (after (.initCbccs1 IV0) .reset) = ok (hex 20 0x964B6FCD0450F69C9E5CA3D461209046C7018867) ∧
    answer (encOf (P0 20)) (after (.initCbccs1 IV0) .reset) (toy 64 .last) =
      ok (hex 20 0x0450F69C9E5CA3D461209046C7018867964B6FCD) ∧
    answer (encOf (P0 20)) (after (.initCbccs2 IV0) .reset) = ok (hex 20 0x0450F69C9E5CA3D461209046C7018867964B6FCD) ∧
    answer (encOf (P0 32)) (after (.initCbccs2 IV0) .reset) =
      ok (hex 32 0x964B6FCD0A8894B9BCBA1C6AFE44937778D9745C6DB3E76D8F83CC46C7018830) ∧
    answer (encOf (P0 32)) (after (.initCbccs3 IV0) .reset) =
      ok (hex 32 0x78D9745C6DB3E76D8F83CC46C7018830964B6FCD0A8894B9BCBA1C6AFE449377) := by decide +kernel

theorem test_cts_cbc_dec :
    answer (decOf (hex 20 0x964B6FCD0450F69C9E5CA3D461209046C7018867)) (after (.initCbccs1 IV0) .reset) = ok (P0 20) ∧
    answer (decOf (hex 32 0x78D9745C6DB3E76D8F83CC46C7018830964B6FCD0A8894B9BCBA1C6AFE449377))
      (after (.initCbccs3 IV0) .reset) = ok (P0 32) := by decide +kernel

theorem test_cts_ecb :
    answer (encOf (P0 20)) (after (.initEcbcs1 []) .reset) = ok (hex 20 0xDDECC74F46BAD8CDC13B065213EEEFDAFD081AA3) ∧
    answer (encOf (P0 17)) (after (.initEcbcs2 []) .reset) = ok (hex 17 0x46BAD8CDC13B065213EEEFDA1C8583A3DD) ∧
    answer (encOf (P0 16)) (after (.initEcbcs3 []) .reset) = ok (hex 16 0xDDECC74F91D0C1F5C21FF7D6AE9A4D43) ∧
    answer (decOf (hex 20 0xDDECC74F46BAD8CDC13B065213EEEFDAFD081AA3)) (after (.initEcbcs1 []) .reset) = ok (P0 20) := by
  decide +kernel

/-! ## LDST, GETST, WIPE and the step (sections 4.2 and 4.4) -/

theorem test_ldst :
    answer (.ldstCbc (IV0 ++ [1])) .reset = some ⟨2, []⟩ ∧ answer (.ldstOfb (IV0 ++ [16])) .reset = some ⟨2, []⟩ ∧
    answer .getst (after (.ldstOfb (IV0 ++ [15])) .reset) = ok (hex 17 0x9216D5D98979FB1BD1310BA698DFB5AC0F) ∧
    answer (encOf (zeros 2)) (after (.ldstOfb (IV0 ++ [15])) .reset) = ok (hex 2 0xAC8B) := by decide +kernel

/-- R118, R175, R234: LDST of CFB and XTS calls no cipher. -/
theorem test_ldst_untransformed :
    (after (.ldstCfb (hex 17 0xDF11840A0A018B106BA90E325AA277D504)) .reset).fb = hex 16 0xDF11840A0A018B106BA90E325AA277D5 ∧
    answer (encOf (hex 12 0x299F31D0082EFA98EC4E6C89)) (after (.ldstCfb (hex 17 0xDF11840A0A018B106BA90E325AA277D504)) .reset) =
      ok (hex 12 0x239EBAC06387F4AAB6EC1B5C) ∧
    (after (.ldstXts (IV1 ++ [0])) .reset).tw = IV1 := by decide +kernel

theorem test_getst_and_wipe : answer .getst .reset = some ⟨3, []⟩ ∧ answer .getst ctrState = some ⟨3, []⟩ ∧
    after .wipe ctrState = .reset ∧ answer .wipe .reset = ok [] := by decide +kernel

/-- Whether a step answers that next state. -/
def nextIs (r : Host.Outcome State Fault Refusal) (t : State) : Bool :=
  match r with
  | .next u => decide (u = t)
  | .fault _ | .refused _ => false

/-- R58: a step takes the oldest command; R57: the host receives the response, then issues the next; R281: a reset input gives no
response. -/
theorem test_step :
    nextIs (stepOn Toy { State.reset with pending := [.command (encode (.initCbc IV0)), .command (encode .getst)] })
      { State.reset with mode := .cbc, iv := IV0, resp := ok [], pending := [.command (encode .getst)] } = true ∧
    nextIs (stepOn Toy { State.reset with resp := ok [1], pending := [.receive, .command (encode .getst)] })
      { State.reset with pending := [.command (encode .getst)] } = true ∧
    nextIs (stepOn Toy { ctrState with resp := ok [], pending := [.reset Option.none] }) .reset = true ∧
    nextIs (stepOn Toy { ctrState with resp := Option.none, pending := [.reset (some (encode .wipe))] }) .reset = true := by
  decide +kernel

/-- R57. -/
theorem test_step_malformed :
    step { State.reset with pending := [.command ⟨[0x12000010#32], []⟩] } = .refused .malformedPacket := rfl

/-- R57: a command while a response is still to be received, and one that a reset input cuts short. -/
theorem test_step_early :
    step { State.reset with resp := ok [], pending := [.command (encode .wipe)] } = .refused .earlyCommand ∧
    step { State.reset with resp := ok [], pending := [.reset (some (encode .wipe))] } = .refused .earlyCommand := ⟨rfl, rfl⟩

/-! ## Witnesses: for each statement with hypotheses, a state and operands that meet them, at the boundaries of each clause -/

/-- The state after a command on this machine. -/
def then' (s : State) (i : Instr) : State :=
  match exec i s with
  | .next t => t
  | .fault _ => s
  | .refused _ => s

theorem exec_then' (i : Instr) (s : State) : exec i s = .next (then' s i) := by
  obtain ⟨t, h⟩ := exec_next i s
  simp only [then', h]

theorem then'_inv (i : Instr) (s : State) (hi : s.Inv) : (then' s i).Inv :=
  execOn_inv Config.params_valid i s _ hi (by rw [execOn_params]; exact exec_then' i s)

theorem reset_inv : State.reset.Inv := State.Inv.clear (s := State.reset) Config.params_valid

abbrev inited (i : Instr) : State := then' State.reset i

theorem inited_inv (i : Instr) : (inited i).Inv := then'_inv i _ reset_inv

def sCtr : State := inited (.initCtr32be (zeros 16))
def sCtrMid : State := then' sCtr (.enc 1 [0])
def sCbc : State := inited (.initCbc (zeros 16))
def sCfb : State := inited (.initCfb (zeros 16))
def sCfb8 : State := inited (.initCfb8 (zeros 16))
def sCfbs : State := inited (.initCfbs 4 (zeros 16))
def sOfb : State := inited (.initOfb (zeros 16))
def sPcbc : State := inited (.initPcbc (zeros 16))
def sIge : State := inited (.initIge (zeros 32))
def sXts : State := inited (.initXts (zeros 16))
def sCbcCs1 : State := inited (.initCbccs1 (zeros 16))
def sEcbCs1 : State := inited (.initEcbcs1 [])

/-- The states above are in the modes their commands name, and in the middle of a block where the name says so. -/
theorem modes_of_states : sCtr.mode = .ctr ∧ sCtr.pos = 0 ∧ sCtrMid.mode = .ctr ∧ sCtrMid.pos = 1 ∧ sCbc.mode = .cbc ∧
    sCfb.mode = .cfb ∧ sCfb8.mode = .cfb8 ∧ sCfbs.mode = .cfbs ∧ sCfbs.seg = 4 ∧ sOfb.mode = .ofb ∧ sOfb.pos = 0 ∧
    sPcbc.mode = .pcbc ∧ sIge.mode = .ige ∧ sXts.mode = .xts ∧ sCbcCs1.mode = .cbccts ∧ sEcbCs1.mode = .ecbcts ∧
    sCbcCs1.variant = .cs1 ∧ sEcbCs1.variant = .cs1 := by
  refine ⟨rfl, rfl, rfl, rfl, rfl, rfl, rfl, rfl, rfl, rfl, rfl, rfl, rfl, rfl, rfl, rfl, rfl, rfl⟩

theorem inv_sCtr : sCtr.Inv := inited_inv (.initCtr32be (zeros 16))
theorem inv_sCbc : sCbc.Inv := inited_inv (.initCbc (zeros 16))
theorem inv_sCfb : sCfb.Inv := inited_inv (.initCfb (zeros 16))
theorem inv_sCfbs : sCfbs.Inv := inited_inv (.initCfbs 4 (zeros 16))
theorem inv_sPcbc : sPcbc.Inv := inited_inv (.initPcbc (zeros 16))
theorem inv_sIge : sIge.Inv := inited_inv (.initIge (zeros 32))
theorem inv_sXts : sXts.Inv := inited_inv (.initXts (zeros 16))
theorem inv_sCbcCs1 : sCbcCs1.Inv := inited_inv (.initCbccs1 (zeros 16))
theorem inv_sEcbCs1 : sEcbCs1.Inv := inited_inv (.initEcbcs1 [])
theorem inv_sCtrMid : sCtrMid.Inv := then'_inv (.enc 1 [0]) _ inv_sCtr

/-! ### Encoding and the step -/

theorem witness_DecodeInvertsEncode : Instr.wipe.wellFormed = true ∧ (Instr.initCfbs 255 (zeros 255)).wellFormed = true ∧
    (Instr.enc 0xFFFFFFFF []).wellFormed = true := by decide +kernel

theorem witness_DecodedPacketIsItsEncoding : decode ⟨[0x90000000#32], []⟩ = .ok .wipe := by decide

/-- A word of each kind of R84, and a state in which its packet is the next thing to take. -/
theorem witness_ReservedWordsAreIllegal :
    (∀ w ∈ [0x00000000#32, 0xA0000000#32, 0xF0000010#32], opcOf w = 0 ∨ 10 ≤ opcOf w) ∧
    (∀ w ∈ [0x12000110#32, 0x10000010#32, 0x1C000010#32, 0x12004010#32, 0x15000010#32, 0x15011010#32, 0x11700010#32,
        0x1A000010#32, 0x1B400000#32, 0x12100010#32, 0x22100011#32, 0x21000011#32, 0x2B000011#32, 0x30000001#32,
        0x90000001#32, 0x50000010#32], ReservedField Config.BS w) ∧
    ((Packet.WellFramed ⟨[0x11700000#32], []⟩) ∧ (State.issueFirst State.reset ⟨[0x11700000#32], []⟩).pending =
      [.command ⟨[0x11700000#32], []⟩] ∧ (State.issueFirst State.reset ⟨[0x11700000#32], []⟩).resp = none) := by
  refine ⟨?_, ?_, ⟨_, _, rfl, .inl ⟨by decide, rfl, by decide⟩⟩, rfl, rfl⟩
  · simp only [List.mem_cons, List.not_mem_nil, or_false, forall_eq_or_imp, forall_eq]
    decide
  · simp only [List.mem_cons, List.not_mem_nil, or_false, forall_eq_or_imp, forall_eq, ReservedField]
    and_intros <;> decide +kernel

/-- Each way a step is refused. -/
theorem witness_OnlyHostErrorsStop :
    ((State.issueFirst State.reset ⟨[0x12000010#32], []⟩).pending = .command ⟨[0x12000010#32], []⟩ :: [] ∧
      (State.issueFirst State.reset ⟨[0x12000010#32], []⟩).resp = none) ∧
    (sCbc.resp ≠ none ∧
      ({ sCbc with pending := [.command (encode .wipe)] } : State).pending = .command (encode .wipe) :: [] ∧
      ({ sCbc with pending := [.reset (some (encode .wipe))] } : State).pending = .reset (some (encode .wipe)) :: []) ∧
    ¬ Packet.WellFramed ⟨[0x12000010#32], []⟩ := by
  refine ⟨⟨rfl, rfl⟩, ⟨by rw [show sCbc.resp = some ⟨0, []⟩ from rfl]; simp, rfl, rfl⟩, ?_⟩
  rintro ⟨w, ws, h, h'⟩
  simp only [List.cons.injEq] at h
  obtain ⟨rfl, rfl⟩ := h
  revert h'
  decide +revert

theorem witness_StepRunsTheDecodedCommand :
    (State.issueFirst State.reset ⟨[0x90000000#32], []⟩).pending = .command ⟨[0x90000000#32], []⟩ :: [] ∧
    (State.issueFirst State.reset ⟨[0x90000000#32], []⟩).resp = none ∧
    decode ⟨[0x90000000#32], []⟩ = .ok .wipe := ⟨rfl, rfl, by decide⟩

theorem witness_TableWordRunsNext : decodeTableWord 32 0x12000010 = some (.initCbc (zeros 16)) := by decide

theorem witness_StepTakesTheOldestEvent :
    State.reset.pending = [] ∧
    ({ sCbc with pending := [.receive] } : State).pending = .receive :: [] ∧
    ({ sCbc with pending := [.reset Option.none] } : State).pending = .reset Option.none :: [] ∧
    (({ sCbc with resp := none, pending := [.reset (some (encode .wipe))] } : State).pending =
      .reset (some (encode .wipe)) :: [] ∧
      ({ sCbc with resp := none, pending := [.reset (some (encode .wipe))] } : State).resp = none) ∧
    ((State.issueFirst State.reset (encode .getst)).pending = .command (encode .getst) :: [] ∧
      ∃ t, step (State.issueFirst State.reset (encode .getst)) = .next t) ∧
    ({ State.reset with pending := exchanges [encode .getst, encode .wipe] } : State).pending =
      exchanges (encode .getst :: [encode .wipe]) ∧
    (encode .getst).WellFramed ∧ State.reset.resp = none :=
  ⟨rfl, rfl, rfl, ⟨rfl, rfl⟩, ⟨rfl, _, rfl⟩, rfl, ⟨_, _, rfl, .inr (.inr ⟨by decide, rfl, rfl⟩)⟩, rfl⟩

/-! ### The whole machine -/

theorem witness_StepKeepsInvariant : Config.params.Valid ∧ (State.issueFirst sCtrMid (encode .getpos)).Inv ∧
    ∃ t, step (State.issueFirst sCtrMid (encode .getpos)) = .next t := by
  have h : sCtrMid.Inv := inv_sCtrMid
  refine ⟨Config.params_valid, ⟨h.nonce_length, h.ksbuf_length, h.iv_length, h.fb_length, h.x_length, h.y_length,
    h.tw_length, h.pos_lt, h.ctr_lt, h.ctr_supported, h.ctr_dead, h.pos_dead, h.seg_range, h.seg_dead, h.variant_range,
    h.variant_dead, h.iv_dead, h.fb_dead, h.xy_dead, h.tw_dead, h.xts_bs, h.ksbuf_is_keystream⟩, _, rfl⟩

theorem witness_UninitialisedEngineProcessesNothing : State.reset.mode = .none := rfl

theorem witness_ErrorsChangeNothing : ∃ t, exec .getpos State.reset = .next t ∧ t.resp = some ⟨3, []⟩ ∧ (3 : Word) ≠ 0 :=
  ⟨_, rfl, rfl, by decide⟩

theorem witness_ResponsesHaveTheirLength : State.reset.Inv ∧ sCtrMid.Inv := ⟨reset_inv, inv_sCtrMid⟩

theorem witness_RegistersAreWrittenByTheirCommandsOnly :
    (∃ t, exec (.transform true 1 [0]) sCbc = .next t) ∧ sCbc.mode.posLive = false ∧ sCbc.mode ≠ .ctr ∧ sCbc.mode ≠ .cfb ∧
    sCbc.mode ≠ .ige ∧ sCbc.mode ≠ .xts ∧ sCtr.mode.ivLive = false ∧
    (∃ t, exec (.seek 1 0) sCtrMid = .next t) ∧ ∃ t, exec .getpos sCtrMid = .next t :=
  ⟨⟨_, exec_then' _ _⟩, rfl, by decide, by decide, by decide, by decide, rfl, ⟨_, exec_then' _ _⟩, _, exec_then' _ _⟩

theorem witness_EncDecChecksAndCompletion :
    State.reset.mode = .none ∧ (sCbc.mode ≠ .none ∧ (15 : Word).toNat ≠ (zeros 16).length) ∧
    (sCbc.mode ≠ .none ∧ (15 : Word).toNat = (zeros 15).length ∧ LengthRefused sCbc 15) ∧
    (sCfbs.mode ≠ .none ∧ LengthRefused sCfbs 5) ∧ (sXts.mode ≠ .none ∧ LengthRefused sXts 15) ∧
    sXts.Inv ∧ sXts.mode ≠ .none ∧ (17 : Word).toNat = (zeros 17).length ∧ ¬ LengthRefused sXts 17 := by
  refine ⟨rfl, ⟨by decide, by decide⟩, ⟨by decide, by decide, .inr (.inl ⟨.inl rfl, by decide⟩)⟩,
    ⟨by decide, .inl ⟨rfl, by decide⟩⟩, ⟨by decide, .inr (.inr ⟨.inl rfl, by decide⟩)⟩, inv_sXts, by decide, by decide, ?_⟩
  rintro (⟨h, -⟩ | ⟨h, -⟩ | ⟨-, h⟩)
  · exact absurd h (by decide)
  · exact absurd h (by decide)
  · exact absurd h (by decide)

/-! ### INIT -/

/-- For every mode code of INIT, a word with a non-zero SUB, SEG or RSV field. -/
theorem witness_InitFieldsMustBeZero :
    ∀ c ∈ [(Mode.cbc, 0x12100010#32), (Mode.ofb, 0x16001010#32), (Mode.pcbc, 0x17000F10#32), (Mode.cfb, 0x13100010#32),
      (Mode.xts, 0x19F00010#32), (Mode.ige, 0x18001020#32)], opcOf c.2 = 1 ∧ field c.2 27 24 = c.1.code ∧
      (field c.2 23 20 ≠ 0 ∨ field c.2 19 12 ≠ 0 ∨ field c.2 11 8 ≠ 0) := by decide

/-- InitStoresTheIv, InitCfbEncryptsTheIv and InitCtrKeepsTheNonce: payloads of the right length and of lengths beside it. -/
theorem witness_InitStoresTheIv : (zeros 16).length = Config.BS ∧ (zeros 15).length ≠ Config.BS ∧
    (zeros 17).length ≠ Config.BS := by decide

theorem witness_InitXtsEncryptsTheTweak : (zeros 16).length = 16 ∧ (zeros 15).length ≠ 16 ∧
    ({ Config.params with bs := 8 } : Params).bs ≠ 16 := ⟨by decide, by decide, by show (8 : Nat) ≠ 16; decide⟩

theorem witness_InitIgeSplitsItsPayload : (zeros 16).length = Config.BS ∧ (zeros 16).length ≠ 2 * Config.BS := by decide

theorem witness_InitCtsSelectsBaseAndVariant :
    (∃ mk, Variant.cs1.initCommand true = some mk) ∧ (∃ mk, Variant.cs3.initCommand false = some mk) ∧
    (zeros 16).length = Config.BS ∧ (zeros 15).length ≠ Config.BS ∧ (zeros 1 : Bytes) ≠ [] ∧
    ∀ w ∈ [0x1A000010#32, 0x1B400000#32, 0x1A101010#32, 0x1B100100#32], opcOf w = 1 ∧
      (field w 27 24 = 10 ∨ field w 27 24 = 11) ∧
      (field w 23 20 = 0 ∨ 3 < field w 23 20 ∨ field w 19 12 ≠ 0 ∨ field w 11 8 ≠ 0) :=
  ⟨⟨_, rfl⟩, ⟨_, rfl⟩, by decide, by decide, by decide, by
    simp only [List.mem_cons, List.not_mem_nil, or_false, forall_eq_or_imp, forall_eq]
    decide⟩

theorem witness_InitCfb8AndCfbsStoreTheRawIv : (zeros 16).length = Config.BS ∧ (zeros 17).length ≠ Config.BS ∧
    (0 : Byte).toNat = 0 ∧ Config.BS < (17 : Byte).toNat ∧ 1 ≤ (1 : Byte).toNat ∧ (1 : Byte).toNat ≤ Config.BS ∧
    1 ≤ (16 : Byte).toNat ∧ (16 : Byte).toNat ≤ Config.BS := by decide

theorem witness_InitCtrKeepsTheNonce : (zeros 16).length = Config.BS ∧ (zeros 0).length ≠ Config.BS ∧
    ∀ w ∈ [0x11700010#32, 0x11F00010#32, 0x11001010#32, 0x11000110#32], opcOf w = 1 ∧ field w 27 24 = 1 ∧
      (7 ≤ field w 23 20 ∨ field w 19 12 ≠ 0 ∨ field w 11 8 ≠ 0) := by
  simp only [List.mem_cons, List.not_mem_nil, or_false, forall_eq_or_imp, forall_eq]
  decide

theorem witness_InitTakesItsFieldsFromTheWord :
    (decode ⟨[0x1A300010#32], zeros 16⟩ = .ok (.initCbccs3 (zeros 16)) ∧ (Instr.initCbccs3 (zeros 16)).isInit = true ∧
      ∃ t, exec (.initCbccs3 (zeros 16)) State.reset = .next t ∧ t.Answers [] ∧ t.mode.variantLive = true) ∧
    decode ⟨[0x11600010#32], zeros 16⟩ = .ok (.initBelt (zeros 16)) ∧
      ∃ t, exec (.initBelt (zeros 16)) State.reset = .next t ∧ t.Answers [] ∧ t.mode = .ctr :=
  ⟨⟨by decide, rfl, _, rfl, rfl, rfl⟩, by decide, _, rfl, rfl, rfl⟩

theorem witness_UnsupportedBlockSizesAreIllegal : ({ Config.params with bs := 3 } : Params).bs < 4 ∧
    ({ Config.params with bs := 7 } : Params).bs < 8 ∧ ({ Config.params with bs := 15 } : Params).bs ≠ 16 ∧
    (4 ≤ ({ Config.params with bs := 4 } : Params).bs ∧ (zeros 4).length = ({ Config.params with bs := 4 } : Params).bs) ∧
    (8 ≤ ({ Config.params with bs := 8 } : Params).bs ∧ (zeros 8).length = ({ Config.params with bs := 8 } : Params).bs) ∧
    Config.params.bs = 16 ∧ (zeros 16).length = 16 :=
  ⟨by show 3 < 4; decide, by show 7 < 8; decide, by show (15 : Nat) ≠ 16; decide, ⟨by show 4 ≤ 4; decide, rfl⟩,
    ⟨by show 8 ≤ 8; decide, rfl⟩, rfl, rfl⟩

/-! ### LDST and GETST -/

theorem witness_LdstLoadsTheSavedState :
    (∃ mk, Mode.cfbs.ldstCommand 0 = some mk) ∧ (∃ mk, Mode.cfbs.ldstCommand 17 = some mk) ∧
    (∃ mk, Mode.cfbs.ldstCommand 16 = some mk) ∧ (∃ mk, Mode.ige.ldstCommand 0 = some mk) ∧
    (∃ mk, Mode.ofb.ldstCommand 0 = some mk) ∧ (∃ mk, Mode.xts.ldstCommand 0 = some mk) ∧
    ((0 : Byte).toNat = 0 ∨ Config.BS < (0 : Byte).toNat) ∧ Config.BS < (17 : Byte).toNat ∧
    (1 ≤ (16 : Byte).toNat ∧ (16 : Byte).toNat ≤ Config.BS) ∧ (zeros 16).length ≠ 17 ∧ (zeros 17).length ≠ 33 ∧
    (zeros 32).length = 32 ∧ Config.BS ≤ (16 : Byte).toNat ∧ (15 : Byte).toNat < Config.BS ∧ (1 : Byte) ≠ 0 :=
  ⟨⟨_, rfl⟩, ⟨_, rfl⟩, ⟨_, rfl⟩, ⟨_, rfl⟩, ⟨_, rfl⟩, ⟨_, rfl⟩, by decide, by decide, by decide, by decide, by decide, by decide,
    by decide, by decide, by decide⟩

theorem witness_GetstExportsTheChainingValue : sCbc.mode = .cbc ∧ sCfb8.mode = .cfb8 ∧ sCfbs.mode = .cfbs ∧
    sPcbc.mode = .pcbc ∧ sOfb.mode = .ofb ∧ sCfb.mode = .cfb ∧ sIge.mode = .ige ∧ sXts.mode = .xts ∧
    State.reset.mode = .none ∧ sCtr.mode = .ctr ∧ sCbcCs1.mode = .cbccts ∧ sEcbCs1.mode = .ecbcts :=
  ⟨rfl, rfl, rfl, rfl, rfl, rfl, rfl, rfl, rfl, rfl, rfl, rfl⟩

theorem witness_ExportedStateImportsExactly : sCfbs.Inv ∧ (∃ mk, sCfbs.mode.ldstCommand sCfbs.seg = some mk) ∧
    ∃ t out, exec .getst sCfbs = .next t ∧ t.Answers out := ⟨inv_sCfbs, ⟨_, rfl⟩, _, _, rfl, rfl⟩

/-! ### CTR -/

/-- CtrAppliesTheKeystream and CtrBlockView, at and inside a block boundary, with no data and with some. -/
theorem witness_CtrBlockView : sCtr.Inv ∧ sCtr.mode = .ctr ∧ sCtr.pos = 0 ∧ (0 : Word).toNat = ([] : Bytes).length ∧
    sCtrMid.Inv ∧ sCtrMid.mode = .ctr ∧ sCtrMid.pos ≠ 0 ∧ (17 : Word).toNat = (zeros 17).length :=
  ⟨inv_sCtr, rfl, rfl, rfl, inv_sCtrMid, rfl, by decide, rfl⟩

theorem witness_CounterBlockLayout : Config.params.Valid ∧ (zeros 16).length = Config.params.bs ∧
    ∀ f ∈ [Flavor.ctr32be, .ctr32le, .ctr64be, .ctr64le, .ctr128be, .ctr128le, .belt],
      f.supported Config.params.bs = true := ⟨Config.params_valid, rfl, by decide⟩

theorem witness_SeekSetsThePosition : sCbc.mode ≠ .ctr ∧ Config.BS ≤ (16 : Byte).toNat ∧ sCtr.mode = .ctr ∧
    (15 : Byte) ≠ 0 ∧ (15 : Byte).toNat < Config.BS := ⟨by decide, by decide, rfl, by decide, by decide⟩

theorem witness_SeekAndGetposAreInverse : sCtrMid.Inv ∧ sCtrMid.mode = .ctr ∧ sCtrMid.pos ≠ 0 ∧
    sCtr.SameRegisters { sCtrMid with ctr := sCtr.ctr, pos := sCtr.pos, ksbuf := sCtr.ksbuf } ∧
    ∃ t, exec .getpos sCtrMid = .next t ∧ t.Answers (zeros 16 ++ [1]) ∧
      decode ⟨[0x50000011#32], zeros 16 ++ [1]⟩ = .ok (.seek 0 1) :=
  ⟨inv_sCtrMid, rfl, by decide, rfl, _, exec_then' _ _, rfl, by decide⟩

theorem witness_GetposAndGetremReport : sCbc.mode ≠ .ctr ∧ sCtr.mode = .ctr ∧ sCtr.pos = 0 ∧ sCtrMid.pos ≠ 0 :=
  ⟨by decide, rfl, rfl, by decide⟩

theorem witness_KeystreamModesAreInvolutions :
    (sCtrMid.mode = .ctr ∧ ∃ t out, exec (.enc 2 [1, 2]) sCtrMid = .next t ∧ t.Answers out) ∧
    sOfb.mode = .ofb ∧ ∃ t out, exec (.enc 2 [1, 2]) sOfb = .next t ∧ t.Answers out :=
  ⟨⟨rfl, _, _, rfl, rfl⟩, rfl, _, _, rfl, rfl⟩

/-! ### The block and feedback modes -/

/-- CbcEncryptsAndChains, CbcDecryptsAndChains, PcbcChainsPlaintextAndCiphertext, IgeEncryptsWithBothRegisters and
IgeDecryptsWithBothRegisters: no block, one block, and lengths that are refused. -/
theorem witness_BlockModes : (sCbc.Inv ∧ sCbc.mode = .cbc) ∧ (sPcbc.Inv ∧ sPcbc.mode = .pcbc) ∧ (sIge.Inv ∧ sIge.mode = .ige) ∧
    (([] : Bytes).length = 0 * Config.BS ∧ (0 : Word).toNat = ([] : Bytes).length) ∧
    ((zeros 16).length = 1 * Config.BS ∧ (16 : Word).toNat = (zeros 16).length) ∧
    (zeros 17).length % Config.BS ≠ 0 ∧ (15 : Word).toNat ≠ (zeros 16).length :=
  ⟨⟨inv_sCbc, rfl⟩, ⟨inv_sPcbc, rfl⟩, ⟨inv_sIge, rfl⟩, ⟨rfl, rfl⟩, ⟨rfl, rfl⟩, by decide, by decide⟩

/-- CfbEncryptsByFeedback and the first part of CfbDecryptsByFeedback; a position that ends a block and one that does not. -/
theorem witness_CfbEncryptsByFeedback : sCfb.mode = .cfb ∧ (17 : Word).toNat = (zeros 17).length ∧
    ({ sCfb with pos := 15 } : State).mode = .cfb ∧ ({ sCfb with pos := 15 } : State).pos.toNat + 1 = Config.BS ∧
    sCfb.pos.toNat + 1 ≠ Config.BS := ⟨rfl, rfl, rfl, rfl, by decide⟩

theorem witness_CfbDecryptsByFeedback : sCfb.mode = .cfb ∧ ∃ t out, exec (.enc 1 [7]) sCfb = .next t ∧ t.Answers out :=
  ⟨rfl, _, _, rfl, rfl⟩

theorem witness_Cfb8ShiftsTheCiphertextIn : sCfb8.mode = .cfb8 ∧ (0 : Word).toNat = ([] : Bytes).length ∧
    (3 : Word).toNat = (zeros 3).length ∧ (2 : Word).toNat ≠ (zeros 3).length := ⟨rfl, rfl, rfl, by decide⟩

theorem witness_CfbsShiftsSegmentsIn : sCfbs.Inv ∧ sCfbs.mode = .cfbs ∧ (zeros 5).length % sCfbs.seg.toNat ≠ 0 ∧
    (zeros 8).length = 2 * sCfbs.seg.toNat ∧ (8 : Word).toNat = (zeros 8).length :=
  ⟨inv_sCfbs, rfl, by decide, rfl, rfl⟩

theorem witness_CfbModesAgree : (zeros 16).length = Config.BS ∧ (32 : Word).toNat = (zeros 32).length ∧
    (∃ a, exec (.initCfbs 1 (zeros 16)) State.reset = .next a) ∧ (∃ b, exec (.initCfb8 (zeros 16)) State.reset = .next b) ∧
    (∃ c, exec (.initCfbs 16 (zeros 16)) State.reset = .next c) ∧ (∃ d, exec (.initCfb (zeros 16)) State.reset = .next d) ∧
    (zeros 32).length % Config.BS = 0 := ⟨rfl, rfl, ⟨_, rfl⟩, ⟨_, rfl⟩, ⟨_, rfl⟩, ⟨_, rfl⟩, rfl⟩

theorem witness_OfbAppliesTheKeystream : sOfb.mode = .ofb ∧ (2 : Word).toNat = ([1, 2] : Bytes).length ∧
    ([1, 2] : Bytes).length = ([3, 4] : Bytes).length ∧ (∃ t, exec (.transform true 2 [1, 2]) sOfb = .next t) ∧
    ∃ t, exec (.transform true 2 [3, 4]) sOfb = .next t := ⟨rfl, rfl, rfl, ⟨_, exec_then' _ _⟩, _, exec_then' _ _⟩

theorem witness_OfbStreamIsIteratedEncryption : sOfb.mode = .ofb ∧ sOfb.pos = 0 ∧ (33 : Word).toNat = (zeros 33).length :=
  ⟨rfl, rfl, rfl⟩

/-! ### XTS and CTS -/

theorem witness_MulxIsOneFunctionWithAnInverse : (zeros 15 ++ [0x80]).length = 16 := rfl

theorem witness_XtsWholeBlocks : sXts.Inv ∧ sXts.mode = .xts ∧ (zeros 16).length = 1 * 16 ∧
    (16 : Word).toNat = (zeros 16).length := ⟨inv_sXts, rfl, rfl, rfl⟩

/-- XtsEncryptionSteals and XtsDecryptionSteals: tails of 1 and of 15 bytes, without and with a leading block. -/
theorem witness_XtsSteals : sXts.Inv ∧ sXts.mode = .xts ∧ ([] : Bytes).length = (1 - 1) * 16 ∧ (zeros 16).length = (2 - 1) * 16 ∧
    (zeros 1).length = 1 ∧ (zeros 15).length = 15 ∧ 15 < 16 ∧
    (17 : Word).toNat = ([] ++ zeros 16 ++ zeros 1 : Bytes).length ∧
    (47 : Word).toNat = (zeros 16 ++ zeros 16 ++ zeros 15).length :=
  ⟨inv_sXts, rfl, rfl, rfl, rfl, rfl, by decide, rfl, rfl⟩

theorem witness_XtsSectorsUseDifferentTweaks : (zeros 16).length = 16 ∧ (zeros 15 ++ [1]).length = 16 ∧
    zeros 16 ≠ zeros 15 ++ [1] ∧ (∃ t, exec (.initXts (zeros 16)) State.reset = .next t) ∧
    ∃ u, exec (.initXts (zeros 15 ++ [1])) State.reset = .next u := ⟨rfl, rfl, by decide, ⟨_, rfl⟩, _, rfl⟩

/-- CtsEncryptionArranges, over both bases: last blocks of 1 and of 16 bytes, without and with a leading block. -/
theorem witness_CtsEncryptionArranges : (sCbcCs1.Inv ∧ sCbcCs1.mode = .cbccts) ∧ (sEcbCs1.Inv ∧ sEcbCs1.mode = .ecbcts) ∧
    ([] : Bytes).length = (2 - 2) * Config.BS ∧ (zeros 16).length = (3 - 2) * Config.BS ∧ (zeros 1).length = 1 ∧
    (17 : Word).toNat = ([] ++ zeros 16 ++ zeros 1 : Bytes).length ∧
    (48 : Word).toNat = (zeros 16 ++ zeros 16 ++ zeros 16).length :=
  ⟨⟨inv_sCbcCs1, rfl⟩, ⟨inv_sEcbCs1, rfl⟩, rfl, rfl, rfl, rfl, rfl⟩

/-- CtsDecryptionRebuilds: the length does not depend on the order of the pieces. -/
theorem witness_CtsDecryptionRebuilds : sCbcCs1.Inv ∧ sCbcCs1.mode = .cbccts ∧ ([] : Bytes).length = (2 - 2) * Config.BS ∧
    (zeros 1).length = 1 ∧ (zeros 16).length = Config.BS ∧ ∀ shortFirst : Bool,
      (17 : Word).toNat = ([] ++ if shortFirst then zeros 1 ++ zeros 16 else zeros 16 ++ zeros 1 : Bytes).length := by
  refine ⟨inv_sCbcCs1, rfl, rfl, rfl, rfl, fun b => ?_⟩
  cases b <;> rfl

theorem witness_CtsWholeBlocksAreTheBaseMode : sCbcCs1.Inv ∧ sCbcCs1.mode = .cbccts ∧ sEcbCs1.Inv ∧ sEcbCs1.mode = .ecbcts ∧
    (zeros 16).length = Config.BS ∧ (16 : Word).toNat = Config.BS ∧ sCbcCs1.variant = .cs1 ∧
    (zeros 32).length = 2 * Config.BS ∧ (32 : Word).toNat = (zeros 32).length :=
  ⟨inv_sCbcCs1, rfl, inv_sEcbCs1, rfl, rfl, rfl, rfl, rfl, rfl⟩

theorem witness_CtsVariantsDifferInOrderOnly : sEcbCs1.Inv ∧ sEcbCs1.mode = .ecbcts ∧
    ((17 : Word).toNat = (zeros 17).length ∧ (2 - 1) * Config.BS < (zeros 17).length ∧
      (zeros 17).length ≤ 2 * Config.BS ∧ (zeros 17).length % Config.BS ≠ 0) ∧
    (32 : Word).toNat = (zeros 32).length ∧ (2 - 1) * Config.BS < (zeros 32).length ∧
      (zeros 32).length ≤ 2 * Config.BS ∧ (zeros 32).length % Config.BS = 0 :=
  ⟨inv_sEcbCs1, rfl, by decide, by decide⟩

/-! ### Every mode -/

/-- A streaming mode without data, and XTS with the shortest tail. -/
theorem witness_DecryptionInvertsEncryption : Config.params.Valid ∧ (Instr.initCtr32be (zeros 16)).isInit = true ∧
    execOn Config.params (.initCtr32be (zeros 16)) State.reset = .next sCtr ∧ sCtr.Answers [] ∧
    lenOk Config.params sCtr 0 = true ∧ execOn Config.params (.initXts (zeros 16)) State.reset = .next sXts ∧
    sXts.Answers [] ∧ (zeros 17).length < 2 ^ 32 ∧ lenOk Config.params sXts (zeros 17).length = true :=
  ⟨Config.params_valid, rfl, rfl, rfl, rfl, rfl, rfl, by decide, by decide⟩

/-- ChunksGiveTheSameStream: a split inside a CTR block, and one of XTS at a block. -/
theorem witness_ChunksGiveTheSameStream : Config.params.Valid ∧ sCtrMid.Inv Config.params ∧
    (zeros 3 ++ zeros 30).length < 2 ^ 32 ∧ Streams Config.params.bs sCtrMid (zeros 3).length ∧
    Streams Config.params.bs sCtrMid (zeros 30).length ∧ sXts.Inv Config.params ∧
    Streams Config.params.bs sXts (zeros 16).length := by
  refine ⟨Config.params_valid, inv_sCtrMid, by decide, .inl rfl, .inl rfl, inv_sXts, ?_⟩
  exact .inr (.inr (.inr (.inr (.inr (.inr ⟨rfl, by decide, by decide⟩)))))

theorem witness_OutputDependsOnEarlierInputOnly : sCbc.Inv ∧ Streams Config.BS sCbc (zeros 16).length ∧
    (zeros 16).length = (zeros 15 ++ [1]).length ∧ (sCbc.mode = .xts → (zeros 16).length % 16 = 0) ∧
    (∃ t out, exec (.transform true 32 (zeros 16 ++ zeros 16)) sCbc = .next t ∧ t.Answers out) ∧
    ∃ t out, exec (.transform true 32 (zeros 16 ++ (zeros 15 ++ [1]))) sCbc = .next t ∧ t.Answers out :=
  ⟨inv_sCbc, .inr (.inr (.inr (.inr (.inr (.inl ⟨.inl rfl, by decide⟩))))), rfl, by decide, ⟨_, _, rfl, rfl⟩, _, _, rfl, rfl⟩

end Sys2Proof.Tests
end

section
/-! The machine `exec` and `step` is the one with Config.params (00_scope.md R5, R7, R10). -/

namespace Sys2Proof.Machine

theorem stepOn_params (s : State) : stepOn Config.params s = step s :=
  congrArg (fun run => stepWith run Config.params s) (funext₂ execOn_params)

end Sys2Proof.Machine

namespace Sys2Proof

/-- Settles O12: the parameters are valid, each arm of `execOn` is that of `exec` at Config.params, and `step` follows
because it is the same `stepWith` over equal meanings of commands. -/
theorem thisMachineIsAValidEngine : Obligations.ThisMachineIsAValidEngine :=
  ⟨Config.params_valid, Machine.execOn_params, Machine.stepOn_params⟩

end Sys2Proof
end

section
/-! Every step keeps the invariant of the registers (10_state.md R22, R25 to R30; 41_ctr.md R131, 47_xts.md R220). -/

namespace Sys2Proof.Machine

variable {p : Params}

theorem State.Inv.hardReset (hv : p.Valid) (s : State) : (s.hardReset p).Inv p :=
  (State.Inv.clear (s := s) hv).sameRegisters rfl

/-- A step keeps the invariant if the commands do: what it does beside running a command writes no register or clears
them all. -/
theorem stepWith_inv (hv : p.Valid) (run : Instr → State → Host.Outcome State Fault Refusal)
    (hrun : ∀ i s t, s.Inv p → run i s = .next t → t.Inv p) (s t : State) (hi : s.Inv p)
    (h : stepWith run p s = .next t) : t.Inv p := by
  rcases stepWith_cases (p := p) run s with ⟨-, idle⟩ | ⟨rest, -, received⟩ | ⟨ip, rest, -, -, reset⟩ |
    ⟨k, rest, i, -, -, -, command⟩ | ⟨k, rest, -, -, -, illegal⟩ | ⟨k, rest, -, -, -, malformed⟩ |
    ⟨k, rest, -, -, early⟩
  · cases idle.symm.trans h; exact hi
  · cases received.symm.trans h; exact (hi.pending rest).receive
  · cases reset.symm.trans h; exact State.Inv.hardReset hv _
  · exact hrun i _ t (hi.pending rest) (command.symm.trans h)
  · cases illegal.symm.trans h; exact (hi.pending rest).raise _
  · cases malformed.symm.trans h
  · cases early.symm.trans h

theorem stepOn_inv (hv : p.Valid) (s t : State) (hi : s.Inv p) (h : stepOn p s = .next t) : t.Inv p :=
  stepWith_inv hv (execOn p) (execOn_inv hv) s t hi h

end Sys2Proof.Machine

namespace Sys2Proof

/-- Settles O11: a step is one of seven things (`stepWith_cases`); every command keeps the invariant (`execOn_inv`), and
this machine is the one with Config.params. -/
theorem stepKeepsInvariant : Obligations.StepKeepsInvariant :=
  ⟨fun _ hv => Machine.stepOn_inv hv,
    fun s t hi h => Machine.stepOn_inv Config.params_valid s t hi ((Machine.stepOn_params s).trans h)⟩

end Sys2Proof
end

section
/-! Which registers ENC, DEC, SEEK and the reading commands leave unchanged (10_state.md R39). -/

namespace Sys2Proof.Machine

variable {p : Params} {s t : State}

theorem ArmFrame.refl (s : State) : ArmFrame s s := by
  rw [ArmFrame]
  cases s.mode <;> rfl

/-- The registers that a direction's arm does not write, by the mode. -/
theorem ArmFrame.registers (h : ArmFrame s t) :
    t.mode = s.mode ∧ t.flavor = s.flavor ∧ t.variant = s.variant ∧ t.seg = s.seg ∧ t.nonce = s.nonce ∧
      (s.mode.posLive = false → t.pos = s.pos) ∧ (s.mode ≠ .ctr → t.ctr = s.ctr ∧ t.ksbuf = s.ksbuf) ∧
      (s.mode.ivLive = false → t.iv = s.iv) ∧ (s.mode ≠ .cfb → t.fb = s.fb) ∧
      (s.mode ≠ .ige → t.x = s.x ∧ t.y = s.y) ∧ (s.mode ≠ .xts → t.tw = s.tw) := by
  rw [ArmFrame] at h
  cases hm : s.mode <;> rw [hm] at h <;> rw [h] <;> simp [hm, Mode.posLive, Mode.ivLive]

/-- ENC and DEC write what the arm of the mode writes, and the response. -/
theorem transformWith_frame (arm : State → Bytes → State × Bytes) (olen : Word) (data : Bytes)
    (harm : ArmFrame s (arm s data).1) (h : transformWith p arm olen data s = .next t) :
    ∃ u, ArmFrame s u ∧ t = { u with resp := t.resp } := by
  rcases transformWith_cases (p := p) arm olen data s with ⟨-, e⟩ | ⟨-, -, e⟩ | ⟨-, -, -, e⟩ <;> cases e.symm.trans h
  · exact ⟨s, .refl s, rfl⟩
  · exact ⟨s, .refl s, rfl⟩
  · exact ⟨_, harm, rfl⟩

/-- SEEK writes the position in the stream; the keystream block only when it lands inside a block (R140). -/
theorem seekTo_frame (s : State) (blk : BitVec 128) (off : Byte) :
    seekTo p s blk off =
      { s with pos := (seekTo p s blk off).pos, ctr := (seekTo p s blk off).ctr, ksbuf := (seekTo p s blk off).ksbuf } ∧
    (off = 0 → (seekTo p s blk off).ksbuf = s.ksbuf) := by
  simp only [seekTo]
  split
  · exact ⟨rfl, fun _ => rfl⟩
  · exact ⟨rfl, fun h => absurd h ‹_›⟩

theorem execSeek_frame (blk : BitVec 128) (off : Byte) (h : execSeek blk off s p = .next t) :
    t = { s with pos := t.pos, ctr := t.ctr, ksbuf := t.ksbuf, resp := t.resp } ∧ (off = 0 → t.ksbuf = s.ksbuf) := by
  simp only [execSeek] at h
  split at h
  · cases h; exact ⟨rfl, fun _ => rfl⟩
  · split at h <;> cases h
    · exact ⟨rfl, fun _ => rfl⟩
    · obtain ⟨hframe, hks⟩ := seekTo_frame (p := p) s blk off
      exact ⟨congrArg (fun u => u.finish []) hframe, hks⟩

/-- A command that reads answers, and writes the response only. -/
theorem exec_read_frame (i : Instr) (hi : i ∈ [Instr.getpos, .getrem, .getst]) (h : exec i s = .next t) :
    t = { s with resp := t.resp } := by
  simp only [List.mem_cons, List.not_mem_nil, or_false] at hi
  rcases hi with rfl | rfl | rfl
  · simp only [exec, execGetpos] at h
    split at h <;> cases h <;> rfl
  · simp only [exec, execGetrem] at h
    split at h <;> cases h <;> rfl
  · simp only [exec, execGetst] at h
    split at h <;> cases h <;> rfl

end Sys2Proof.Machine

namespace Sys2Proof

open Machine

/-- Settles O16: ENC and DEC write what the arm of the mode writes (`ArmFrame`), SEEK the position, a reading command
nothing; all of them the response. -/
theorem registersAreWrittenByTheirCommandsOnly : Obligations.RegistersAreWrittenByTheirCommandsOnly := by
  intro s t olen data encrypt blk off
  refine ⟨fun h => ?_, execSeek_frame blk off, fun i hi h => exec_read_frame i hi h⟩
  rw [exec_transform] at h
  obtain ⟨u, hframe, ht⟩ := transformWith_frame _ olen data (transformArm_frame encrypt s data) h
  rw [ht]
  exact hframe.registers

end Sys2Proof
end

section
/-! What stops a step, and what a step that does not stop does (20_memory.md R57, R58; 60_exceptions.md R268, R276;
70_reset_and_hazards.md R281, R286). -/

namespace Sys2Proof.Machine

/-- R57: the host issues a command, or is cut short by a reset while it does, with the previous response still on the port. -/
def State.IssuesEarly (s : State) : Prop :=
  s.resp ≠ none ∧ ∃ k rest, s.pending = .command k :: rest ∨ s.pending = .reset (some k) :: rest

/-- R57: the host issues, in its time, a packet whose counts are not those its words announce. -/
def State.IssuesMalformed (s : State) : Prop :=
  s.resp = none ∧ ∃ k rest, s.pending = .command k :: rest ∧ ¬ k.WellFramed

variable {s t : State} {k : Packet} {rest : List HostEvent}

theorem step_issuesEarly (h : s.IssuesEarly) : step s = .refused .earlyCommand := by
  obtain ⟨hresp, k, rest, hpending⟩ := h
  exact stepWith_early exec s k rest hpending hresp

/-- Whatever a command does, and also when its word is reserved, it answers, and takes its own event and no other. -/
theorem step_command_answers (hpending : s.pending = .command k :: rest) (hresp : s.resp = none) (hk : k.WellFramed) :
    ∃ t r, step s = .next t ∧ t.resp = some r ∧ t.pending = rest := by
  rcases stepWith_command_cases (p := Config.params) exec s k rest hpending hresp with
    ⟨i, -, runs⟩ | ⟨-, illegal⟩ | ⟨malformed, -⟩
  · rcases exec_shape i { s with pending := rest } with ⟨e, -, raises⟩ | ⟨u, out, finishes, hu⟩
    · exact ⟨_, _, runs.trans raises, rfl, rfl⟩
    · exact ⟨_, _, runs.trans finishes, rfl, hu⟩
  · exact ⟨_, _, illegal, rfl, rfl⟩
  · exact absurd hk malformed

theorem step_issuesMalformed (h : s.IssuesMalformed) : step s = .refused .malformedPacket := by
  obtain ⟨hresp, k, rest, hpending, hk⟩ := h
  rcases stepWith_command_cases (p := Config.params) exec s k rest hpending hresp with
    ⟨i, hdecode, -⟩ | ⟨framed, -⟩ | ⟨-, refused⟩
  · obtain ⟨-, -, -, framed, -⟩ := decode_ok k i hdecode
    exact absurd framed hk
  · exact absurd framed hk
  · exact refused

/-- R268: a host that does its duties has no step stopped. -/
theorem step_next (hearly : ¬ s.IssuesEarly) (hmalformed : ¬ s.IssuesMalformed) : ∃ t, step s = .next t := by
  rcases stepWith_cases (p := Config.params) exec s with ⟨-, idle⟩ | ⟨rest, -, received⟩ | ⟨ip, rest, -, -, reset⟩ |
    ⟨k, rest, i, -, -, -, command⟩ | ⟨k, rest, -, -, -, illegal⟩ | ⟨k, rest, hpending, hresp, hk, -⟩ |
    ⟨k, rest, hpending, hresp, -⟩
  · exact ⟨_, idle⟩
  · exact ⟨_, received⟩
  · exact ⟨_, reset⟩
  · obtain ⟨t, runs⟩ := exec_next i { s with pending := rest }
    exact ⟨t, command.trans runs⟩
  · exact ⟨_, illegal⟩
  · exact absurd ⟨hresp, k, rest, hpending, hk⟩ hmalformed
  · exact absurd ⟨hresp, k, rest, hpending⟩ hearly

/-- A command that is not refused was issued in its time and well framed. -/
theorem step_command_next (hpending : s.pending = .command k :: rest) (hstep : step s = .next t) :
    s.resp = none ∧ k.WellFramed := by
  have hresp : s.resp = none := by
    by_contra hresp
    cases (step_issuesEarly ⟨hresp, k, rest, .inl hpending⟩).symm.trans hstep
  refine ⟨hresp, ?_⟩
  by_contra hk
  cases (step_issuesMalformed ⟨hresp, k, rest, hpending, hk⟩).symm.trans hstep

end Sys2Proof.Machine

namespace Sys2Proof

open Machine

/-- Settles O5: the two breaches of duty exclude each other by the response port; each is refused under its own name, and
without one the step goes on (`step_next`). -/
theorem onlyHostErrorsStop : Obligations.OnlyHostErrorsStop := by
  intro s
  change _ ∧ (_ ↔ s.IssuesEarly) ∧ (_ ↔ s.IssuesMalformed) ∧ _
  by_cases hearly : s.IssuesEarly
  · have hmalformed : ¬ s.IssuesMalformed := fun h => hearly.1 h.1
    simp [step_issuesEarly hearly, hearly, hmalformed]
  · by_cases hmalformed : s.IssuesMalformed
    · simp [step_issuesMalformed hmalformed, hearly, hmalformed]
    · obtain ⟨t, hstep⟩ := step_next hearly hmalformed
      simp [hstep, hearly, hmalformed]

/-- Settles O6: the case of a step in which a command is taken in its time and decodes. -/
theorem stepRunsTheDecodedCommand : Obligations.StepRunsTheDecodedCommand :=
  fun s k rest i hpending hresp hdecode => stepWith_command exec s k i rest hpending hresp hdecode

/-- Settles O8: a step's case by the oldest event; a command that is taken was issued in its time and well framed
(`step_command_next`), and such a command is answered (`step_command_answers`). -/
theorem stepTakesTheOldestEvent : Obligations.StepTakesTheOldestEvent := by
  intro s
  refine ⟨stepWith_idle exec s, stepWith_receive exec s, stepWith_reset exec s, fun t k rest hpending hstep => ?_,
    fun k ks hpending hresp hk => ?_⟩
  · obtain ⟨hresp, hk⟩ := step_command_next hpending hstep
    obtain ⟨u, r, hu, hanswer, hrest⟩ := step_command_answers hpending hresp hk
    cases hu.symm.trans hstep
    exact ⟨hrest, r, hanswer⟩
  · obtain ⟨t, r, hstep, hanswer, hrest⟩ := step_command_answers hpending hresp hk
    exact ⟨t, r, hstep, hanswer, hrest, stepWith_receive exec t _ hrest⟩

end Sys2Proof
end

section
/-! The status and the length of every response (20_memory.md R63; 30_encoding.md R78, R79). -/

namespace Sys2Proof.Machine

variable {p : Params}

/-- R78: the command raises an error, which carries no bytes, or finishes with `n` bytes. -/
def AnswersWithLength (n : Nat) (r : Host.Outcome State Fault Refusal) : Prop :=
  (∃ (s : State) (e : Status), e ≠ .ok ∧ r = .next (s.raise e)) ∨
  ∃ (s : State) (out : Bytes), out.length = n ∧ r = .next (s.finish out)

theorem AnswersWithLength.raise (n : Nat) (s : State) (e : Status) (he : e ≠ .ok) :
    AnswersWithLength n (.next (s.raise e)) := .inl ⟨s, e, he, rfl⟩

theorem AnswersWithLength.finish {n : Nat} (s : State) (out : Bytes) (hout : out.length = n) :
    AnswersWithLength n (.next (s.finish out)) := .inr ⟨s, out, hout, rfl⟩

theorem initWith_answersWithLength (mode : Mode) (runnable : Bool) (pay : Bytes) (arm : State → State) (s : State) :
    AnswersWithLength 0 (initWith p mode runnable pay arm s) := by
  rcases initWith_cases (p := p) mode runnable pay arm s with ⟨-, e⟩ | ⟨-, -, e⟩ | ⟨-, -, e⟩ <;> rw [e]
  · exact .raise 0 s _ (by decide)
  · exact .raise 0 s _ (by decide)
  · exact .finish _ [] rfl

theorem initCtr_answersWithLength (f : Flavor) (pay : Bytes) (s : State) : AnswersWithLength 0 (initCtr p f pay s) :=
  initWith_answersWithLength ..

theorem initCbccts_answersWithLength (v : Variant) (pay : Bytes) (s : State) :
    AnswersWithLength 0 (initCbccts p v pay s) := initWith_answersWithLength ..

theorem initEcbcts_answersWithLength (v : Variant) (pay : Bytes) (s : State) :
    AnswersWithLength 0 (initEcbcts p v pay s) := initWith_answersWithLength ..

theorem loadWith_answersWithLength (mode : Mode) (runnable : Bool) (pay : Bytes) (load : State → Bytes → Byte → State)
    (s : State) : AnswersWithLength 0 (loadWith p mode runnable pay load s) := by
  rcases loadWith_cases (p := p) mode runnable pay load s with ⟨-, e⟩ | ⟨-, -, e⟩ | ⟨-, -, -, e⟩ <;> rw [e]
  · exact .raise 0 s _ (by decide)
  · exact .raise 0 s _ (by decide)
  · exact .finish _ [] rfl

/-- R63: ENC and DEC return as many bytes as they take. -/
theorem transformWith_answersWithLength (hv : p.Valid) (encrypt : Bool) (olen : Word) (data : Bytes) (s : State)
    (hi : s.Inv p) : AnswersWithLength data.length (transformWith p (transformArm p encrypt) olen data s) := by
  rcases transformWith_cases (p := p) (transformArm p encrypt) olen data s with ⟨-, e⟩ | ⟨-, -, e⟩ | ⟨hm, -, hl, e⟩ <;>
    rw [e]
  · exact .raise _ s _ (by decide)
  · exact .raise _ s _ (by decide)
  · exact .finish _ _ (transformArm_spec hv encrypt s data hi hm hl).2

theorem execSeek_answersWithLength (blk : BitVec 128) (off : Byte) (s : State) :
    AnswersWithLength 0 (execSeek blk off s p) := by
  simp only [execSeek]
  split
  · exact .raise 0 s _ (by decide)
  · split
    · exact .raise 0 s _ (by decide)
    · exact .finish _ [] rfl

/-- R142: the block index and the position. -/
theorem execGetpos_answersWithLength (s : State) : AnswersWithLength 17 (execGetpos s) := by
  simp only [execGetpos]
  split
  · exact .raise 17 s _ (by decide)
  · exact .finish s _ (by simp)

theorem execGetrem_answersWithLength (s : State) : AnswersWithLength 16 (execGetrem s p) := by
  simp only [execGetrem]
  split
  · exact .raise 16 s _ (by decide)
  · exact .finish s _ (length_leBytes _ _)

/-- R77, R121: what GETST exports is what LDST takes. -/
theorem length_exported (s : State) (hi : s.Inv p) (out : Bytes) (h : exported s = some out) :
    out.length = stLen p s.mode + 1 := by
  cases hm : s.mode <;> simp only [exported, hm, Option.some.injEq, reduceCtorEq] at h
  all_goals
    rw [← h]
    simp [stLen, hi.iv_length, hi.fb_length, hi.x_length, hi.y_length, hi.tw_length, Nat.two_mul, Nat.add_assoc]

theorem execGetst_answersWithLength (s : State) (hi : s.Inv p) :
    AnswersWithLength (stLen p s.mode + 1) (execGetst s) := by
  cases h : exported s with
  | none => rw [execGetst_none s h]; exact .raise _ s _ (by decide)
  | some out => rw [execGetst_some s out h]; exact .finish s out (length_exported s hi out h)

theorem exec_answersWithLength (i : Instr) (s : State) (hi : s.Inv) : AnswersWithLength (i.outLength s) (exec i s) := by
  cases i with
  | initCtr32be pay | initCtr32le pay | initCtr64be pay | initCtr64le pay | initCtr128be pay | initCtr128le pay | initBelt pay =>
    unfold exec
    exact initCtr_answersWithLength _ pay s
  | initCbccs1 pay | initCbccs2 pay | initCbccs3 pay => exact initCbccts_answersWithLength _ pay s
  | initEcbcs1 pay | initEcbcs2 pay | initEcbcs3 pay => exact initEcbcts_answersWithLength _ pay s
  | initCbc | initCfb | initCfb8 | initCfbs | initOfb | initPcbc | initIge | initXts =>
    unfold exec
    exact initWith_answersWithLength ..
  | ldstCbc | ldstCfb | ldstCfb8 | ldstCfbs | ldstOfb | ldstPcbc | ldstIge | ldstXts =>
    unfold exec
    exact loadWith_answersWithLength ..
  | enc olen data => exact transformWith_answersWithLength Config.params_valid true olen data s hi
  | dec olen data => exact transformWith_answersWithLength Config.params_valid false olen data s hi
  | seek blk off => exact execSeek_answersWithLength blk off s
  | getpos => exact execGetpos_answersWithLength s
  | getrem => exact execGetrem_answersWithLength s
  | getst => exact execGetst_answersWithLength s hi
  | wipe => exact .finish _ [] rfl

theorem Status.word_cases (e : Status) : e.word = 0 ∨ e.word = 1 ∨ e.word = 2 ∨ e.word = 3 := by
  cases e <;> decide

theorem Status.word_eq_zero_iff (e : Status) : e.word = 0 ↔ e = .ok := by
  cases e <;> decide

end Sys2Proof.Machine

namespace Sys2Proof

open Machine

/-- Settles O15: every command raises an error or finishes with the bytes of its rule (`exec_answersWithLength`). -/
theorem responsesHaveTheirLength : Obligations.ResponsesHaveTheirLength := by
  intro i s hi
  rcases exec_answersWithLength i s hi with ⟨u, e, he, raises⟩ | ⟨u, out, hout, finishes⟩
  · exact ⟨_, _, _, raises, rfl, e.word_cases, fun _ => rfl, fun h => absurd (e.word_eq_zero_iff.mp h) he⟩
  · exact ⟨_, _, _, finishes, rfl, Status.ok.word_cases, fun h => absurd rfl h, fun _ => hout⟩

end Sys2Proof
end

section
/-! In the streaming modes the output up to a piece boundary comes from the input up to it (20_memory.md R62). -/

namespace Sys2Proof.Machine

variable {p : Params}

/-- R111, R112: a mode that streams takes the lengths at which a message may be cut. -/
theorem Streams.lenOk_eq_true {s : State} {n : Nat} (hbs : s.mode = .xts → p.bs = 16) (h : Streams p.bs s n) :
    s.mode ≠ .none ∧ lenOk p s n = true := by
  rcases h with h | h | h | h | ⟨h, hn⟩ | ⟨h, hn⟩ | ⟨h, -, hn⟩
  · exact lenOk_bytes s n (.inl h)
  · exact lenOk_bytes s n (.inr (.inl h))
  · exact lenOk_bytes s n (.inr (.inr (.inl h)))
  · exact lenOk_bytes s n (.inr (.inr (.inr h)))
  · simp [lenOk, h, hn]
  · rcases h with h | h | h <;> simp [lenOk, h, hn]
  · simp [lenOk, h, hbs h, hn]

/-- A success shows what the arm of the direction made of the data. -/
theorem transformWith_answers (arm : State → Bytes → State × Bytes) (olen : Word) (data : Bytes) {s t : State}
    {out : Bytes} (h : transformWith p arm olen data s = .next t) (hout : t.Answers out) : out = (arm s data).2 := by
  rcases transformWith_cases (p := p) arm olen data s with ⟨-, e⟩ | ⟨-, -, e⟩ | ⟨-, -, -, e⟩ <;> cases e.symm.trans h
  · simp [State.Answers, Status.word] at hout
  · simp [State.Answers, Status.word] at hout
  · exact (congrArg Response.out (Option.some.inj hout)).symm

/-- R62: up to a piece boundary the output is that of the input up to it, whatever follows. -/
theorem transformArm_take (hv : p.Valid) (encrypt : Bool) (s : State) (a b : Bytes) (hi : s.Inv p)
    (ha : Streams p.bs s a.length) (hb : s.mode = .xts → b.length % 16 = 0) :
    (transformArm p encrypt s (a ++ b)).2.take a.length = (transformArm p encrypt s a).2 := by
  obtain ⟨hm, hl⟩ := ha.lenOk_eq_true hi.xts_bs
  rw [(transformArm_append encrypt s a b ha hb []).2]
  exact List.take_left' (transformArm_spec hv encrypt s a hi hm hl).2

end Sys2Proof.Machine

namespace Sys2Proof

open Machine

/-- Settles O60: both outputs begin with what the common part of the inputs gives alone (`transformArm_take`). -/
theorem outputDependsOnEarlierInputOnly : Obligations.OutputDependsOnEarlierInputOnly := by
  intro encrypt olen a b b' s t t' out out' hi ha hlen hb ht hout ht' hout'
  rw [exec_transform] at ht ht'
  have hb' : s.mode = .xts → b'.length % 16 = 0 := hlen ▸ hb
  calc out.take a.length
    _ = (transformArm Config.params encrypt s a).2 := by
      rw [transformWith_answers _ olen _ ht hout]
      exact transformArm_take Config.params_valid encrypt s a b hi ha hb
    _ = out'.take a.length := by
      rw [transformWith_answers _ olen _ ht' hout']
      exact (transformArm_take Config.params_valid encrypt s a b' hi ha hb').symm

end Sys2Proof
end

section
/-! The encoding of 30_encoding.md: decoding and encoding invert each other (R70 to R75, R81), the reserved words (R83, R84),
and the words of the opcode table. -/

namespace Sys2Proof

open Machine

/-! ### Framing, by the opcode (R84) -/

theorem wellFramed_cons_iff (w : Word) (ws : List Word) (bytes : Bytes) :
    Packet.WellFramed ⟨w :: ws, bytes⟩ ↔
      (opcOf w = 1 ∨ opcOf w = 2 ∨ opcOf w = 5) ∧ ws = [] ∧ bytes.length = plenOf w ∨
      (opcOf w = 3 ∨ opcOf w = 4) ∧ (∃ ilen olen, ws = [ilen, olen] ∧ bytes.length = ilen.toNat) ∨
      (opcOf w = 0 ∨ 6 ≤ opcOf w) ∧ ws = [] ∧ bytes = [] := by
  constructor
  · rintro ⟨_, _, hwords, hframed⟩
    cases hwords
    exact hframed
  · exact fun hframed => ⟨w, ws, rfl, hframed⟩

variable {w : Word} {ws : List Word} {bytes pay : Bytes} {i : Instr}

theorem wellFramed_payload_iff (ho : opcOf w = 1 ∨ opcOf w = 2 ∨ opcOf w = 5) :
    Packet.WellFramed ⟨w :: ws, bytes⟩ ↔ ws = [] ∧ bytes.length = plenOf w := by
  rw [wellFramed_cons_iff]
  rcases ho with ho | ho | ho <;> simp [ho]

theorem wellFramed_data_iff (ho : opcOf w = 3 ∨ opcOf w = 4) :
    Packet.WellFramed ⟨w :: ws, bytes⟩ ↔ ∃ ilen olen, ws = [ilen, olen] ∧ bytes.length = ilen.toNat := by
  rw [wellFramed_cons_iff]
  rcases ho with ho | ho <;> simp [ho]

theorem wellFramed_bare_iff (ho : opcOf w = 0 ∨ 6 ≤ opcOf w) :
    Packet.WellFramed ⟨w :: ws, bytes⟩ ↔ ws = [] ∧ bytes = [] := by
  have hpayload : ¬ (opcOf w = 1 ∨ opcOf w = 2 ∨ opcOf w = 5) := by omega
  have hdata : ¬ (opcOf w = 3 ∨ opcOf w = 4) := by omega
  simp [wellFramed_cons_iff, hpayload, hdata, ho]

theorem decode_eq_ok_of_row (hframed : Packet.WellFramed ⟨w :: ws, bytes⟩) (hrow : decodeRow w ws bytes = some i) :
    decode ⟨w :: ws, bytes⟩ = .ok i := by
  rw [decode_framed w ws bytes hframed, hrow]

/-! ### From a command to its packet and back -/

/-- R72: the word of format I by the fields of the row's match word. -/
theorem encodeI_eq_fieldsWord {row : Nat} (hrow : row % 2 ^ 20 = 0) (seg : Byte) (pay : Bytes) :
    encodeI row seg pay =
      ⟨[fieldsWord (row / 2 ^ 28) (row / 2 ^ 24 % 16) (row / 2 ^ 20 % 16) seg.toNat 0 pay.length], pay⟩ := by
  have hsum : row = row / 2 ^ 28 * 2 ^ 28 + row / 2 ^ 24 % 16 * 2 ^ 24 + row / 2 ^ 20 % 16 * 2 ^ 20 := by omega
  rw [← encodeI_fields, ← hsum]

/-- Format I decodes to the command that the table gives for the fields of the match word. -/
theorem decode_encodeI {row : Nat} {seg : Byte} (hrow : row % 2 ^ 20 = 0) (ho : row / 2 ^ 28 = 1 ∨ row / 2 ^ 28 = 2)
    (hp : pay.length < 256)
    (htable : ∀ w, opcOf w = row / 2 ^ 28 → field w 27 24 = row / 2 ^ 24 % 16 → field w 23 20 = row / 2 ^ 20 % 16 →
      field w 19 12 = seg.toNat → field w 11 8 = 0 → decodeRow w [] pay = some i) :
    decode (encodeI row seg pay) = .ok i := by
  obtain ⟨hopc, hmode, hsub, hseg, hrsv, hplen⟩ := fields_fieldsWord (row / 2 ^ 28) (row / 2 ^ 24 % 16)
    (row / 2 ^ 20 % 16) seg.toNat 0 pay.length (by omega) (by omega) (by omega) seg.isLt (by decide) hp
  rw [encodeI_eq_fieldsWord hrow]
  exact decode_eq_ok_of_row (wellFramed_payload _ pay (by omega) hplen.symm) (htable _ hopc hmode hsub hseg hrsv)

/-- R74: the operands of SEEK come back from their 17 bytes. -/
theorem decodeSeek_leBytes (blk : BitVec 128) (off : Byte) : decodeSeek (leBytes 16 blk.toNat ++ [off]) = .seek blk off := by
  have hblk : BitVec.ofNat 128 (le (leBytes 16 blk.toNat)) = blk := by
    rw [le_leBytes, Nat.mod_eq_of_lt (show blk.toNat < 256 ^ 16 from blk.isLt), BitVec.ofNat_toNat, BitVec.setWidth_eq]
  simp [decodeSeek, slice_zero, List.take_left', hblk]

/-- Settles O1: every packet is framed as its word announces, and the row of the table for that word gives the command. In
format I the fields of the word are those of the match word (`decode_encodeI`). -/
theorem decodeInvertsEncode : Obligations.DecodeInvertsEncode := by
  intro i h
  cases i with
  | enc olen data => exact decode_eq_ok_of_row (Laws.EncodedIsFramed.enc olen data h) rfl
  | dec olen data => exact decode_eq_ok_of_row (Laws.EncodedIsFramed.dec olen data h) rfl
  | seek blk off =>
    exact decode_eq_ok_of_row (Laws.EncodedIsFramed.seek blk off h) (congrArg some (decodeSeek_leBytes blk off))
  | getpos | getrem | getst | wipe => rfl
  | _ =>
    exact decode_encodeI rfl (by decide) (Laws.EncodedIsFramed.payload_lt _ h)
      (by simp +contextual [decodeRow, decodeInit, decodeLdst])

/-! ### From a packet to its command and back -/

theorem wellFormed_iff (i : Instr) :
    i.wellFormed = true ↔ i.payload.length < 2 ^ 8 ∧ i.inputData.length < 2 ^ 32 := by
  simp only [Instr.wellFormed, Bool.and_eq_true, decide_eq_true_eq]

/-- A command with nothing but a payload is encodable if `PLEN` announces it (R71). -/
theorem wellFormed_of_payload (hplen : i.payload.length = plenOf w) (hdata : i.inputData = []) : i.wellFormed = true :=
  (wellFormed_iff i).mpr ⟨hplen ▸ field_lt w 7 0, by simp [hdata]⟩

/-- R71: `SEG` as a byte is the field. -/
theorem toNat_segField (w : Word) : (BitVec.ofNat 8 (field w 19 12)).toNat = field w 19 12 :=
  Nat.mod_eq_of_lt (field_lt w 19 12)

/-- A word with the fields of a match word, and its payload, is the packet of that row. -/
theorem encodeI_eq_of_fields {row : Nat} {seg : Byte} (hrow : row % 2 ^ 20 = 0) (hplen : pay.length = plenOf w)
    (hopc : opcOf w = row / 2 ^ 28) (hrsv : field w 11 8 = 0) (hmode : field w 27 24 = row / 2 ^ 24 % 16)
    (hsub : field w 23 20 = row / 2 ^ 20 % 16) (hseg : BitVec.ofNat 8 (field w 19 12) = seg) :
    encodeI row seg pay = ⟨[w], pay⟩ := by
  rw [encodeI_eq_fieldsWord hrow, ← hseg, toNat_segField, ← hopc, ← hmode, ← hsub, ← hrsv, hplen, fieldsWord_fields]

/-- `SEG` is a free field in the row of CFBS (the case `h_11`) and zero in the others. -/
theorem encode_of_decodeInit (hopc : opcOf w = 1) (hplen : pay.length = plenOf w) (h : decodeInit w pay = some i) :
    i.wellFormed = true ∧ encode i = ⟨[w], pay⟩ := by
  unfold decodeInit at h
  split at h
  case h_22 => cases h
  case h_11 hrsv hmode hsub =>
    cases h
    exact ⟨wellFormed_of_payload hplen rfl, encodeI_eq_of_fields rfl hplen hopc hrsv hmode hsub rfl⟩
  all_goals
    rename_i hrsv hmode hsub hseg
    cases h
    exact ⟨wellFormed_of_payload hplen rfl, encodeI_eq_of_fields rfl hplen hopc hrsv hmode hsub (congrArg _ hseg)⟩

/-- As for INIT, with the row of CFBS the case `h_4`. -/
theorem encode_of_decodeLdst (hopc : opcOf w = 2) (hplen : pay.length = plenOf w) (h : decodeLdst w pay = some i) :
    i.wellFormed = true ∧ encode i = ⟨[w], pay⟩ := by
  unfold decodeLdst at h
  split at h
  case h_9 => cases h
  case h_4 hrsv hmode hsub =>
    cases h
    exact ⟨wellFormed_of_payload hplen rfl, encodeI_eq_of_fields rfl hplen hopc hrsv hmode hsub rfl⟩
  all_goals
    rename_i hrsv hmode hsub hseg
    cases h
    exact ⟨wellFormed_of_payload hplen rfl, encodeI_eq_of_fields rfl hplen hopc hrsv hmode hsub (congrArg _ hseg)⟩

/-- R74: 17 bytes are the operands they spell. -/
theorem encode_decodeSeek (hlen : bytes.length = 17) : encode (decodeSeek bytes) = ⟨[0x50000011#32], bytes⟩ := by
  have htake : (bytes.take 16).length = 16 := by simp [hlen]
  have hlt : le (bytes.take 16) < 2 ^ 128 := by simpa [htake] using le_lt (bytes.take 16)
  have hblk : leBytes 16 (le (bytes.take 16)) = bytes.take 16 := by simpa only [htake] using leBytes_le (bytes.take 16)
  have hoff : bytes.drop 16 = [bytes.getD 16 0] := by
    rw [List.drop_eq_getElem_cons (by omega), List.drop_eq_nil_of_le (by omega)]
    simp [hlen]
  have hbytes : bytes.take 16 ++ [bytes.getD 16 0] = bytes := by rw [← hoff, List.take_append_drop]
  simp only [decodeSeek, encode, slice_zero, BitVec.toNat_ofNat, Nat.mod_eq_of_lt hlt, hblk, hbytes]

/-- Format D (R73): what follows the command word is `ILEN`, `OLEN` and `ILEN` bytes. -/
theorem encodeD_of_wellFramed (hopc : opcOf w = 3 ∨ opcOf w = 4) (hframed : Packet.WellFramed ⟨w :: ws, bytes⟩) :
    bytes.length < 2 ^ 32 ∧ encodeD w (ws.getD 1 0) bytes = ⟨w :: ws, bytes⟩ := by
  obtain ⟨ilen, olen, rfl, hlen⟩ := (wellFramed_data_iff hopc).mp hframed
  exact ⟨hlen ▸ ilen.isLt, by simp [encodeD, hlen]⟩

/-- The row of a framed packet is the command it encodes. -/
theorem encode_of_decodeRow (hframed : Packet.WellFramed ⟨w :: ws, bytes⟩) (h : decodeRow w ws bytes = some i) :
    i.wellFormed = true ∧ encode i = ⟨w :: ws, bytes⟩ := by
  unfold decodeRow at h
  split at h
  case h_1 hopc =>
    obtain ⟨rfl, hplen⟩ := (wellFramed_payload_iff (.inl hopc)).mp hframed
    exact encode_of_decodeInit hopc hplen h
  case h_2 hopc =>
    obtain ⟨rfl, hplen⟩ := (wellFramed_payload_iff (.inr (.inl hopc))).mp hframed
    exact encode_of_decodeLdst hopc hplen h
  case h_10 => cases h
  all_goals
    rename_i hopc
    obtain ⟨rfl, hi⟩ := Option.ite_none_right_eq_some.mp h
    cases hi
  case h_3 | h_4 =>
    obtain ⟨hlt, hencode⟩ := encodeD_of_wellFramed (by omega) hframed
    exact ⟨(wellFormed_iff _).mpr ⟨Nat.two_pow_pos 8, hlt⟩, hencode⟩
  case h_5 =>
    obtain ⟨rfl, hplen⟩ := (wellFramed_payload_iff (.inr (.inr hopc))).mp hframed
    exact ⟨rfl, encode_decodeSeek hplen⟩
  all_goals
    obtain ⟨rfl, rfl⟩ := (wellFramed_bare_iff (by omega)).mp hframed
    exact ⟨rfl, rfl⟩

/-- Settles O2: what decodes is framed and is a row of the table (`decode_ok`), and a row's packet is determined by its
fields. -/
theorem decodedPacketIsItsEncoding : Obligations.DecodedPacketIsItsEncoding := by
  rintro ⟨words, bytes⟩ i h
  obtain ⟨w, ws, rfl, hframed, hrow⟩ := decode_ok _ i h
  exact encode_of_decodeRow hframed hrow

/-- Settles O3: seven closed evaluations of the decoder. -/
theorem writtenWordsDecode : Obligations.WrittenWordsDecode := by
  unfold Obligations.WrittenWordsDecode
  decide

/-! ### Reserved words (R83, R84) -/

/-- R83: a reserved opcode is no row of the table. -/
theorem decodeRow_reservedOpcode (ho : opcOf w = 0 ∨ 10 ≤ opcOf w) : decodeRow w ws bytes = none := by
  unfold decodeRow
  split
  case h_10 => rfl
  all_goals omega

/-- A word is illegal if the command it is a row of, if any, raises `IllegalCommand` in every state. -/
theorem illegalWord_of_row_raises
    (h : ∀ ws bytes i, decodeRow w ws bytes = some i → ∀ s, exec i s = .next (s.raise .illegalCommand)) : IllegalWord w := by
  intro s ws bytes rest hframed hresp hpending
  cases hrow : decodeRow w ws bytes with
  | none => exact stepWith_noRow exec s w ws bytes rest hpending hresp hframed hrow
  | some i =>
    exact (stepWith_command exec s _ i rest hpending hresp (decode_eq_ok_of_row hframed hrow)).trans
      (h ws bytes i hrow _)

/-- Every other row of INIT (CFBS is the case `h_11`) pins the fields to values that are not reserved. -/
theorem decodeInit_reservedField {bs : Nat} (hopc : opcOf w = 1) (hreserved : ReservedField bs w)
    (h : decodeInit w pay = some i) : ∃ seg : Byte, i = .initCfbs seg pay ∧ (seg.toNat = 0 ∨ bs < seg.toNat) := by
  unfold decodeInit at h
  split at h
  case h_22 => cases h
  case h_11 hrsv hmode hsub =>
    cases h
    refine ⟨_, rfl, ?_⟩
    rw [toNat_segField]
    simpa [ReservedField, hopc, hrsv, hmode, hsub] using hreserved
  all_goals
    rename_i hrsv hmode hsub hseg
    simp [ReservedField, hopc, hrsv, hmode, hsub, hseg] at hreserved

/-- As for INIT, with the row of CFBS the case `h_4`. -/
theorem decodeLdst_reservedField {bs : Nat} (hopc : opcOf w = 2) (hreserved : ReservedField bs w)
    (h : decodeLdst w pay = some i) : ∃ seg : Byte, i = .ldstCfbs seg pay ∧ (seg.toNat = 0 ∨ bs < seg.toNat) := by
  unfold decodeLdst at h
  split at h
  case h_9 => cases h
  case h_4 hrsv hmode hsub =>
    cases h
    refine ⟨_, rfl, ?_⟩
    rw [toNat_segField]
    simpa [ReservedField, hopc, hrsv, hmode, hsub] using hreserved
  all_goals
    rename_i hrsv hmode hsub hseg
    simp [ReservedField, hopc, hrsv, hmode, hsub, hseg] at hreserved

/-- R84: the only words with a reserved field that the decoder leaves to the meaning are those of CFBS with `SEG` out of range
(log entry 8). -/
theorem decodeRow_reservedField {bs : Nat} (hreserved : ReservedField bs w) (h : decodeRow w ws bytes = some i) :
    ∃ seg : Byte, (i = .initCfbs seg bytes ∨ i = .ldstCfbs seg bytes) ∧ (seg.toNat = 0 ∨ bs < seg.toNat) := by
  unfold decodeRow at h
  split at h
  case h_1 hopc => exact (decodeInit_reservedField hopc hreserved h).imp fun _ ⟨hi, hseg⟩ => ⟨.inl hi, hseg⟩
  case h_2 hopc => exact (decodeLdst_reservedField hopc hreserved h).imp fun _ ⟨hi, hseg⟩ => ⟨.inr hi, hseg⟩
  case h_10 => cases h
  all_goals
    obtain ⟨rfl, -⟩ := Option.ite_none_right_eq_some.mp h
    simp [ReservedField, opcOf, field] at hreserved

theorem segInRange_eq_false {p : Params} {seg : Byte} (h : seg.toNat = 0 ∨ p.bs < seg.toNat) : segInRange p seg = false :=
  decide_eq_false (by omega)

/-- Settles O4: a reserved opcode is no row; a word with a reserved field is no row, or one of CFBS, whose meaning refuses
the `SEG`. -/
theorem reservedWordsAreIllegal : Obligations.ReservedWordsAreIllegal := by
  refine ⟨fun w ho => ⟨illegalWord_of_noRow w fun _ _ => decodeRow_reservedOpcode ho,
    fun ws bytes => wellFramed_bare_iff (by omega)⟩, fun w hreserved => illegalWord_of_row_raises ?_⟩
  intro ws bytes i hrow s
  obtain ⟨seg, hi, hseg⟩ := decodeRow_reservedField hreserved hrow
  have hrange : segInRange Config.params seg = false := segInRange_eq_false hseg
  rcases hi with rfl | rfl
  · simp [exec, execInitCfbs, initWith, hrange]
  · simp [exec, execLdstCfbs, loadWith, hrange]

/-! ### Words of the opcode table -/

theorem decode_tablePacket {nbits n : Nat} (h : decodeTableWord nbits n = some i) : decode (tablePacket nbits n) = .ok i := by
  unfold decodeTableWord at h
  split at h
  · cases h; assumption
  · cases h

/-- Settles O7: `withFetchWord` empties the response port and puts the packet first, where a step takes it. -/
theorem tableWordRunsNext : Obligations.TableWordRunsNext :=
  fun s nbits n i h => stepWith_command exec (s.withFetchWord nbits n) _ i s.pending rfl rfl (decode_tablePacket h)

end Sys2Proof
end

section
/-! ENC and DEC in every mode (40_common.md R110 to R113): the checks, completion, one function for both directions of a
keystream mode, and a message cut in two. -/

namespace Sys2Proof.Machine

variable {p : Params} {s t : State} {olen : Word} {data : Bytes}

theorem transformArm_false : transformArm p false = decArm p := rfl

theorem State.finish_sameRegisters (s : State) (out out' : Bytes) : (s.finish out).SameRegisters (s.finish out') := rfl

/-! ### The checks of R110 -/

theorem transformWith_illegal (arm : State → Bytes → State × Bytes) (hm : s.mode = .none) :
    transformWith p arm olen data s = .next (s.raise .illegalCommand) := by
  simp [transformWith, hm]

theorem transformWith_lengthError (arm : State → Bytes → State × Bytes) (hm : s.mode ≠ .none)
    (h : olen.toNat ≠ data.length ∨ lenOk p s data.length = false) :
    transformWith p arm olen data s = .next (s.raise .lengthError) := by
  by_cases ho : olen.toNat = data.length
  · simp [transformWith, hm, ho, h.resolve_left (not_not.mpr ho)]
  · simp [transformWith, hm, ho]

/-- ENC and DEC of an input whose length a word can announce, in a mode that takes that length. -/
theorem execOn_transform_ok (encrypt : Bool) (hd : data.length < 2 ^ 32) (hm : s.mode ≠ .none)
    (hl : lenOk p s data.length = true) :
    execOn p (.transform encrypt (BitVec.ofNat 32 data.length) data) s =
      .next ((transformArm p encrypt s data).1.finish (transformArm p encrypt s data).2) := by
  rw [execOn_transform]
  exact transformWith_ok _ _ _ _ hm (Nat.mod_eq_of_lt hd) hl

/-- A success passed the checks, and is what the arm made. -/
theorem transformWith_of_answers {arm : State → Bytes → State × Bytes} {out : Bytes}
    (h : transformWith p arm olen data s = .next t) (hout : t.Answers out) :
    s.mode ≠ .none ∧ olen.toNat = data.length ∧ lenOk p s data.length = true ∧ arm s data = ((arm s data).1, out) ∧
      t = (arm s data).1.finish out := by
  have harm := transformWith_answers arm olen data h hout
  rcases transformWith_cases (p := p) arm olen data s with ⟨-, e⟩ | ⟨-, -, e⟩ | ⟨hm, ho, hl, e⟩ <;> cases e.symm.trans h
  · simp [State.Answers, Status.word] at hout
  · simp [State.Answers, Status.word] at hout
  · exact ⟨hm, ho, hl, by rw [harm], by rw [harm]⟩

/-! ### Keystream modes -/

/-- R113: in CTR and OFB the arm of either direction is one byte loop, which restores the byte it is given back. -/
theorem transformArm_keystream (p : Params) (h : s.mode = .ctr ∨ s.mode = .ofb) :
    ∃ (f : State → Byte → State × Bytes) (o : State → Byte → Byte),
      (∀ encrypt d, transformArm p encrypt s d = fold f s d) ∧ (∀ s a, (f s a).2 = [o s a]) ∧
        ∀ s a, f s (o s a) = ((f s a).1, [a]) := by
  rcases h with h | h
  · exact ⟨ctrByte p, _, fun e d => transformArm_ctr e s d h, ctrByte_out, ctrByte_twice⟩
  · exact ⟨ofbByte p, _, fun e d => transformArm_ofb e s d h, ofbByte_out, ofbByte_twice⟩

/-- R113: the same keystream applied twice. -/
theorem fold_twice (f : State → Byte → State × Bytes) (o : State → Byte → Byte) (hout : ∀ s a, (f s a).2 = [o s a])
    (htwice : ∀ s a, f s (o s a) = ((f s a).1, [a])) {out : Bytes} {u : State} (h : fold f s data = (u, out)) :
    out.length = data.length ∧ fold f s out = (u, data) := by
  have hlen := length_fold_bytes f s data o hout
  have hundo := fold_undo_bytes f f o hout htwice s data
  rw [h] at hlen hundo
  exact ⟨hlen, hundo⟩

/-! ### A message in two parts -/

theorem Streams.cfbs {bs n : Nat} (h : Streams bs s n) (hm : s.mode = .cfbs) : n % s.seg.toNat = 0 := by
  simpa [Streams, hm] using h

theorem Streams.blocks {bs n : Nat} (h : Streams bs s n) (hm : s.mode = .cbc ∨ s.mode = .pcbc ∨ s.mode = .ige) :
    n % bs = 0 := by
  rcases hm with hm | hm | hm <;> simpa [Streams, hm] using h

theorem Streams.xts {bs n : Nat} (h : Streams bs s n) (hm : s.mode = .xts) : n % 16 = 0 ∧ 16 ≤ n := by
  simpa [Streams, hm] using h

/-- R112: two parts of a message in a mode that streams make up a message of it. -/
theorem Streams.add {bs m n : Nat} (hm : Streams bs s m) (hn : Streams bs s n) : Streams bs s (m + n) := by
  have hmod : ∀ k, m % k = 0 → n % k = 0 → (m + n) % k = 0 := fun k h1 h2 => by simp [Nat.add_mod, h1, h2]
  rcases hm with h | h | h | h | ⟨h, hm⟩ | ⟨h, hm⟩ | ⟨h, hm, hle⟩
  · exact .inl h
  · exact .inr (.inl h)
  · exact .inr (.inr (.inl h))
  · exact .inr (.inr (.inr (.inl h)))
  · exact .inr (.inr (.inr (.inr (.inl ⟨h, hmod _ hm (hn.cfbs h)⟩))))
  · exact .inr (.inr (.inr (.inr (.inr (.inl ⟨h, hmod _ hm (hn.blocks h)⟩)))))
  · exact .inr (.inr (.inr (.inr (.inr (.inr ⟨h, hmod _ hm (hn.xts h).1, by omega⟩)))))

/-- Whether a mode streams depends on the mode and `SEG`. -/
theorem Streams.congr {bs n : Nat} (h : Streams bs s n) (hmode : t.mode = s.mode) (hseg : t.seg = s.seg) :
    Streams bs t n := by
  rw [Streams, hmode, hseg]; exact h

end Sys2Proof.Machine

namespace Sys2Proof

open Machine

/-- Settles O17: one clause for each outcome of ENC and DEC; what passes the checks has the arm's output, of its input's
length (`transformArm_spec`). -/
theorem encDecChecksAndCompletion : Obligations.EncDecChecksAndCompletion := by
  intro encrypt olen data s
  rw [exec_transform]
  refine ⟨fun hm => transformWith_illegal _ hm, fun hm ho => transformWith_lengthError _ hm (.inl ho),
    fun hm _ hl => transformWith_lengthError _ hm (.inr ((lengthRefused_iff s _).mp hl)), fun hi hm ho hl => ?_⟩
  have hl' : lenOk Config.params s data.length = true := by simpa [lengthRefused_iff] using hl
  exact ⟨_, _, transformWith_ok _ _ _ _ hm ho hl', rfl, (transformArm_spec Config.params_valid encrypt s data hi hm hl').2⟩

/-- Settles O36: in CTR and OFB both directions are one byte loop, which undoes itself byte by byte. -/
theorem keystreamModesAreInvolutions : Obligations.KeystreamModesAreInvolutions := by
  intro s t olen data out hmode
  obtain ⟨f, o, harm, hout, htwice⟩ := transformArm_keystream Config.params hmode
  have hexec : ∀ encrypt data, exec (.transform encrypt olen data) s = transformWith Config.params (fold f) olen data s := by
    intro encrypt data
    simp only [exec_transform, transformWith, harm]
  refine ⟨(hexec true data).trans (hexec false data).symm, fun ht hanswers => ?_⟩
  obtain ⟨hm, ho, -, hfold, rfl⟩ := transformWith_of_answers ((hexec true data).symm.trans ht) hanswers
  obtain ⟨hlen, hback⟩ := fold_twice f o hout htwice hfold
  have hl := lenOk_bytes (p := Config.params) s out.length (hmode.imp_right .inl)
  calc exec (.enc olen out) s
    _ = .next ((fold f s out).1.finish (fold f s out).2) :=
      (hexec true out).trans (transformWith_ok _ _ _ _ hm (ho.trans hlen.symm) hl.2)
    _ = .next ((fold f s data).1.finish data) := by rw [hback]

/-- Settles O59: the first part leaves a state from which the second is what the whole message goes on with
(`transformArm_append`), whatever response stands on the port. -/
theorem chunksGiveTheSameStream : Obligations.ChunksGiveTheSameStream := by
  intro p encrypt a b s hv hi hlen ha hb
  rw [List.length_append] at hlen
  have hab : Streams p.bs s (a ++ b).length := List.length_append ▸ ha.add hb
  obtain ⟨hmode, hseg⟩ := (transformArm_frame (p := p) encrypt s a).mode_seg
  have hb' : Streams p.bs ((transformArm p encrypt s a).1.finish (transformArm p encrypt s a).2) b.length :=
    hb.congr hmode hseg
  obtain ⟨hm, hla⟩ := ha.lenOk_eq_true hi.xts_bs
  obtain ⟨-, hlab⟩ := hab.lenOk_eq_true hi.xts_bs
  obtain ⟨hm', hlb⟩ := hb'.lenOk_eq_true fun h => hi.xts_bs (hmode.symm.trans h)
  obtain ⟨hsecond, hwhole⟩ := transformArm_append encrypt s a b ha (fun h => (hb.xts h).1) (transformArm p encrypt s a).2
  refine ⟨_, _, _, _, _, execOn_transform_ok encrypt (by omega) hm hla, rfl,
    execOn_transform_ok encrypt (by omega) hm' hlb, rfl,
    execOn_transform_ok encrypt (by rwa [List.length_append]) hm hlab, ?_, ?_⟩
  · rw [hsecond, hwhole]
    exact State.finish_resp _ _
  · rw [hsecond]
    exact State.finish_sameRegisters _ _ _

end Sys2Proof
end

section
/-! The round-trip law (40_common.md R125). -/

namespace Sys2Proof.Machine

variable {p : Params} {mode : Mode} {runnable : Bool} {pay out : Bytes} {arm : State → State} {s t : State}

/-- An INIT that answers `OK` passed the checks of R114. -/
theorem initWith_of_answers (h : initWith p mode runnable pay arm s = .next t) (hout : t.Answers out) :
    runnable = true ∧ pay.length = ivLen p mode ∧ t = (arm { s.clear p with mode := mode }).finish [] := by
  rcases initWith_cases (p := p) mode runnable pay arm s with ⟨-, e⟩ | ⟨-, -, e⟩ | ⟨hr, hl, e⟩ <;> cases e.symm.trans h
  · simp [State.Answers, Status.word] at hout
  · simp [State.Answers, Status.word] at hout
  · exact ⟨hr, hl, rfl⟩

theorem State.clear_clear (s : State) (p : Params) : (s.clear p).clear p = s.clear p := rfl

/-- The command selects a mode and reads no register: where it answers `OK`, it does the same on the cleared engine. -/
def SelectsMode (p : Params) (run : State → Host.Outcome State Fault Refusal) : Prop :=
  ∀ s t, run s = .next t → t.Answers [] → t.mode ≠ .none ∧ run (s.clear p) = .next t

theorem initWith_selectsMode (hmode : mode ≠ .none) (harm : ∀ t, (arm t).mode = t.mode) :
    SelectsMode p (initWith p mode runnable pay arm) := by
  intro s t h hout
  obtain ⟨hr, hl, rfl⟩ := initWith_of_answers h hout
  refine ⟨by simpa [harm] using hmode, ?_⟩
  simp [initWith, hr, hl, State.clear_clear]

theorem initCtr_selectsMode (f : Flavor) : SelectsMode p (initCtr p f pay) :=
  initWith_selectsMode (mode := .ctr) (by decide) fun _ => rfl

theorem initCbccts_selectsMode (v : Variant) : SelectsMode p (initCbccts p v pay) :=
  initWith_selectsMode (mode := .cbccts) (by decide) fun _ => rfl

theorem initEcbcts_selectsMode (v : Variant) : SelectsMode p (initEcbcts p v pay) :=
  initWith_selectsMode (mode := .ecbcts) (by decide) fun _ => rfl

/-- R114: every INIT is the common part of INIT, for a mode that its arm keeps. -/
theorem init_selectsMode (i : Instr) (h : i.isInit = true) : SelectsMode p (execOn p i) := by
  cases i with
  | ldstCbc | ldstCfb | ldstCfb8 | ldstCfbs | ldstOfb | ldstPcbc | ldstIge | ldstXts | enc | dec | seek | getpos | getrem
  | getst | wipe => cases h
  | initCtr32be | initCtr32le | initCtr64be | initCtr64le | initCtr128be | initCtr128le | initBelt =>
    exact initCtr_selectsMode _
  | initCbccs1 | initCbccs2 | initCbccs3 => exact initCbccts_selectsMode _
  | initEcbcs1 | initEcbcs2 | initEcbcs3 => exact initEcbcts_selectsMode _
  | _ =>
    unfold execOn
    refine initWith_selectsMode ?mode ?arm
    case mode => decide
    case arm => exact fun _ => rfl

/-- After an INIT that succeeds the invariant holds, whatever the engine held before. -/
theorem init_inv (hv : p.Valid) {i : Instr} {s0 s : State} (h : i.isInit = true) (hs : execOn p i s0 = .next s)
    (hok : s.Answers []) : s.Inv p ∧ s.mode ≠ .none := by
  obtain ⟨hmode, hclear⟩ := init_selectsMode i h s0 s hs hok
  exact ⟨execOn_inv hv i _ _ (State.Inv.clear hv) hclear, hmode⟩

end Sys2Proof.Machine

namespace Sys2Proof

open Machine

/-- Settles O58: an INIT that succeeds leaves the invariant (`init_inv`), under which the arms of DEC undo those of ENC
(`decArm_encArm`). -/
theorem decryptionInvertsEncryption : Obligations.DecryptionInvertsEncryption := by
  intro p i s0 s data hv hinit hs hok hd hl
  obtain ⟨hi, hm⟩ := init_inv hv hinit hs hok
  obtain ⟨hdec, hsame⟩ := decArm_encArm hv s data hi hm hl
  have hlen : (encArm p s data).2.length = data.length := (encArm_spec hv s data hi hm hl).2
  have henc := execOn_transform_ok true hd hm hl
  have hback := execOn_transform_ok (data := (encArm p s data).2) false (by rwa [hlen]) hm (by rwa [hlen])
  rw [hlen, transformArm_false, hdec] at hback
  refine ⟨_, _, _, henc, rfl, hlen, hback, rfl, fun h1 h2 h3 => ?_⟩
  rw [hsame h1 h2 h3]
  exact State.finish_sameRegisters _ _ _

end Sys2Proof
end

section
/-! INIT takes MODE, FLAVOR, VARIANT and SEG from the fields of its word (40_common.md R114; 30_encoding.md R71). -/

namespace Sys2Proof.Machine

variable {p : Params} {mode : Mode} {runnable : Bool} {pay : Bytes} {arm : State → State} {s t : State}

/-- R114: MODE and SEG are these fields, and of FLAVOR and VARIANT the one that is live is `sub`. -/
def State.HasFields (t : State) (mode sub seg : Nat) : Prop :=
  t.mode.code = mode ∧ (t.mode = .ctr → t.flavor.code = sub) ∧ (t.mode.variantLive = true → t.variant.code = sub) ∧
    t.seg.toNat = seg

/-- An INIT that succeeds has the fields that its arm leaves. -/
theorem initWith_hasFields {m sub seg : Nat} (h : initWith p mode runnable pay arm s = .next t) (hok : t.Answers [])
    (harm : (arm { s.clear p with mode := mode }).HasFields m sub seg) : t.HasFields m sub seg := by
  obtain ⟨-, -, rfl⟩ := initWith_of_answers h hok
  exact harm

theorem initCtr_hasFields {f : Flavor} (h : initCtr p f pay s = .next t) (hok : t.Answers []) : t.HasFields 1 f.code 0 :=
  initWith_hasFields h hok ⟨rfl, fun _ => rfl, nofun, rfl⟩

theorem initCbccts_hasFields {v : Variant} (h : initCbccts p v pay s = .next t) (hok : t.Answers []) :
    t.HasFields 10 v.code 0 :=
  initWith_hasFields h hok ⟨rfl, nofun, fun _ => rfl, rfl⟩

theorem initEcbcts_hasFields {v : Variant} (h : initEcbcts p v pay s = .next t) (hok : t.Answers []) :
    t.HasFields 11 v.code 0 :=
  initWith_hasFields h hok ⟨rfl, nofun, fun _ => rfl, rfl⟩

/-- In the row of CFBS (the case `h_11`) `SEG` is a free field; the rows of CTR and of CTS set FLAVOR and VARIANT. -/
theorem hasFields_of_decodeInit {w : Word} {i : Instr} (h : decodeInit w pay = some i) (ht : exec i s = .next t)
    (hok : t.Answers []) : t.HasFields (field w 27 24) (field w 23 20) (field w 19 12) := by
  unfold decodeInit at h
  split at h
  case h_22 => cases h
  case h_11 hrsv hmode hsub =>
    cases h
    rw [hmode, hsub, ← toNat_segField w]
    unfold exec execInitCfbs at ht
    exact initWith_hasFields ht hok ⟨rfl, nofun, nofun, rfl⟩
  all_goals
    rename_i hrsv hmode hsub hseg
    cases h
    rw [hmode, hsub, hseg]
  case h_1 | h_2 | h_3 | h_4 | h_5 | h_6 | h_7 =>
    unfold exec at ht
    exact initCtr_hasFields ht hok
  case h_16 | h_17 | h_18 => exact initCbccts_hasFields ht hok
  case h_19 | h_20 | h_21 => exact initEcbcts_hasFields ht hok
  all_goals
    unfold exec at ht
    exact initWith_hasFields ht hok ⟨rfl, nofun, nofun, rfl⟩

/-- R72: among the rows of the table the INIT commands are those of opcode 1. -/
theorem decodeInit_of_decodeRow {w : Word} {ws : List Word} {bytes : Bytes} {i : Instr} (h : decodeRow w ws bytes = some i)
    (hi : i.isInit = true) : decodeInit w bytes = some i := by
  unfold decodeRow at h
  split at h
  case h_1 => exact h
  case h_2 =>
    unfold decodeLdst at h
    split at h <;> cases h <;> cases hi
  case h_10 => cases h
  all_goals
    obtain ⟨-, hrow⟩ := Option.ite_none_right_eq_some.mp h
    cases hrow
    cases hi

end Sys2Proof.Machine

namespace Sys2Proof

open Machine

/-- Settles O25: a row of INIT pins the fields of the word to what its command sets (`hasFields_of_decodeInit`). -/
theorem initTakesItsFieldsFromTheWord : Obligations.InitTakesItsFieldsFromTheWord := by
  intro w bytes i s t hdecode hi ht hok
  obtain ⟨_, _, hwords, -, hrow⟩ := decode_ok _ i hdecode
  cases hwords
  exact hasFields_of_decodeInit (decodeInit_of_decodeRow hrow hi) ht hok

end Sys2Proof
end

section
/-! LDST and GETST (40_common.md R118, R121, R122): the checks, what is loaded, and that what is exported is imported. -/

namespace Sys2Proof.Machine

variable {p : Params} {m : Mode} {seg spos : Byte} {mk : Bytes → Instr} {saved pay : Bytes} {s : State}

/-- The response is no register. -/
theorem State.SameRegisters.finish {t : State} (h : s.SameRegisters t) (out : Bytes) : s.SameRegisters (t.finish out) := by
  rw [sameRegisters_iff] at h ⊢
  exact h

/-! ### LDST -/

/-- R84, R220: whether LDST of the mode is legal at this `SEG` and block size. -/
def Mode.ldstRunnable (p : Params) (seg : Byte) : Mode → Bool
  | .cfbs => segInRange p seg
  | .xts => xtsRunnable p
  | .none | .ctr | .cbc | .cfb | .cfb8 | .ofb | .pcbc | .ige | .cbccts | .ecbcts => true

/-- R118: what LDST of the mode writes beside MODE, from the saved state and the position byte. -/
def Mode.load (p : Params) (seg : Byte) (m : Mode) (t : State) (saved : Bytes) (spos : Byte) : State :=
  match m with
  | .cbc | .cfb8 | .pcbc => { t with iv := saved }
  | .cfbs => { t with seg := seg, iv := saved }
  | .ofb => { t with iv := saved, pos := spos }
  | .cfb => { t with fb := saved, pos := spos }
  | .ige => { t with y := slice saved 0 p.bs, x := slice saved p.bs (2 * p.bs) }
  | .xts => { t with tw := saved }
  | .none | .ctr | .cbccts | .ecbcts => t

/-- The eight LDST commands are the common part of LDST, each with its mode's load. -/
theorem execOn_ldst (h : m.ldstCommand seg = some mk) (pay : Bytes) (s : State) :
    execOn p (mk pay) s = loadWith p m (m.ldstRunnable p seg) pay (m.load p seg) s := by
  cases m <;> cases h <;> rfl

theorem exec_ldst (h : m.ldstCommand seg = some mk) (pay : Bytes) (s : State) :
    exec (mk pay) s = loadWith Config.params m (m.ldstRunnable Config.params seg) pay (m.load Config.params seg) s := by
  rw [← execOn_params, execOn_ldst h]

theorem loadWith_illegal (load : State → Bytes → Byte → State) :
    loadWith p m false pay load s = .next (s.raise .illegalCommand) := by
  simp [loadWith]

theorem loadWith_wrongLength (load : State → Bytes → Byte → State) (h : pay.length ≠ stLen p m + 1) :
    loadWith p m true pay load s = .next (s.raise .constructionError) := by
  simp [loadWith, h]

theorem loadWith_wrongPos (load : State → Bytes → Byte → State) (hl : saved.length = stLen p m)
    (h : sposOk p m spos = false) : loadWith p m true (saved ++ [spos]) load s = .next (s.raise .constructionError) := by
  simp [loadWith, ← hl, h]

theorem loadWith_ok (load : State → Bytes → Byte → State) (hl : saved.length = stLen p m) (h : sposOk p m spos = true) :
    loadWith p m true (saved ++ [spos]) load s = .next ((load { s.clear p with mode := m } saved spos).finish []) := by
  simp [loadWith, ← hl, h, slice_zero]

/-- R118: the position bytes that LDST takes. -/
theorem sposOk_iff : sposOk p m spos = true ↔ if m = .cfb ∨ m = .ofb then spos.toNat < p.bs else spos = 0 := by
  cases m <;> simp [sposOk]

/-- R77: the length of the saved state at this machine's block size. -/
theorem stLen_of_ldst (h : m.ldstCommand seg = some mk) : stLen Config.params m = if m = .ige then 32 else 16 := by
  cases m <;> cases h <;> rfl

theorem ldstRunnable_of_seg (h : m = .cfbs → 1 ≤ seg.toNat ∧ seg.toNat ≤ Config.BS) :
    m.ldstRunnable Config.params seg = true := by
  cases m
  case cfbs => exact decide_eq_true (h rfl)
  all_goals rfl

/-- R72, R81: the word of LDST. -/
theorem encode_ldst (h : m.ldstCommand seg = some mk) (pay : Bytes) :
    encode (mk pay) = ⟨[BitVec.ofNat 32
      (0x20000000 + m.code * 0x1000000 + (if m = .cfbs then seg.toNat else 0) * 0x1000 + pay.length)], pay⟩ := by
  cases m <;> cases h <;> rfl

/-! ### GETST -/

/-- R121: the chaining value of the mode, which GETST exports before the position byte. -/
def State.chaining (s : State) : Bytes :=
  match s.mode with
  | .cbc | .cfb8 | .cfbs | .pcbc | .ofb => s.iv
  | .cfb => s.fb
  | .ige => s.y ++ s.x
  | .xts => s.tw
  | .none | .ctr | .cbccts | .ecbcts => []

/-- R121: the position byte is `POS`, which is zero where it is not live. -/
theorem exported_eq (hi : s.Inv p) (h : s.mode.ldstCommand seg = some mk) : exported s = some (s.chaining ++ [s.pos]) := by
  have hpos := hi.pos_dead
  cases hm : s.mode <;> simp_all [Mode.ldstCommand, exported, State.chaining, Mode.posLive]

theorem length_chaining (hi : s.Inv p) (h : s.mode.ldstCommand seg = some mk) : s.chaining.length = stLen p s.mode := by
  simpa using length_exported s hi _ (exported_eq hi h)

theorem sposOk_pos (hi : s.Inv p) (h : s.mode.ldstCommand seg = some mk) : sposOk p s.mode s.pos = true := by
  rw [sposOk_iff]
  split_ifs with hm
  · exact hi.pos_lt
  · exact hi.pos_dead (by cases hs : s.mode <;> simp_all [Mode.ldstCommand, Mode.posLive])

theorem ldstRunnable_of_inv (hi : s.Inv p) : s.mode.ldstRunnable p s.seg = true := by
  cases hm : s.mode
  case cfbs => exact decide_eq_true (hi.seg_range hm)
  case xts => exact decide_eq_true (hi.xts_bs hm)
  all_goals rfl

/-- R122: loading what was exported into the cleared engine gives every register back: the live ones are loaded, the others are
zero on both sides. -/
theorem load_chaining (hi : s.Inv p) (h : s.mode.ldstCommand s.seg = some mk) (other : State) :
    s.SameRegisters (s.mode.load p s.seg { other.clear p with mode := s.mode } s.chaining s.pos) := by
  rw [sameRegisters_iff]
  cases hm : s.mode
  case none | ctr | cbccts | ecbcts => simp [hm, Mode.ldstCommand] at h
  case ige =>
    have hy : slice (s.y ++ s.x) 0 p.bs = s.y := List.take_left' hi.y_length
    have hx : slice (s.y ++ s.x) p.bs (2 * p.bs) = s.x := slice_end _ _ _ _ hi.y_length (by rw [hi.y_length, hi.x_length]; omega)
    simp [hm, Mode.load, State.chaining, Mode.posLive, Mode.ivLive, Mode.variantLive, hx, hy, hi.seg_dead, hi.pos_dead,
      hi.iv_dead, hi.fb_dead, hi.tw_dead, hi.ctr_dead, hi.variant_dead]
  all_goals
    simp [hm, Mode.load, State.chaining, Mode.posLive, Mode.ivLive, Mode.variantLive, hi.seg_dead, hi.pos_dead,
      hi.iv_dead, hi.fb_dead, hi.xy_dead, hi.tw_dead, hi.ctr_dead, hi.variant_dead]

end Sys2Proof.Machine

namespace Sys2Proof

open Machine

/-- Settles O27: every LDST is the common part of LDST with its mode's load (`exec_ldst`), whose checks come one after the
other; what is loaded into the cleared engine is read off in each mode. -/
theorem ldstLoadsTheSavedState : Obligations.LdstLoadsTheSavedState := by
  intro m seg mk saved pay spos s h
  have hst := stLen_of_ldst h
  simp only [encode_ldst h, exec_ldst h]
  refine ⟨trivial, trivial, ?_, fun hseg => ?_⟩
  · rintro ⟨rfl, hseg⟩
    rw [Mode.ldstRunnable, segInRange_eq_false hseg]
    exact loadWith_illegal _
  rw [ldstRunnable_of_seg hseg, ← hst]
  refine ⟨fun hl => loadWith_wrongLength _ ?_, fun hl => ⟨fun hpos => loadWith_wrongPos _ hl ?_, fun hpos => ?_⟩⟩
  · rw [hst]
    split_ifs with hm <;> simpa [hm] using hl
  · rw [← Bool.not_eq_true, sposOk_iff]
    split_ifs with hm <;> simpa [hm] using hpos
  · rw [loadWith_ok _ hl (sposOk_iff.mpr hpos)]
    cases m
    case ige =>
      have hx : slice saved 16 32 = saved.drop 16 := by rw [← slice_all, hl]; rfl
      simp only [Mode.load, Config.params_bs, hx]
      rfl
    all_goals cases h <;> rfl

/-- Settles O28: the value is what `exported` gives for the mode, and there is none in the other modes. -/
theorem getstExportsTheChainingValue : Obligations.GetstExportsTheChainingValue := by
  intro s
  refine ⟨rfl, fun h => ?_, fun h => ?_, fun h => ?_, fun h => ?_, fun h => ?_, fun h => ?_⟩
  · exact execGetst_some s _ (by rcases h with h | h | h | h <;> simp [exported, h])
  · exact execGetst_some s _ (by simp [exported, h])
  · exact execGetst_some s _ (by simp [exported, h])
  · exact execGetst_some s _ (by simp [exported, h])
  · exact execGetst_some s _ (by simp [exported, h])
  · exact execGetst_none s (by rcases h with h | h | h | h <;> simp [exported, h])

/-- Settles O29: GETST exports the chaining value and `POS`, which pass the checks of LDST by the invariant; loading them gives
every register back (`load_chaining`). -/
theorem exportedStateImportsExactly : Obligations.ExportedStateImportsExactly := by
  intro s t other mk out hi hmk ht hout
  have hget := execGetst_some s _ (exported_eq hi hmk)
  cases hget.symm.trans ht
  cases hout
  have hset := exec_ldst hmk (s.chaining ++ [s.pos]) other
  rw [ldstRunnable_of_inv hi, loadWith_ok _ (length_chaining hi hmk) (sposOk_pos hi hmk)] at hset
  exact ⟨_, hset, State.finish_resp _ _, (load_chaining hi hmk other).finish []⟩

end Sys2Proof
end

section
/-! INIT in CTR mode, and the modes that a block size can carry (41_ctr.md R131, R132; 47_xts.md R220). -/

namespace Sys2Proof.Machine

variable {p : Params} {mode : Mode} {pay : Bytes} {arm : State → State} {s : State} {f : Flavor}

/-! ### The checks of R114 -/

theorem initWith_illegal : initWith p mode false pay arm s = .next (s.raise .illegalCommand) := by
  simp [initWith]

theorem initWith_wrongLength (h : pay.length ≠ ivLen p mode) :
    initWith p mode true pay arm s = .next (s.raise .constructionError) := by
  simp [initWith, h]

theorem initWith_ok (h : pay.length = ivLen p mode) :
    initWith p mode true pay arm s = .next ((arm { s.clear p with mode := mode }).finish []) := by
  simp [initWith, h]

/-! ### CTR -/

/-- The seven INIT commands of CTR are one command over the flavors. -/
theorem execOn_initCtr (f : Flavor) : execOn p (f.initCommand pay) s = initCtr p f pay s := by
  cases f <;> rfl

theorem exec_initCtr (f : Flavor) : exec (f.initCommand pay) s = initCtr Config.params f pay s := by
  rw [← execOn_params, execOn_initCtr]

/-- R72, R81: the word of INIT in CTR mode. -/
theorem encode_initCtr (f : Flavor) (pay : Bytes) :
    encode (f.initCommand pay) = ⟨[BitVec.ofNat 32 (0x11000000 + f.code * 0x100000 + pay.length)], pay⟩ := by
  cases f <;> rfl

/-- R131: this machine's block size carries every flavor. -/
theorem Flavor.supported_params (f : Flavor) : f.supported Config.params.bs = true := by
  cases f <;> rfl

theorem initCtr_illegal (h : f.supported p.bs = false) : initCtr p f pay s = .next (s.raise .illegalCommand) := by
  rw [initCtr, h, initWith_illegal]

theorem initCtr_wrongLength (h : f.supported p.bs = true) (hl : pay.length ≠ p.bs) :
    initCtr p f pay s = .next (s.raise .constructionError) := by
  rw [initCtr, h, initWith_wrongLength hl]

theorem initCtr_ok (h : f.supported p.bs = true) (hl : pay.length = p.bs) :
    initCtr p f pay s = .next (State.finish { s.clear p with
      mode := .ctr, flavor := f, nonce := if f = .belt then p.E pay else pay, ctr := 0, pos := 0, ksbuf := zeros p.bs } []) := by
  rw [initCtr, h, initWith_ok hl]

/-- R84: the fields of an INIT word that no CTR command has. -/
theorem reservedField_initCtr {bs : Nat} {w : Word} (hopc : opcOf w = 1) (hmode : field w 27 24 = 1)
    (h : 7 ≤ field w 23 20 ∨ field w 19 12 ≠ 0 ∨ field w 11 8 ≠ 0) : ReservedField bs w := by
  rcases h with hsub | hseg | hrsv
  · exact .inr (.inl ⟨hopc, .inl ⟨hmode, hsub⟩⟩)
  · exact .inl ⟨.inl hopc, .inr (.inr (.inr (.inl ⟨by omega, hseg⟩)))⟩
  · exact .inl ⟨.inl hopc, .inl hrsv⟩

/-! ### The modes that a block size can carry -/

/-- R131: on a block size without the flavor INIT is illegal, whatever its payload. -/
theorem execOn_initCtr_illegal (h : f.supported p.bs = false) :
    execOn p (f.initCommand pay) s = .next { s with resp := some ⟨3, []⟩ } :=
  (execOn_initCtr f).trans (initCtr_illegal h)

/-- R131: on a block size with the flavor INIT takes a nonce of one block. -/
theorem execOn_initCtr_succeeds (h : f.supported p.bs = true) (hl : pay.length = p.bs) :
    ∃ t, execOn p (f.initCommand pay) s = .next t ∧ t.mode = .ctr ∧ t.nonce = (if f = .belt then p.E pay else pay) ∧
      t.Answers [] :=
  ⟨_, (execOn_initCtr f).trans (initCtr_ok h hl), rfl, rfl, rfl⟩

theorem execOn_initXts : execOn p (.initXts pay) s =
    initWith p .xts (xtsRunnable p) pay (fun t => { t with tw := p.T pay }) s := rfl

end Sys2Proof.Machine

namespace Sys2Proof

open Machine

/-- Settles O24: the seven commands are `initCtr` over the flavors, which this machine's block size carries; the words with a
field out of range are among the reserved ones. -/
theorem initCtrKeepsTheNonce : Obligations.InitCtrKeepsTheNonce := by
  intro f pay s
  rw [exec_initCtr, encode_initCtr]
  exact ⟨rfl, fun hl => initCtr_ok f.supported_params hl, fun hl => initCtr_wrongLength f.supported_params hl,
    fun w hopc hmode hfields => reservedWordsAreIllegal.2 w (reservedField_initCtr hopc hmode hfields)⟩

/-- Settles O26: for CTR the block size decides by the flavor; XTS runs at 16 only. -/
theorem unsupportedBlockSizesAreIllegal : Obligations.UnsupportedBlockSizesAreIllegal := by
  intro p pay s
  simp only [List.forall_mem_cons, List.not_mem_nil, false_imp_iff, implies_true, and_true]
  refine ⟨fun h => ?_, fun h => ?_, fun h => ?_, fun h hl => ?_, fun h hl => ?_, fun h hl => ?_⟩
  · have hs : decide (4 ≤ p.bs) = false := decide_eq_false (by omega)
    exact ⟨execOn_initCtr_illegal (f := .ctr32be) hs, execOn_initCtr_illegal (f := .ctr32le) hs⟩
  · have hs : decide (8 ≤ p.bs) = false := decide_eq_false (by omega)
    exact ⟨execOn_initCtr_illegal (f := .ctr64be) hs, execOn_initCtr_illegal (f := .ctr64le) hs⟩
  · have hs : decide (p.bs = 16) = false := decide_eq_false h
    refine ⟨execOn_initCtr_illegal (f := .ctr128be) hs, execOn_initCtr_illegal (f := .ctr128le) hs,
      execOn_initCtr_illegal (f := .belt) hs, ?_, ?_⟩
    · rw [execOn_initXts, xtsRunnable, hs]
      exact initWith_illegal
    · rw [execOn_ldst (m := .xts) (seg := 0) rfl, Mode.ldstRunnable, xtsRunnable, hs]
      exact loadWith_illegal _
  · have hs : decide (4 ≤ p.bs) = true := decide_eq_true h
    exact ⟨execOn_initCtr_succeeds (f := .ctr32be) hs hl, execOn_initCtr_succeeds (f := .ctr32le) hs hl⟩
  · have hs : decide (8 ≤ p.bs) = true := decide_eq_true h
    exact ⟨execOn_initCtr_succeeds (f := .ctr64be) hs hl, execOn_initCtr_succeeds (f := .ctr64le) hs hl⟩
  · have hs : decide (p.bs = 16) = true := decide_eq_true h
    have hctr : ∀ f : Flavor, f.supported p.bs = true →
        ∃ t, execOn p (f.initCommand pay) s = .next t ∧ t.mode = .ctr ∧ t.Answers [] := fun f hf => by
      obtain ⟨t, ht, hm, -, hok⟩ := execOn_initCtr_succeeds hf (hl.trans h.symm)
      exact ⟨t, ht, hm, hok⟩
    refine ⟨⟨hctr .ctr128be hs, hctr .ctr128le hs, hctr .belt hs⟩, ?_⟩
    rw [execOn_initXts, xtsRunnable, hs]
    exact ⟨_, initWith_ok hl, rfl, rfl⟩

end Sys2Proof
end

section
/-! Counter blocks (41_ctr.md R133, R135, R136). -/

namespace Sys2Proof.Machine

variable {p : Params} {f : Flavor} {nonce : Bytes}

/-- R135: BelT-CTR counts over the whole block. -/
theorem le_blockForBelt (nonce : Bytes) (i : Nat) : le (blockForBelt nonce i) = (le nonce + 1 + i) % 2 ^ 128 := by
  rw [blockForBelt, le_leBytes]
  exact Nat.mod_mod _ _

/-- R133: in every layout some part of a counter block holds the counter, added to what the nonce has there. -/
theorem exists_counterValue (hs : f.supported p.bs = true) (hn : nonce.length = p.bs) :
    ∃ (value : Bytes → Nat) (base : Nat), ∀ i, value (blockFor p f nonce i) = (base + i) % 2 ^ f.width := by
  have hseg := supported_width f p.bs hs
  cases f
  case ctr32be | ctr64be | ctr128be =>
    exact ⟨fun b => be (b.drop (p.bs - Flavor.width _ / 8)), _, fun i => (blockForBe_parts _ nonce i hseg hn).2⟩
  case ctr32le | ctr64le | ctr128le =>
    exact ⟨fun b => le (b.take (Flavor.width _ / 8)), _, fun i => (blockForLe_parts _ nonce i).2⟩
  case belt => exact ⟨le, _, le_blockForBelt nonce⟩

/-- R136: counter blocks repeat with the period of the counter and not before. -/
theorem blockFor_eq_iff (hs : f.supported p.bs = true) (hn : nonce.length = p.bs) (i j : Nat) :
    blockFor p f nonce i = blockFor p f nonce j ↔ i % 2 ^ f.width = j % 2 ^ f.width := by
  constructor
  · intro h
    obtain ⟨value, base, hvalue⟩ := exists_counterValue hs hn
    have hsum : (base + i) % 2 ^ f.width = (base + j) % 2 ^ f.width := by rw [← hvalue, ← hvalue, h]
    exact Nat.ModEq.add_left_cancel' base hsum
  · intro h
    rw [← blockFor_mod, h, blockFor_mod]

end Sys2Proof.Machine

namespace Sys2Proof

open Machine

/-- Settles O32: the parts of a block by its layout, and the period by `blockFor_eq_iff`. -/
theorem counterBlockLayout : Obligations.CounterBlockLayout := by
  intro p f nonce i j hv hs hn seg
  have hseg := supported_width f p.bs hs
  refine ⟨(keystream_length hv f nonce i hs hn).1, ?_, ?_, ?_, blockFor_eq_iff hs hn i j⟩
  · rintro (rfl | rfl | rfl) <;> exact blockForBe_parts _ nonce i hseg hn
  · rintro (rfl | rfl | rfl) <;> exact blockForLe_parts _ nonce i
  · rintro rfl
    exact le_blockForBelt nonce i

end Sys2Proof
end

section
/-! ENC and DEC in CTR mode: the byte loop (41_ctr.md R137) and the stream by the position (R138). -/

namespace Sys2Proof.Machine

variable {p : Params} {s : State} {k n : Nat}

/-- R73: the packet of ENC or DEC. -/
theorem encode_transform (encrypt : Bool) (olen : Word) (data : Bytes) :
    encode (.transform encrypt olen data) =
      ⟨[if encrypt then 0x30000000#32 else 0x40000000#32, BitVec.ofNat 32 data.length, olen], data⟩ := by
  cases encrypt <;> rfl

/-- R73, R110: the packet and the check of the output capacity, on an engine with a mode. -/
theorem formatDAndLength (encrypt : Bool) (olen : Word) (data : Bytes) (hm : s.mode ≠ .none) :
    FormatDAndLength encrypt olen data s :=
  ⟨encode_transform encrypt olen data, fun ho => by
    rw [exec_transform]
    exact transformWith_lengthError _ hm (.inl ho)⟩

/-- R113, R137: ENC and DEC in CTR mode are one byte loop, on an input of any length. -/
theorem exec_transform_ctr (encrypt : Bool) (olen : Word) (data : Bytes) (hm : s.mode = .ctr)
    (ho : olen.toNat = data.length) :
    exec (.transform encrypt olen data) s =
      .next ((ctrArm Config.params s data).1.finish (ctrArm Config.params s data).2) := by
  obtain ⟨hmode, hl⟩ := lenOk_bytes (p := Config.params) s data.length (.inl hm)
  rw [exec_transform_ok encrypt olen data s hmode ho hl, transformArm_ctr encrypt s data hm]
  rfl

theorem length_ctrArm (s : State) (data : Bytes) : (ctrArm p s data).2.length = data.length :=
  length_fold_bytes (ctrByte p) s data _ ctrByte_out

theorem ctrArm_frame (s : State) (data : Bytes) : (ctrArm p s data).1 =
    { s with pos := (ctrArm p s data).1.pos, ctr := (ctrArm p s data).1.ctr, ksbuf := (ctrArm p s data).1.ksbuf } :=
  fold_ctr_frame (ctrByte p) ctrByte_frame s data

/-- R126: the loop keeps the invariant. -/
theorem ctrArm_inv (hv : p.Valid) (s : State) (data : Bytes) (hi : s.Inv p) (hm : s.mode = .ctr) :
    (ctrArm p s data).1.Inv p :=
  (bytes_spec (ctrByte p) .ctr (fun t b => by rw [ctrByte_frame]) (ctrByte_inv hv) (fun _ _ => rfl) s data hi hm).1

/-! ### Counting blocks by their first byte -/

/-- How many blocks `n` bytes touch: the whole ones, and one for what is left. -/
theorem ceilDiv_div_mod (hk : 0 < k) (n : Nat) : ceilDiv n k = n / k + ceilDiv (n % k) k := by
  have hsum : n + k - 1 = n % k + k - 1 + k * (n / k) := by
    have := Nat.div_add_mod n k
    omega
  rw [ceilDiv, ceilDiv, hsum, Nat.add_mul_div_left _ _ hk, Nat.add_comm]

/-- A position inside a block touches that block, its start touches none. -/
theorem ceilDiv_of_lt (hn : n < k) : ceilDiv n k = if n = 0 then 0 else 1 := by
  rw [ceilDiv]
  split_ifs with h
  · exact Nat.div_eq_of_lt (by omega)
  · exact Nat.div_eq_of_lt_le (by omega) (by omega)

/-- R139: `CTR` is past the block of the position once a byte of it has been used. -/
theorem ctr_eq_pblk_add (hi : s.Inv p) :
    s.ctr.toNat = (pblk s + ceilDiv s.pos.toNat p.bs) % 2 ^ s.flavor.width := by
  rw [ctr_of_pblk s hi, ceilDiv_of_lt hi.pos_lt]
  simp only [← byte_eq_zero_iff]
  split_ifs
  · exact (Nat.mod_eq_of_lt (pblk_lt s hi)).symm
  · rfl

/-- R138: the loop takes a new keystream block for each block that it is the first to touch. -/
theorem ctrArm_ctr (hv : p.Valid) (data : Bytes) (hi : s.Inv p) (hm : s.mode = .ctr) :
    (ctrArm p s data).1.ctr.toNat =
      (s.ctr.toNat + (ceilDiv (s.pos.toNat + data.length) p.bs - ceilDiv s.pos.toNat p.bs)) % 2 ^ s.flavor.width := by
  obtain ⟨hpos, hblk, -⟩ := ctrArm_view hv data s hi hm
  have hflavor : (ctrArm p s data).1.flavor = s.flavor := by rw [ctrArm_frame]
  have hle : ceilDiv s.pos.toNat p.bs ≤ ceilDiv (s.pos.toNat + data.length) p.bs := Nat.div_le_div_right (by omega)
  rw [ctr_eq_pblk_add (ctrArm_inv hv s data hi hm), ctr_eq_pblk_add hi, hflavor, hpos, hblk, Nat.mod_add_mod,
    Nat.mod_add_mod, Nat.add_assoc, ← ceilDiv_div_mod hv.bs_pos]
  congr 1
  omega

end Sys2Proof.Machine

namespace Sys2Proof

open Machine

/-- Settles O30: the arm is a loop of `ctrByte`, whose body is R137's; `ctrRefill` is the state between its two statements. -/
theorem ctrAppliesTheKeystream : Obligations.CtrAppliesTheKeystream := by
  intro encrypt olen data s hm
  refine ⟨formatDAndLength encrypt olen data (by simp [hm]), fun ho => ?_⟩
  refine ⟨_, _, exec_transform_ctr encrypt olen data hm ho, length_ctrArm s data,
    loop_bytes (ctrByte Config.params) _ ctrByte_out _ (fun a b => ?_) s data⟩
  exact ⟨ctrRefill Config.params a, fun h => if_pos h, fun h => if_neg h, rfl, rfl⟩

/-- Settles O31: the stream by the logical position (`ctrArm_view`), and `CTR` by the blocks touched (`ctrArm_ctr`). -/
theorem ctrBlockView : Obligations.CtrBlockView := by
  intro encrypt olen data s hi hm ho p c start
  have hv := Config.params_valid
  obtain ⟨hpos, -, hout⟩ := ctrArm_view hv data s hi hm
  have htouched : ceilDiv s.pos.toNat Config.params.bs = if s.pos = 0 then 0 else 1 := by
    simp only [ceilDiv_of_lt hi.pos_lt, byte_eq_zero_iff]
  refine ⟨_, _, exec_transform_ctr encrypt olen data hm ho, ?_, length_ctrArm s data, hout, hpos, ?_⟩
  · exact congrArg (State.finish · (ctrArm Config.params s data).2) (ctrArm_frame s data)
  · rw [← htouched]
    exact ctrArm_ctr hv data hi hm

end Sys2Proof
end

section
/-! SEEK, GETPOS and GETREM (41_ctr.md R139 to R144). -/

namespace Sys2Proof.Machine

variable {p : Params} {s other : State} {blk : BitVec 128} {off : Byte}

theorem execSeek_illegal (h : s.mode ≠ .ctr ∨ p.bs ≤ off.toNat) : execSeek blk off s p = .next (s.raise .illegalCommand) := by
  by_cases hm : s.mode = .ctr
  · simp [execSeek, hm, h.resolve_left (not_not.mpr hm)]
  · simp [execSeek, hm]

theorem execSeek_ok (hm : s.mode = .ctr) (h : off.toNat < p.bs) :
    execSeek blk off s p = .next ((seekTo p s blk off).finish []) := by
  simp [execSeek, hm, Nat.not_le.mpr h]

theorem execGetpos_illegal (h : s.mode ≠ .ctr) : execGetpos s = .next (s.raise .illegalCommand) := if_pos h

theorem execGetpos_ok (h : s.mode = .ctr) : execGetpos s = .next (s.finish (leBytes 16 (pblk s) ++ [s.pos])) :=
  if_neg (not_not.mpr h)

theorem execGetrem_illegal (h : s.mode ≠ .ctr) : execGetrem s p = .next (s.raise .illegalCommand) := if_pos h

theorem execGetrem_ok (h : s.mode = .ctr) :
    execGetrem s p =
      .next (s.finish (leBytes 16 (min (2 ^ s.flavor.width - 1 - s.ctr.toNat) (2 ^ p.remBits - 1)))) :=
  if_neg (not_not.mpr h)

/-- R140: SEEK to the start of a block generates no keystream. -/
theorem seekTo_zero (s : State) (blk : BitVec 128) :
    seekTo p s blk 0 = { s with ctr := BitVec.ofNat 128 (blk.toNat % 2 ^ s.flavor.width), pos := 0 } := rfl

/-- R140: SEEK into a block generates its keystream. -/
theorem seekTo_of_ne_zero (s : State) (blk : BitVec 128) (h : off ≠ 0) :
    seekTo p s blk off = { s with
      ksbuf := keystream p s.flavor s.nonce (blk.toNat % 2 ^ s.flavor.width)
      ctr := BitVec.ofNat 128 (s.flavor.next (blk.toNat % 2 ^ s.flavor.width))
      pos := off } := if_neg h

/-- A logical position fits in the operand of SEEK. -/
theorem toNat_pblk (hi : s.Inv p) : (BitVec.ofNat 128 (pblk s)).toNat = pblk s :=
  s.flavor.toNat_ofNat _ (pblk_lt s hi)

theorem seekTo_mode (s : State) (blk : BitVec 128) (off : Byte) : (seekTo p s blk off).mode = s.mode := by
  rw [(seekTo_frame s blk off).1]

theorem pblk_finish (s : State) (out : Bytes) : pblk (s.finish out) = pblk s := rfl

/-- R141: GETPOS after SEEK reports the position sought. -/
theorem execGetpos_seekTo (hm : s.mode = .ctr) :
    execGetpos ((seekTo p s blk off).finish []) =
      .next (((seekTo p s blk off).finish []).finish (leBytes 16 (blk.toNat % 2 ^ s.flavor.width) ++ [off])) := by
  obtain ⟨hpos, hblk⟩ := seekTo_position (p := p) s blk off
  have hmode : ((seekTo p s blk off).finish []).mode = .ctr := (seekTo_mode s blk off).trans hm
  rw [execGetpos_ok hmode, pblk_finish, State.finish_pos, hpos, hblk]

/-- R141: SEEK to the position where the stream stands changes nothing. -/
theorem seekTo_pblk (hi : s.Inv p) (hm : s.mode = .ctr) : seekTo p s (BitVec.ofNat 128 (pblk s)) s.pos = s := by
  have hblk : (BitVec.ofNat 128 (pblk s)).toNat % 2 ^ s.flavor.width = pblk s := by
    rw [toNat_pblk hi, Nat.mod_eq_of_lt (pblk_lt s hi)]
  have hctr := ctr_of_pblk s hi
  by_cases h : s.pos = 0
  · rw [if_pos h] at hctr
    rw [h, seekTo_zero, hblk, ← hctr, BitVec.ofNat_toNat, BitVec.setWidth_eq, ← h]
  · have hks : s.ksbuf = keystream p s.flavor s.nonce (pblk s) := by
      rw [pblk, if_neg h]
      exact hi.ksbuf_is_keystream hm h
    rw [if_neg h] at hctr
    rw [seekTo_of_ne_zero _ _ h, hblk, ← hks, ← hctr, BitVec.ofNat_toNat, BitVec.setWidth_eq]

/-- R140: SEEK reads the flavor and the nonce only; what was in `KSBUF` stays when it lands at the start of a block. -/
theorem seekTo_sameRegisters (h : other.SameRegisters { s with ctr := other.ctr, pos := other.pos, ksbuf := other.ksbuf })
    (blk : BitVec 128) (off : Byte) :
    { seekTo p s blk off with ksbuf := (seekTo p other blk off).ksbuf }.SameRegisters (seekTo p other blk off) ∧
      (off ≠ 0 → (seekTo p other blk off).ksbuf = (seekTo p s blk off).ksbuf) := by
  rw [sameRegisters_iff] at h
  rw [sameRegisters_iff]
  by_cases ho : off = 0
  · subst ho
    rw [seekTo_zero, seekTo_zero]
    simp_all
  · rw [seekTo_of_ne_zero _ _ ho, seekTo_of_ne_zero _ _ ho]
    simp_all

/-- R141: SEEK to the position of `s`, on an engine with its nonce and flavor, gives every register of `s` but a dead
`KSBUF`. -/
theorem seekTo_restores (hi : s.Inv p) (hm : s.mode = .ctr)
    (h : other.SameRegisters { s with ctr := other.ctr, pos := other.pos, ksbuf := other.ksbuf }) :
    let u := seekTo p other (BitVec.ofNat 128 (pblk s)) s.pos
    (s.pos ≠ 0 → s.SameRegisters u) ∧ { s with ksbuf := u.ksbuf }.SameRegisters u := by
  intro u
  obtain ⟨hsame, hks⟩ := seekTo_sameRegisters (p := p) h (BitVec.ofNat 128 (pblk s)) s.pos
  rw [seekTo_pblk hi hm] at hsame hks
  refine ⟨fun hpos => ?_, hsame⟩
  rwa [hks hpos] at hsame

/-- R74: the answer of GETPOS is the payload of SEEK to that position. -/
theorem decode_getpos (hi : s.Inv p) :
    decode ⟨[0x50000011#32], leBytes 16 (pblk s) ++ [s.pos]⟩ = .ok (.seek (BitVec.ofNat 128 (pblk s)) s.pos) := by
  have h := decodeInvertsEncode (.seek (BitVec.ofNat 128 (pblk s)) s.pos) rfl
  rwa [encode, toNat_pblk hi] at h

end Sys2Proof.Machine

namespace Sys2Proof

open Machine

/-- Settles O33: the checks of SEEK, and `seekTo` at the start of a block and inside one. -/
theorem seekSetsThePosition : Obligations.SeekSetsThePosition := by
  intro blk off s b
  refine ⟨rfl, fun hm => execSeek_illegal (.inl hm), fun ho => execSeek_illegal (.inr ho), fun hm h0 => ?_,
    fun hm h0 ho => ?_⟩
  · subst h0
    exact execSeek_ok hm (by decide)
  · refine (execSeek_ok hm ho).trans ?_
    rw [seekTo_of_ne_zero s blk h0]
    rfl

/-- Settles O34: GETPOS reports the position that SEEK moves to (`execGetpos_seekTo`); what it reports decodes to the SEEK
that restores the stream (`seekTo_restores`). -/
theorem seekAndGetposAreInverse : Obligations.SeekAndGetposAreInverse := by
  refine ⟨fun blk off s hm ho => ?_, fun s t other q i hi hm hother ht hq hdecode => ?_⟩
  · exact ⟨_, _, execSeek_ok hm ho, execGetpos_seekTo hm, rfl⟩
  · cases (execGetpos_ok hm).symm.trans ht
    cases hq
    cases (decode_getpos hi).symm.trans hdecode
    obtain ⟨hlive, hdead⟩ := seekTo_restores hi hm hother
    have hmode : other.mode = .ctr := ((sameRegisters_iff _ _).mp hother).1.symm.trans hm
    exact ⟨_, execSeek_ok hmode hi.pos_lt, rfl, fun hpos => (hlive hpos).finish [], hdead.finish []⟩

/-- Settles O35: both report what their rule counts, and are illegal outside CTR. -/
theorem getposAndGetremReport : Obligations.GetposAndGetremReport := fun _ =>
  ⟨rfl, rfl, fun hm => ⟨execGetpos_illegal hm, execGetrem_illegal hm⟩, fun hm => ⟨execGetpos_ok hm, execGetrem_ok hm⟩⟩

end Sys2Proof
end

section
/-! INIT.CBC, INIT.OFB and INIT.PCBC (42_cbc.md R160, 44_ofb.md R190, 45_pcbc.md R200). -/

namespace Sys2Proof.Machine

variable {mode : Mode} {pay : Bytes} {s : State} {i : Instr} {arm : State → State}

/-- A command that is the common part of INIT with an arm that stores the payload in `IV` on the cleared engine. -/
theorem exec_init_storesIv (hexec : exec i s = initWith Config.params mode true pay arm s)
    (harm : arm { s.clear Config.params with mode := mode } = { s.clear Config.params with mode := mode, iv := pay })
    (hiv : ivLen Config.params mode = Config.BS) :
    (pay.length = Config.BS → exec i s = .next { s.fresh with mode := mode, iv := pay }) ∧
      (pay.length ≠ Config.BS → exec i s = .next { s with resp := some ⟨2, []⟩ }) := by
  rw [hexec, ← hiv]
  refine ⟨fun hl => ?_, fun hl => initWith_wrongLength hl⟩
  rw [initWith_ok hl, harm]
  rfl

end Sys2Proof.Machine

namespace Sys2Proof

open Machine

/-- Settles O18: each command is the common part of INIT (R114) with an arm that stores the payload in `IV`; on the cleared
engine `POS`, which INIT.OFB also writes, is 0 already. -/
theorem initStoresTheIv : Obligations.InitStoresTheIv := by
  intro pay s c hc
  simp only [List.mem_cons, List.not_mem_nil, or_false] at hc
  have hzero : InitFieldsMustBeZero c.2.1.code := by
    rcases hc with rfl | rfl | rfl <;>
      exact initFieldsMustBeZero _ (by decide) (by decide) (by decide) (by decide)
  rcases hc with rfl | rfl | rfl
  · exact ⟨rfl, rfl, and_assoc.mp ⟨exec_init_storesIv (arm := fun t => { t with iv := pay }) rfl rfl rfl, hzero⟩⟩
  · exact ⟨rfl, rfl, and_assoc.mp ⟨exec_init_storesIv (arm := fun t => { t with iv := pay, pos := 0 }) rfl rfl rfl, hzero⟩⟩
  · exact ⟨rfl, rfl, and_assoc.mp ⟨exec_init_storesIv (arm := fun t => { t with iv := pay }) rfl rfl rfl, hzero⟩⟩

end Sys2Proof
end

section
/-! ENC and DEC in CBC mode (42_cbc.md R161, R162): a block loop that chains through `IV`. -/

namespace Sys2Proof.Machine

variable {p : Params} {s last : State} {olen : Word} {data : Bytes} {n k : Nat}

/-! ### Loops that chain through `IV` -/

/-- A loop whose output piece is `out` of the input piece and `IV`, and which leaves in `IV` what `next` makes of the input
piece and the output piece: before iteration `k` the chaining value is what iteration `k - 1` left. -/
theorem Loop.chain {piece outPiece : Nat → Bytes} {out next : Bytes → Bytes → Bytes}
    (h : Loop n piece outPiece (fun a b a' c => c = out b a.iv ∧ a' = { a with iv := next b c }) s last) :
    last = { s with iv := if n = 0 then s.iv else next (piece (n - 1)) (outPiece (n - 1)) } ∧
      ∀ k, k < n → outPiece k = out (piece k) (if k = 0 then s.iv else next (piece (k - 1)) (outPiece (k - 1))) := by
  obtain ⟨t, h0, hlast, hbody⟩ := h
  have hchain : ∀ k, k ≤ n → t k = { s with iv := if k = 0 then s.iv else next (piece (k - 1)) (outPiece (k - 1)) } := by
    intro k
    induction k with
    | zero => exact fun _ => h0
    | succ k ih =>
      intro hk
      rw [(hbody k hk).2, ih (by omega)]
      rfl
  refine ⟨hlast ▸ hchain n le_rfl, fun k hk => ?_⟩
  rw [(hbody k hk).1, hchain k hk.le]

/-- The chain of a block loop: its last state, its length and each of its blocks. -/
theorem fold_chunks_chain (f : State → Bytes → State × Bytes) (out next : Bytes → Bytes → Bytes) (P : State → Prop)
    (hf : ∀ a b, f a b = ({ a with iv := next b (out b a.iv) }, out b a.iv))
    (hP : ∀ a b, P a → b.length = k → P (f a b).1 ∧ (f a b).2.length = k) (hs : P s) (hd : data.length = n * k) :
    let r := fold f s (chunks k n data)
    r.1 = { s with iv := if n = 0 then s.iv else next (blk k data (n - 1)) (blk k r.2 (n - 1)) } ∧
      r.2.length = data.length ∧
      ∀ j, j < n → blk k r.2 j =
        out (blk k data j) (if j = 0 then s.iv else next (blk k data (j - 1)) (blk k r.2 (j - 1))) := by
  intro r
  obtain ⟨hlast, hblocks⟩ := Loop.chain (loop_blocks f P k n hP
    (fun a b a' c => c = out b a.iv ∧ a' = { a with iv := next b c }) (fun a b _ _ => by rw [hf]; exact ⟨rfl, rfl⟩) s hs data hd)
  exact ⟨hlast, (blocks_spec f P k hP s data n hs hd).2, hblocks⟩

/-! ### The checks of the block modes -/

/-- R111: CBC, PCBC and IGE take whole blocks. -/
theorem lenOk_blocks (hm : s.mode = .cbc ∨ s.mode = .pcbc ∨ s.mode = .ige) (n : Nat) :
    s.mode ≠ .none ∧ lenOk p s n = decide (n % p.bs = 0) := by
  rcases hm with hm | hm | hm <;> simp [lenOk, hm]

theorem exec_transform_blocks_lengthError (encrypt : Bool) (hm : s.mode = .cbc ∨ s.mode = .pcbc ∨ s.mode = .ige)
    (h : data.length % Config.BS ≠ 0 ∨ olen.toNat ≠ data.length) :
    exec (.transform encrypt olen data) s = .next { s with resp := some ⟨1, []⟩ } := by
  obtain ⟨hnone, hl⟩ := lenOk_blocks (p := Config.params) hm data.length
  rw [exec_transform]
  exact transformWith_lengthError _ hnone (h.symm.imp_right fun hmod => hl.trans (decide_eq_false hmod))

theorem exec_transform_blocks_ok (encrypt : Bool) (hm : s.mode = .cbc ∨ s.mode = .pcbc ∨ s.mode = .ige)
    (hd : data.length = n * Config.BS) (ho : olen.toNat = data.length) :
    exec (.transform encrypt olen data) s =
      .next ((transformArm Config.params encrypt s data).1.finish (transformArm Config.params encrypt s data).2) := by
  obtain ⟨hnone, hl⟩ := lenOk_blocks (p := Config.params) hm data.length
  exact exec_transform_ok encrypt olen data s hnone ho (hl.trans (decide_eq_true (hd ▸ Nat.mul_mod_left n _)))

/-! ### CBC -/

theorem transformArm_cbc (hv : p.Valid) (encrypt : Bool) (hm : s.mode = .cbc) (hd : data.length = n * p.bs) :
    transformArm p encrypt s data = fold (if encrypt then cbcEncBlock p else cbcDecBlock p) s (chunks p.bs n data) := by
  have hn : data.length / p.bs = n := Nat.div_eq_of_eq_mul_left hv.bs_pos hd
  cases encrypt <;> simp [transformArm, encArm, decArm, hm, cbcEncArm, cbcDecArm, hn]

/-- R10: this machine's `E` gives a block for every string. -/
theorem length_params_E (b : Bytes) : (Config.params.E b).length = Config.BS := Block.length_lift _ b

theorem exec_transform_cbc (encrypt : Bool) (hm : s.mode = .cbc) (hd : data.length = n * Config.BS)
    (ho : olen.toNat = data.length) :
    let r := fold (if encrypt then cbcEncBlock Config.params else cbcDecBlock Config.params) s (chunks Config.BS n data)
    exec (.transform encrypt olen data) s = .next (r.1.finish r.2) := by
  rw [exec_transform_blocks_ok encrypt (.inl hm) hd ho, transformArm_cbc Config.params_valid encrypt hm hd]
  rfl

end Sys2Proof.Machine

namespace Sys2Proof

open Machine

/-- Settles O37: the loop of `cbcEncBlock` chains through the block it puts out, in every state since `E` always gives a
block. -/
theorem cbcEncryptsAndChains : Obligations.CbcEncryptsAndChains := by
  intro n olen data s hm
  refine ⟨rfl, exec_transform_blocks_lengthError true (.inl hm), fun hd ho => ?_⟩
  obtain ⟨hlast, hlen, hblocks⟩ := fold_chunks_chain (cbcEncBlock Config.params)
    (fun b iv => Config.params.E (xorBytes b iv)) (fun _ c => c) (fun _ => True) (fun _ _ => rfl)
    (fun _ _ _ _ => ⟨trivial, length_params_E _⟩) trivial hd
  refine ⟨_, (exec_transform_cbc true hm hd ho).trans ?_, hlen, hblocks⟩
  rw [if_pos rfl, hlast]
  rfl

/-- Settles O38: the loop of `cbcDecBlock` chains through the block it takes in; the invariant gives the width of the first
chaining value. -/
theorem cbcDecryptsAndChains : Obligations.CbcDecryptsAndChains := by
  intro n olen data s hi hm
  refine ⟨exec_transform_blocks_lengthError false (.inl hm), fun hd ho => ?_⟩
  obtain ⟨hlast, hlen, hblocks⟩ := fold_chunks_chain (cbcDecBlock Config.params)
    (fun b iv => xorBytes (Config.params.D b) iv) (fun b _ => b) (fun t => t.iv.length = Config.BS) (fun _ _ => rfl)
    (fun t b ht hb => ⟨hb, by simp [cbcDecBlock, Config.params_valid.D_length b hb, ht]⟩) hi.iv_length hd
  refine ⟨_, (exec_transform_cbc false hm hd ho).trans ?_, hlen, hblocks⟩
  rw [if_neg Bool.false_ne_true, hlast]
  rfl

end Sys2Proof
end

section
/-! INIT.CFB, INIT.CFB8 and INIT.CFBS (43_cfb.md R170, R177, R179). -/

namespace Sys2Proof.Machine

variable {p : Params} {pay : Bytes} {seg : Byte} {s : State}

/-! ### Each command is the common part of INIT (R114) with its arm -/

theorem exec_initCfb (pay : Bytes) (s : State) :
    exec (.initCfb pay) s = initWith Config.params .cfb true pay
      (fun t => { t with fb := Config.params.E pay, pos := 0 }) s := rfl

theorem exec_initCfb8 (pay : Bytes) (s : State) :
    exec (.initCfb8 pay) s = initWith Config.params .cfb8 true pay (fun t => { t with iv := pay }) s := rfl

theorem exec_initCfbs (pay : Bytes) (seg : Byte) (s : State) :
    exec (.initCfbs seg pay) s = initWith Config.params .cfbs (segInRange Config.params seg) pay
      (fun t => { t with seg := seg, iv := pay }) s := rfl

/-! ### The commands that pass the checks -/

theorem exec_initCfb_ok (hl : pay.length = Config.BS) :
    exec (.initCfb pay) s = .next { s.fresh with mode := .cfb, fb := Config.params.E pay, pos := 0 } :=
  (exec_initCfb pay s).trans (initWith_ok hl)

theorem exec_initCfb8_ok (hl : pay.length = Config.BS) :
    exec (.initCfb8 pay) s = .next { s.fresh with mode := .cfb8, iv := pay } :=
  (exec_initCfb8 pay s).trans (initWith_ok hl)

/-- R84: the widths that CFBS has. -/
theorem segInRange_eq_true (h1 : 1 ≤ seg.toNat) (h2 : seg.toNat ≤ p.bs) : segInRange p seg = true :=
  decide_eq_true ⟨h1, h2⟩

theorem exec_initCfbs_ok (h1 : 1 ≤ seg.toNat) (h2 : seg.toNat ≤ Config.BS) (hl : pay.length = Config.BS) :
    exec (.initCfbs seg pay) s = .next { s.fresh with mode := .cfbs, seg := seg, iv := pay } := by
  rw [exec_initCfbs, segInRange_eq_true h1 h2]
  exact initWith_ok hl

end Sys2Proof.Machine

namespace Sys2Proof

open Machine

/-- Settles O19: the arm of INIT.CFB on the cleared engine, after the check of the payload's length (R114). -/
theorem initCfbEncryptsTheIv : Obligations.InitCfbEncryptsTheIv := fun pay s =>
  ⟨rfl, exec_initCfb_ok, fun hl => (exec_initCfb pay s).trans (initWith_wrongLength hl),
    initFieldsMustBeZero _ (by decide) (by decide) (by decide) (by decide)⟩

/-- Settles O23: the arms of both commands store the payload; the width of CFBS is checked before the payload's length. -/
theorem initCfb8AndCfbsStoreTheRawIv : Obligations.InitCfb8AndCfbsStoreTheRawIv := by
  intro pay seg s
  refine ⟨exec_initCfb8_ok, fun hl => (exec_initCfb8 pay s).trans (initWith_wrongLength hl), fun hseg => ?_, exec_initCfbs_ok,
    fun h1 h2 hl => ?_⟩
  · rw [exec_initCfbs, segInRange_eq_false hseg]
    exact initWith_illegal
  · rw [exec_initCfbs, segInRange_eq_true h1 h2]
    exact initWith_wrongLength hl

end Sys2Proof
end

section
/-! ENC and DEC in the CFB modes: the byte loops of CFB and CFB8 (43_cfb.md R171, R172, R178) and the segment loop of CFBS
(R180). -/

namespace Sys2Proof.Machine

variable {p : Params} {s t : State} {olen : Word} {data out : Bytes} {n : Nat}

/-! ### One iteration, in either direction: the ciphertext is what is fed back -/

/-- R171, R172. -/
theorem cfbByte_eq (encrypt : Bool) (s : State) (b : Byte) :
    (if encrypt then cfbEncByte p else cfbDecByte p) s b =
      (cfbFeed p s (if encrypt then b ^^^ s.fb.getD s.pos.toNat 0 else b), [b ^^^ s.fb.getD s.pos.toNat 0]) := by
  cases encrypt <;> rfl

/-- R178. -/
theorem cfb8Byte_eq (encrypt : Bool) (s : State) (b : Byte) :
    (if encrypt then cfb8EncByte p else cfb8DecByte p) s b =
      (shiftIn s [if encrypt then b ^^^ (p.E s.iv).getD 0 0 else b], [b ^^^ (p.E s.iv).getD 0 0]) := by
  cases encrypt <;> rfl

/-- R180. -/
theorem cfbsSeg_eq (encrypt : Bool) (s : State) (b : Bytes) :
    (if encrypt then cfbsEncSeg p else cfbsDecSeg p) s b =
      (shiftIn s (if encrypt then xorBytes b ((p.E s.iv).take s.seg.toNat) else b),
        xorBytes b ((p.E s.iv).take s.seg.toNat)) := by
  cases encrypt <;> rfl

/-- R180: what a segment shifts in is as long as the segment. -/
theorem length_cfbsSeg_fed (encrypt : Bool) (b ks : Bytes) (h : ks.length = b.length) :
    (if encrypt then xorBytes b ks else b).length = b.length := by
  cases encrypt <;> simp [h]

/-- An engine in CFBS of width `n`, with the invariant. -/
def IsCfbs (p : Params) (n : Nat) (s : State) : Prop := s.Inv p ∧ s.mode = .cfbs ∧ s.seg.toNat = n

/-- R126: a segment keeps the invariant, the mode and the width, and yields a segment. -/
theorem IsCfbs.seg (hv : p.Valid) (encrypt : Bool) (h : IsCfbs p n s) {b : Bytes} (hb : b.length = n) :
    IsCfbs p n ((if encrypt then cfbsEncSeg p else cfbsDecSeg p) s b).1 ∧
      ((if encrypt then cfbsEncSeg p else cfbsDecSeg p) s b).2.length = n := by
  obtain ⟨hi, hm, rfl⟩ := h
  cases encrypt
  · exact (cfbsDecSeg_inv hv s b hi hm hb).imp_left fun hinv => ⟨hinv, hm, rfl⟩
  · exact (cfbsEncSeg_inv hv s b hi hm hb).imp_left fun hinv => ⟨hinv, hm, rfl⟩

/-- R180: a segment shifts out as many bytes as the width. -/
theorem IsCfbs.shiftIn_eq (hv : p.Valid) (encrypt : Bool) (h : IsCfbs p n s) {b : Bytes} (hb : b.length = n) :
    let c := if encrypt then xorBytes b ((p.E s.iv).take n) else b
    shiftIn s c = { s with iv := s.iv.drop n ++ c } := by
  intro c
  obtain ⟨hi, hm, hn⟩ := h
  have hks : ((p.E s.iv).take n).length = b.length := by
    rw [List.length_take, hv.E_length _ hi.iv_length, hb, ← hn]
    exact Nat.min_eq_left (hi.seg_range hm).2
  have hc : c.length = n := (length_cfbsSeg_fed encrypt b _ hks).trans hb
  rw [shiftIn, hc]

/-! ### The commands -/

theorem exec_transform_cfb (encrypt : Bool) (hm : s.mode = .cfb) (ho : olen.toNat = data.length) :
    let r := fold (if encrypt then cfbEncByte Config.params else cfbDecByte Config.params) s data
    exec (.transform encrypt olen data) s = .next (r.1.finish r.2) := by
  obtain ⟨hmode, hl⟩ := lenOk_bytes (p := Config.params) s data.length (.inr (.inr (.inl hm)))
  rw [exec_transform_ok encrypt olen data s hmode ho hl, transformArm_cfb encrypt s data hm]

theorem exec_transform_cfb8 (encrypt : Bool) (hm : s.mode = .cfb8) (ho : olen.toNat = data.length) :
    let r := fold (if encrypt then cfb8EncByte Config.params else cfb8DecByte Config.params) s data
    exec (.transform encrypt olen data) s = .next (r.1.finish r.2) := by
  obtain ⟨hmode, hl⟩ := lenOk_bytes (p := Config.params) s data.length (.inr (.inr (.inr hm)))
  rw [exec_transform_ok encrypt olen data s hmode ho hl, transformArm_cfb8 encrypt s data hm]

/-- R111: CFBS takes whole segments. -/
theorem lenOk_cfbs (hm : s.mode = .cfbs) (n : Nat) : s.mode ≠ .none ∧ lenOk p s n = decide (n % s.seg.toNat = 0) := by
  simp [lenOk, hm]

theorem exec_transform_cfbs (encrypt : Bool) (hm : s.mode = .cfbs) (hseg : 1 ≤ s.seg.toNat)
    (hd : data.length = n * s.seg.toNat) (ho : olen.toNat = data.length) :
    let r := fold (if encrypt then cfbsEncSeg Config.params else cfbsDecSeg Config.params) s (chunks s.seg.toNat n data)
    exec (.transform encrypt olen data) s = .next (r.1.finish r.2) := by
  obtain ⟨hnone, hl⟩ := lenOk_cfbs (p := Config.params) hm data.length
  have hn : data.length / s.seg.toNat = n := Nat.div_eq_of_eq_mul_left hseg hd
  rw [exec_transform_ok encrypt olen data s hnone ho (hl.trans (decide_eq_true (hd ▸ Nat.mul_mod_left n _))),
    transformArm_cfbs encrypt s data hm, hn]

/-- R171, R172: ENC or DEC in CFB mode runs the byte loop of its direction, in which the ciphertext byte is fed back. -/
theorem exec_transform_cfb_loop (encrypt : Bool) (hm : s.mode = .cfb) (ho : olen.toNat = data.length) :
    ∃ out t, exec (.transform encrypt olen data) s = .next { t with resp := some ⟨0, out⟩ } ∧ out.length = data.length ∧
      Loop data.length (fun j => data.getD j 0) (fun j => out.getD j 0)
        (fun a b a' o =>
          o = b ^^^ a.fb.getD a.pos.toNat 0 ∧
          (a.pos.toNat + 1 = Config.BS →
            a' = { a with fb := Config.params.E (a.fb.set a.pos.toNat (if encrypt then o else b)), pos := 0 }) ∧
          (a.pos.toNat + 1 ≠ Config.BS →
            a' = { a with
              fb := a.fb.set a.pos.toNat (if encrypt then o else b), pos := BitVec.ofNat 8 (a.pos.toNat + 1) })) s t := by
  have hout := fun a b => congrArg Prod.snd (cfbByte_eq (p := Config.params) encrypt a b)
  refine ⟨_, _, exec_transform_cfb encrypt hm ho, length_fold_bytes _ s data _ hout,
    loop_bytes _ _ hout _ (fun a b => ?_) s data⟩
  rw [cfbByte_eq]
  exact ⟨rfl, fun hend => if_pos hend, fun hinside => if_neg hinside⟩

/-- R172: DEC of the ciphertext that ENC answered gives the plaintext back, and the engine that ENC left. -/
theorem exec_dec_of_exec_enc_cfb (hm : s.mode = .cfb) (henc : exec (.enc olen data) s = .next t) (hout : t.Answers out) :
    exec (.dec olen out) s = .next { t with resp := some ⟨0, data⟩ } := by
  obtain ⟨-, ho, -, harm, rfl⟩ := transformWith_of_answers ((exec_transform true olen data s).symm.trans henc) hout
  rw [transformArm_cfb true s data hm] at harm ⊢
  have hlen := length_fold_bytes (cfbEncByte Config.params) s data _ cfbEncByte_out
  have hundo := fold_undo_bytes (cfbEncByte Config.params) (cfbDecByte Config.params) _ cfbEncByte_out cfbDec_enc s data
  have hcipher : (fold (cfbEncByte Config.params) s data).2 = out := congrArg Prod.snd harm
  rw [hcipher] at hlen hundo
  refine (exec_transform_cfb false hm (ho.trans hlen.symm)).trans ?_
  rw [if_neg Bool.false_ne_true, hundo]
  rfl

end Sys2Proof.Machine

namespace Sys2Proof

open Machine

/-- Settles O39: the byte loop in the direction of ENC. -/
theorem cfbEncryptsByFeedback : Obligations.CfbEncryptsByFeedback := fun olen data _ hm =>
  ⟨formatDAndLength true olen data (by simp [hm]), exec_transform_cfb_loop true hm⟩

/-- Settles O40: the byte loop in the direction of DEC, which undoes that of ENC byte by byte. -/
theorem cfbDecryptsByFeedback : Obligations.CfbDecryptsByFeedback :=
  ⟨fun _ _ _ hm ho => exec_transform_cfb_loop false hm ho, fun _ _ _ _ _ => exec_dec_of_exec_enc_cfb⟩

/-- Settles O41: both directions are byte loops that shift the ciphertext byte in (`cfb8Byte_eq`). -/
theorem cfb8ShiftsTheCiphertextIn : Obligations.Cfb8ShiftsTheCiphertextIn := by
  intro encrypt olen data s hm
  have hout := fun a b => congrArg Prod.snd (cfb8Byte_eq (p := Config.params) encrypt a b)
  refine ⟨formatDAndLength encrypt olen data (by simp [hm]), fun ho => ?_⟩
  exact ⟨_, _, exec_transform_cfb8 encrypt hm ho, length_fold_bytes _ s data _ hout,
    loop_bytes _ _ hout _ (fun a b => ⟨rfl, congrArg Prod.fst (cfb8Byte_eq encrypt a b)⟩) s data⟩

/-- Settles O42: both directions are loops over segments of the width `SEG`, which the invariant keeps between 1 and `BS`. -/
theorem cfbsShiftsSegmentsIn : Obligations.CfbsShiftsSegmentsIn := by
  intro encrypt m olen data s hi hm n
  obtain ⟨hnone, hl⟩ := lenOk_cfbs (p := Config.params) hm data.length
  refine ⟨fun hpart => ?_, fun hd ho => ?_⟩
  · rw [exec_transform]
    exact transformWith_lengthError _ hnone (.inr (hl.trans (decide_eq_false hpart)))
  · have hstart : IsCfbs Config.params n s := ⟨hi, hm, rfl⟩
    have hkeep := fun a b ha hb => IsCfbs.seg (s := a) (b := b) (n := n) Config.params_valid encrypt ha hb
    refine ⟨_, _, exec_transform_cfbs encrypt hm (hi.seg_range hm).1 hd ho, (blocks_spec _ _ n hkeep s data m hstart hd).2,
      loop_blocks _ _ n m hkeep _ (fun a b ha hb => ?_) s hstart data hd⟩
    have hwidth : a.seg.toNat = n := ha.2.2
    rw [cfbsSeg_eq, hwidth]
    exact ⟨rfl, ha.shiftIn_eq Config.params_valid encrypt hb⟩

end Sys2Proof
end

section
/-! The CFB modes against each other (43_cfb.md R181 (a), (b)). -/

namespace Sys2Proof.Machine

variable {p : Params} {t u : State} {olen : Word} {data : Bytes} {n : Nat}

/-- R181 (a): an engine in CFBS of width 1 that stands where one in CFB8 stands. -/
def MatchesCfb8 (t u : State) : Prop := t.seg.toNat = 1 ∧ t.iv = u.iv

/-- R173, R181 (b): an engine in CFBS of width `BS` that stands where one in CFB stands at the start of a block: it holds the
last ciphertext block (or the IV), of which CFB holds the encryption. -/
def MatchesCfbBlock (p : Params) (t u : State) : Prop :=
  t.seg.toNat = p.bs ∧ t.iv.length = p.bs ∧ u.fb = p.E t.iv ∧ u.pos = 0

/-- A string that is not empty begins with its byte 0. -/
theorem take_one_eq_getD (b : Bytes) (h : 1 ≤ b.length) : b.take 1 = [b.getD 0 0] := by
  cases b with
  | nil => simp at h
  | cons x b => simp

/-- R181 (a): a segment of one byte is a byte of CFB8. -/
theorem MatchesCfb8.byte (hE : ∀ b, (p.E b).length = p.bs) (hbs : 1 ≤ p.bs) (encrypt : Bool) (h : MatchesCfb8 t u)
    (b : Byte) :
    let r := (if encrypt then cfbsEncSeg p else cfbsDecSeg p) t [b]
    let r' := (if encrypt then cfb8EncByte p else cfb8DecByte p) u b
    MatchesCfb8 r.1 r'.1 ∧ r.2 = r'.2 := by
  obtain ⟨hseg, hiv⟩ := h
  have hks : xorBytes [b] ((p.E t.iv).take t.seg.toNat) = [b ^^^ (p.E u.iv).getD 0 0] := by
    rw [hseg, hiv, take_one_eq_getD _ ((hE u.iv).symm ▸ hbs)]
    rfl
  rw [cfbsSeg_eq, cfb8Byte_eq, hks]
  refine ⟨⟨hseg, ?_⟩, rfl⟩
  cases encrypt <;> simp [hiv]

/-- R181 (a): the segment loop of width 1 is the byte loop of CFB8. -/
theorem MatchesCfb8.loop (hE : ∀ b, (p.E b).length = p.bs) (hbs : 1 ≤ p.bs) (encrypt : Bool) (h : MatchesCfb8 t u)
    (data : Bytes) :
    let r := fold (if encrypt then cfbsEncSeg p else cfbsDecSeg p) t (chunks t.seg.toNat data.length data)
    let r' := fold (if encrypt then cfb8EncByte p else cfb8DecByte p) u data
    MatchesCfb8 r.1 r'.1 ∧ r.2 = r'.2 := by
  intro r r'
  have hbytes : r = fold (if encrypt then cfbsEncSeg p else cfbsDecSeg p) t (data.map fun b => [b]) := by
    simp only [r, h.1, chunks_one]
  rw [hbytes]
  exact fold_sim _ _ _ MatchesCfb8 (fun _ => True) (fun _ _ b hab _ => hab.byte hE hbs encrypt b) t u data h fun _ _ => trivial

/-- R181 (a): ENC and DEC of CFBS of width 1 answer as those of CFB8, and leave the same `IV`. -/
theorem MatchesCfb8.exec_transform (encrypt : Bool) (h : MatchesCfb8 t u) (ht : t.mode = .cfbs) (hu : u.mode = .cfb8)
    (ho : olen.toNat = data.length) :
    ∃ t' u', exec (.transform encrypt olen data) t = .next t' ∧ exec (.transform encrypt olen data) u = .next u' ∧
      t'.resp = u'.resp ∧ t'.iv = u'.iv := by
  have hd : data.length = data.length * t.seg.toNat := by rw [h.1, Nat.mul_one]
  obtain ⟨⟨-, hiv⟩, hout⟩ := h.loop (p := Config.params) length_params_E (by decide) encrypt data
  exact ⟨_, _, exec_transform_cfbs encrypt ht h.1.ge hd ho, exec_transform_cfb8 encrypt hu ho,
    congrArg (fun out => some (Response.mk Status.ok.word out)) hout, hiv⟩

/-- R181 (b): a segment of one block is a block of CFB. -/
theorem MatchesCfbBlock.block (hv : p.Valid) (encrypt : Bool) (h : MatchesCfbBlock p t u) (b : Bytes) (hb : b.length = p.bs) :
    let r := (if encrypt then cfbsEncSeg p else cfbsDecSeg p) t b
    let r' := fold (if encrypt then cfbEncByte p else cfbDecByte p) u b
    MatchesCfbBlock p r.1 r'.1 ∧ r.2 = r'.2 := by
  obtain ⟨hseg, hiv, hfb, hpos⟩ := h
  have hE := hv.E_length t.iv hiv
  obtain ⟨hout, hnext⟩ := cfb_block hv encrypt b u (hfb ▸ hE) hpos hb
  have hks : (p.E t.iv).take t.seg.toNat = u.fb := by rw [hseg, hfb, List.take_of_length_le hE.le]
  have hfed := length_cfbsSeg_fed encrypt b u.fb (by rw [hfb, hE, hb])
  have hshift : (shiftIn t (if encrypt then xorBytes b u.fb else b)).iv = if encrypt then xorBytes b u.fb else b := by
    rw [shiftIn_iv, hfed, List.drop_of_length_le (by omega), List.nil_append]
  rw [cfbsSeg_eq, hks]
  exact ⟨⟨hseg, (congrArg List.length hshift).trans (hfed.trans hb),
    (congrArg State.fb hnext).trans (congrArg p.E hshift.symm), congrArg State.pos hnext⟩, hout.symm⟩

/-- R181 (b): on whole blocks the segment loop of width `BS` is the byte loop of CFB. -/
theorem MatchesCfbBlock.loop (hv : p.Valid) (encrypt : Bool) (h : MatchesCfbBlock p t u) (hd : data.length = n * p.bs) :
    let r := fold (if encrypt then cfbsEncSeg p else cfbsDecSeg p) t (chunks t.seg.toNat n data)
    let r' := fold (if encrypt then cfbEncByte p else cfbDecByte p) u data
    MatchesCfbBlock p r.1 r'.1 ∧ r.2 = r'.2 := by
  intro r r'
  have hblocks : r' = fold (fold (if encrypt then cfbEncByte p else cfbDecByte p)) u (chunks p.bs n data) := by
    rw [← fold_flatten, flatten_chunks p.bs n data hd]
  have hsim := fold_sim (if encrypt then cfbsEncSeg p else cfbsDecSeg p)
    (fold (if encrypt then cfbEncByte p else cfbDecByte p)) id (MatchesCfbBlock p) (fun b => b.length = p.bs)
    (fun _ _ b hab hb => hab.block hv encrypt b hb) t u (chunks p.bs n data) h (mem_chunks_length p.bs n data hd.ge)
  rw [List.map_id] at hsim
  simpa only [r, h.1, hblocks] using hsim

/-- R181 (b): ENC and DEC of CFBS of width `BS` answer whole blocks as those of CFB, and CFB ends at a block's start with the
encryption of what CFBS holds. -/
theorem MatchesCfbBlock.exec_transform (encrypt : Bool) (h : MatchesCfbBlock Config.params t u) (ht : t.mode = .cfbs)
    (hu : u.mode = .cfb) (hd : data.length = n * Config.BS) (ho : olen.toNat = data.length) :
    ∃ t' u', exec (.transform encrypt olen data) t = .next t' ∧ exec (.transform encrypt olen data) u = .next u' ∧
      t'.resp = u'.resp ∧ u'.fb = Config.params.E t'.iv ∧ u'.pos = 0 := by
  obtain ⟨⟨-, -, hfb, hpos⟩, hout⟩ := h.loop Config.params_valid encrypt hd
  exact ⟨_, _, exec_transform_cfbs encrypt ht (h.1.symm ▸ Config.params_valid.bs_pos) (h.1.symm ▸ hd) ho,
    exec_transform_cfb encrypt hu ho,
    congrArg (fun out => some (Response.mk Status.ok.word out)) hout, hfb, hpos⟩

end Sys2Proof.Machine

namespace Sys2Proof

open Machine

/-- Settles O43: the engines match after their INIT commands, and so ENC and DEC answer alike (`MatchesCfb8.exec_transform`,
`MatchesCfbBlock.exec_transform`). -/
theorem cfbModesAgree : Obligations.CfbModesAgree := by
  intro encrypt olen data iv s a b c d hiv ho ha hb hc hd
  cases (exec_initCfbs_ok (by decide) (by decide) hiv).symm.trans ha
  cases (exec_initCfb8_ok hiv).symm.trans hb
  cases (exec_initCfbs_ok (by decide) (by decide) hiv).symm.trans hc
  cases (exec_initCfb_ok hiv).symm.trans hd
  exact ⟨MatchesCfb8.exec_transform encrypt ⟨rfl, rfl⟩ rfl rfl ho,
    fun hwhole => MatchesCfbBlock.exec_transform encrypt ⟨rfl, hiv, rfl, rfl⟩ rfl rfl (div_mul_of_mod _ _ hwhole) ho⟩

end Sys2Proof
end

section
/-! ENC and DEC in OFB mode (44_ofb.md R191, R192): one byte loop for both commands, whose states do not depend on the data. -/

namespace Sys2Proof.Machine

variable {p : Params} {s t t' : State} {olen : Word} {data data' : Bytes}

/-- R191: ENC and DEC in OFB mode are one byte loop, on an input of any length. -/
theorem exec_transform_ofb (encrypt : Bool) (hm : s.mode = .ofb) (ho : olen.toNat = data.length) :
    exec (.transform encrypt olen data) s =
      .next ((fold (ofbByte Config.params) s data).1.finish (fold (ofbByte Config.params) s data).2) := by
  obtain ⟨hmode, hl⟩ := lenOk_bytes (p := Config.params) s data.length (.inr (.inl hm))
  rw [exec_transform_ok encrypt olen data s hmode ho hl, transformArm_ofb encrypt s data hm]

/-- R191: the keystream is refilled and consumed whatever the bytes are. -/
theorem fold_ofbByte_state_congr (s : State) (h : data.length = data'.length) :
    (fold (ofbByte p) s data).1 = (fold (ofbByte p) s data').1 :=
  fold_state_congr (ofbByte p) (fun _ _ _ => rfl) s data data' h

/-- R191: inputs of one length leave the engine with the same registers, whether they pass the checks of R110 or not. -/
theorem exec_transform_ofb_sameRegisters (encrypt : Bool) (hm : s.mode = .ofb) (hlen : data.length = data'.length)
    (ht : exec (.transform encrypt olen data) s = .next t) (ht' : exec (.transform encrypt olen data') s = .next t') :
    t.SameRegisters t' := by
  by_cases ho : olen.toNat = data.length
  · cases (exec_transform_ofb encrypt hm ho).symm.trans ht
    cases (exec_transform_ofb encrypt hm (ho.trans hlen)).symm.trans ht'
    rw [fold_ofbByte_state_congr s hlen]
    exact State.finish_sameRegisters _ _ _
  · have hrefuse : ∀ d, olen.toNat ≠ d.length → exec (.transform encrypt olen d) s = .next (s.raise .lengthError) :=
      fun d hd => (formatDAndLength encrypt olen d (by simp [hm])).2 hd
    cases (hrefuse data ho).symm.trans ht
    cases (hrefuse data' (hlen ▸ ho)).symm.trans ht'
    rfl

end Sys2Proof.Machine

namespace Sys2Proof

open Machine

/-- Settles O44: the loop of `ofbByte`, whose refill is the branch on `POS`; what it leaves depends on the input's length
only. -/
theorem ofbAppliesTheKeystream : Obligations.OfbAppliesTheKeystream := by
  refine ⟨fun encrypt olen data s hm => ⟨formatDAndLength encrypt olen data (by simp [hm]), fun ho => ?_⟩,
    fun encrypt olen data data' s t t' hm hlen ht ht' => ?_⟩
  · refine ⟨_, _, exec_transform_ofb encrypt hm ho, length_fold_bytes _ s data _ ofbByte_out,
      loop_bytes _ _ ofbByte_out _ (fun a b => ?_) s data⟩
    exact ⟨ofbRefill Config.params a, fun hstart => if_pos hstart, fun hinside => if_neg hinside, rfl, rfl⟩
  · have hsame := exec_transform_ofb_sameRegisters encrypt hm hlen ht ht'
    rw [hsame]
    exact ⟨rfl, rfl⟩

/-- Settles O45: `ofb_view` on the loop that both commands run. -/
theorem ofbStreamIsIteratedEncryption : Obligations.OfbStreamIsIteratedEncryption := by
  intro encrypt olen data s hm hpos ho
  obtain ⟨hlast, hiv, hstream⟩ := ofb_view Config.params_valid data s hpos
  exact ⟨_, _, exec_transform_ofb encrypt hm ho, rfl, length_fold_bytes _ s data _ ofbByte_out, hstream, hiv, hlast⟩

end Sys2Proof
end

section
/-! ENC and DEC in PCBC mode (45_pcbc.md R201, R202): a block loop that chains the exclusive or of its input and output
blocks. -/

namespace Sys2Proof.Machine

variable {p : Params} {s : State} {olen : Word} {data : Bytes} {n : Nat}

/-! ### The commands whose input is whole blocks -/

/-- R111: ENC or DEC whose arm is a loop over blocks runs that loop, from any start with what every iteration keeps. -/
theorem exec_transform_blocks_loop {f : State → Bytes → State × Bytes} {P : State → Prop}
    {body : State → Bytes → State → Bytes → Prop} (encrypt : Bool)
    (hm : s.mode = .cbc ∨ s.mode = .pcbc ∨ s.mode = .ige)
    (harm : transformArm Config.params encrypt s data = fold f s (chunks Config.BS n data))
    (hkeep : ∀ a b, P a → b.length = Config.BS → P (f a b).1 ∧ (f a b).2.length = Config.BS)
    (hbody : ∀ a b, P a → b.length = Config.BS → body a b (f a b).1 (f a b).2) (hs : P s)
    (hd : data.length = n * Config.BS) (ho : olen.toNat = data.length) :
    ∃ out t, exec (.transform encrypt olen data) s = .next { t with resp := some ⟨0, out⟩ } ∧ out.length = data.length ∧
      Loop n (blk Config.BS data) (blk Config.BS out) body s t := by
  have hexec := exec_transform_blocks_ok encrypt hm hd ho
  rw [harm] at hexec
  exact ⟨_, _, hexec, (blocks_spec f P _ hkeep s data n hs hd).2, loop_blocks f P _ n hkeep body hbody s hs data hd⟩

/-! ### PCBC -/

/-- One block, in either direction: the exclusive or of what goes in and what comes out is the next chaining value. -/
theorem pcbcBlock_eq (encrypt : Bool) (s : State) (b : Bytes) :
    (if encrypt then pcbcEncBlock p else pcbcDecBlock p) s b =
      let o := if encrypt then p.E (xorBytes b s.iv) else xorBytes (p.D b) s.iv
      ({ s with iv := xorBytes o b }, o) := by
  cases encrypt <;> rfl

/-- R126: a block keeps the width of `IV`, and yields a block. -/
theorem pcbcBlock_length (hv : p.Valid) (encrypt : Bool) {b : Bytes} (hiv : s.iv.length = p.bs) (hb : b.length = p.bs) :
    let r := (if encrypt then pcbcEncBlock p else pcbcDecBlock p) s b
    r.1.iv.length = p.bs ∧ r.2.length = p.bs := by
  intro r
  have hout : r.2.length = p.bs := by
    cases encrypt
    · simp [r, pcbcDecBlock, hv.D_length b hb, hiv]
    · exact hv.E_length _ (by simp [hb, hiv])
  have hnext : r.1.iv = xorBytes r.2 b := by simp only [r, pcbcBlock_eq]
  exact ⟨by simp [hnext, hout, hb], hout⟩

theorem transformArm_pcbc (hv : p.Valid) (encrypt : Bool) (hm : s.mode = .pcbc) (hd : data.length = n * p.bs) :
    transformArm p encrypt s data = fold (if encrypt then pcbcEncBlock p else pcbcDecBlock p) s (chunks p.bs n data) := by
  have hn : data.length / p.bs = n := Nat.div_eq_of_eq_mul_left hv.bs_pos hd
  cases encrypt <;> simp [transformArm, encArm, decArm, hm, pcbcEncArm, pcbcDecArm, hn]

/-- R201, R202: ENC or DEC in PCBC mode runs the block loop of its direction. -/
theorem exec_transform_pcbc_loop (encrypt : Bool) (hm : s.mode = .pcbc) (hiv : s.iv.length = Config.BS)
    (hd : data.length = n * Config.BS) (ho : olen.toNat = data.length) :
    ∃ out t, exec (.transform encrypt olen data) s = .next { t with resp := some ⟨0, out⟩ } ∧ out.length = data.length ∧
      Loop n (blk Config.BS data) (blk Config.BS out)
        (fun a b a' o =>
          o = (if encrypt then Config.params.E (xorBytes b a.iv) else xorBytes (Config.params.D b) a.iv) ∧
          a' = { a with iv := xorBytes o b }) s t :=
  exec_transform_blocks_loop (P := fun t => t.iv.length = Config.BS) encrypt (.inr (.inl hm))
    (transformArm_pcbc Config.params_valid encrypt hm hd) (fun _ _ => pcbcBlock_length Config.params_valid encrypt)
    (fun _ _ _ _ => by rw [pcbcBlock_eq]; exact ⟨rfl, rfl⟩) hiv hd ho

end Sys2Proof.Machine

namespace Sys2Proof

open Machine

/-- Settles O46: the loop of `exec_transform_pcbc_loop` in each direction; the invariant gives the width of the first chaining
value. -/
theorem pcbcChainsPlaintextAndCiphertext : Obligations.PcbcChainsPlaintextAndCiphertext := by
  intro n olen data s hi hm
  refine ⟨rfl, rfl, fun hbad => ?_, fun hd ho => ?_⟩
  · exact ⟨exec_transform_blocks_lengthError true (.inr (.inl hm)) hbad,
      exec_transform_blocks_lengthError false (.inr (.inl hm)) hbad⟩
  · exact ⟨exec_transform_pcbc_loop true hm hi.iv_length hd ho, exec_transform_pcbc_loop false hm hi.iv_length hd ho⟩

end Sys2Proof
end

section
/-! IGE (46_ige.md): INIT splits its payload (R210), and ENC and DEC are block loops that replace both registers at once
(R211, R212). -/

namespace Sys2Proof.Machine

variable {p : Params} {s : State} {olen : Word} {x y pay data : Bytes} {n : Nat}

/-! ### INIT -/

theorem exec_initIge (pay : Bytes) (s : State) :
    exec (.initIge pay) s = initWith Config.params .ige true pay
      (fun t => { t with y := slice pay 0 Config.BS, x := slice pay Config.BS (2 * Config.BS) }) s := rfl

/-- R210: the first half of the payload is `Y`, the second is `X`. -/
theorem exec_initIge_ok (hy : y.length = Config.BS) (hx : x.length = Config.BS) :
    exec (.initIge (y ++ x)) s = .next { s.fresh with mode := .ige, y := y, x := x } := by
  have hl : (y ++ x).length = 2 * Config.BS := by rw [List.length_append, hy, hx, Nat.two_mul]
  have hfirst : slice (y ++ x) 0 Config.BS = y := by rw [slice_zero, List.take_left' hy]
  have hsecond : slice (y ++ x) Config.BS (2 * Config.BS) = x := slice_end y x _ _ hy (List.length_append ▸ hl)
  rw [exec_initIge, initWith_ok hl, hfirst, hsecond]
  rfl

/-! ### ENC and DEC -/

/-- What the block loops of IGE keep: the widths of the registers, and the mode. -/
def IsIge (p : Params) (s : State) : Prop := s.Inv p ∧ s.mode = .ige

/-- R126: a block keeps the invariant and the mode, and yields a block. -/
theorem IsIge.block (hv : p.Valid) (encrypt : Bool) (h : IsIge p s) {b : Bytes} (hb : b.length = p.bs) :
    let r := (if encrypt then igeEncBlock p else igeDecBlock p) s b
    IsIge p r.1 ∧ r.2.length = p.bs := by
  obtain ⟨hi, hm⟩ := h
  cases encrypt
  · obtain ⟨hinv, hout⟩ := igeDecBlock_inv hv s b hi hm hb
    exact ⟨⟨hinv, hm⟩, hout⟩
  · obtain ⟨hinv, hout⟩ := igeEncBlock_inv hv s b hi hm hb
    exact ⟨⟨hinv, hm⟩, hout⟩

/-- One block, in either direction: `X` becomes the plaintext block and `Y` the ciphertext block. -/
theorem igeBlock_eq (encrypt : Bool) (s : State) (b : Bytes) :
    (if encrypt then igeEncBlock p else igeDecBlock p) s b =
      let o := if encrypt then xorBytes (p.E (xorBytes b s.y)) s.x else xorBytes (p.D (xorBytes b s.x)) s.y
      ({ s with x := if encrypt then b else o, y := if encrypt then o else b }, o) := by
  cases encrypt <;> rfl

theorem transformArm_ige (hv : p.Valid) (encrypt : Bool) (hm : s.mode = .ige) (hd : data.length = n * p.bs) :
    transformArm p encrypt s data = fold (if encrypt then igeEncBlock p else igeDecBlock p) s (chunks p.bs n data) := by
  have hn : data.length / p.bs = n := Nat.div_eq_of_eq_mul_left hv.bs_pos hd
  cases encrypt <;> simp [transformArm, encArm, decArm, hm, igeEncArm, igeDecArm, hn]

/-- R211, R212: ENC or DEC in IGE mode runs the block loop of its direction. -/
theorem exec_transform_ige_loop (encrypt : Bool) (h : IsIge Config.params s) (hd : data.length = n * Config.BS)
    (ho : olen.toNat = data.length) :
    ∃ out t, exec (.transform encrypt olen data) s = .next { t with resp := some ⟨0, out⟩ } ∧ out.length = data.length ∧
      Loop n (blk Config.BS data) (blk Config.BS out)
        (fun a b a' o =>
          o = (if encrypt then xorBytes (Config.params.E (xorBytes b a.y)) a.x
            else xorBytes (Config.params.D (xorBytes b a.x)) a.y) ∧
          a' = { a with x := if encrypt then b else o, y := if encrypt then o else b }) s t :=
  exec_transform_blocks_loop encrypt (.inr (.inr h.2)) (transformArm_ige Config.params_valid encrypt h.2 hd)
    (fun _ _ ha hb => ha.block Config.params_valid encrypt hb) (fun _ _ _ _ => by rw [igeBlock_eq]; exact ⟨rfl, rfl⟩) h hd ho

end Sys2Proof.Machine

namespace Sys2Proof

open Machine

/-- Settles O21: `exec_initIge_ok` for the two halves, and the checks every INIT makes. -/
theorem initIgeSplitsItsPayload : Obligations.InitIgeSplitsItsPayload := fun _ _ pay s =>
  ⟨rfl, exec_initIge_ok, fun hl => (exec_initIge pay s).trans (initWith_wrongLength hl),
    initFieldsMustBeZero _ (by decide) (by decide) (by decide) (by decide)⟩

/-- Settles O47: the loop of `exec_transform_ige_loop` for ENC. -/
theorem igeEncryptsWithBothRegisters : Obligations.IgeEncryptsWithBothRegisters := fun _ _ _ _ hi hm =>
  ⟨rfl, exec_transform_blocks_lengthError true (.inr (.inr hm)), exec_transform_ige_loop true ⟨hi, hm⟩⟩

/-- Settles O48: the loop of `exec_transform_ige_loop` for DEC. -/
theorem igeDecryptsWithBothRegisters : Obligations.IgeDecryptsWithBothRegisters := fun _ _ _ _ hi hm =>
  ⟨exec_transform_blocks_lengthError false (.inr (.inr hm)), exec_transform_ige_loop false ⟨hi, hm⟩⟩

end Sys2Proof
end

section
/-! Errors, reset and the engine with no mode (60_exceptions.md R264; 70_reset_and_hazards.md R280, R282). -/

namespace Sys2Proof

open Machine

/-- Settles O14: a command raises an error, which writes the response only, or finishes with the status `OK` (`exec_shape`). -/
theorem errorsChangeNothing : Obligations.ErrorsChangeNothing := by
  intro i s t r0 out h hresp hr0
  rcases exec_shape i s with ⟨e, -, raises⟩ | ⟨u, o, finishes, -⟩
  · cases raises.symm.trans h
    cases hresp
    exact ⟨rfl, rfl⟩
  · cases finishes.symm.trans h
    cases hresp
    exact absurd rfl hr0

/-- Settles O9: the reset state holds the zeros that `clear` writes, and WIPE clears every register. -/
theorem resetAndWipeZeroEveryRegister : Obligations.ResetAndWipeZeroEveryRegister :=
  ⟨rfl, rfl, rfl, rfl, rfl, rfl, by simp [State.reset], rfl, rfl, fun _ => ⟨rfl, rfl⟩⟩

/-- Settles O10: the reset state is what clearing every register leaves. -/
theorem resetMeetsInvariant : Obligations.ResetMeetsInvariant :=
  State.Inv.clear (s := State.reset) Config.params_valid

/-- Settles O13: with no mode the check of the mode, the first of each of the six commands, raises `IllegalCommand`. -/
theorem uninitialisedEngineProcessesNothing : Obligations.UninitialisedEngineProcessesNothing := by
  intro s olen data blk off hm
  have hctr : s.mode ≠ .ctr := by simp [hm]
  simp only [List.forall_mem_cons, List.not_mem_nil, false_imp_iff, implies_true, and_true]
  exact ⟨transformWith_illegal _ hm, transformWith_illegal _ hm, execSeek_illegal (.inl hctr), execGetpos_illegal hctr,
    execGetrem_illegal hctr, execGetst_none s (by simp [exported, hm])⟩

end Sys2Proof
end

section
/-! INIT of XTS and of the CTS commands (47_xts.md R220, R223; 48_cts.md R240). -/

namespace Sys2Proof.Machine

variable {p : Params} {s : State} {v : Variant} {mk : Bytes → Instr} {pay : Bytes}

/-- R220: this machine's block size carries XTS. -/
theorem exec_initXts (pay : Bytes) (s : State) : exec (.initXts pay) s =
    initWith Config.params .xts true pay (fun t => { t with tw := Config.params.T pay }) s := rfl

/-- R223: the tweak is the encrypted payload. -/
theorem exec_initXts_ok (hl : pay.length = 16) :
    exec (.initXts pay) s = .next { s.fresh with mode := .xts, tw := Config.params.T pay } :=
  (exec_initXts pay s).trans (initWith_ok hl)

theorem execOn_initXts_illegal (hbs : p.bs ≠ 16) : execOn p (.initXts pay) s = .next (s.raise .illegalCommand) := by
  rw [execOn_initXts, xtsRunnable, decide_eq_false hbs, initWith_illegal]

/-- R240: the three INIT commands over the CBC base are one command over the variants. -/
theorem exec_initCbccts (h : v.initCommand true = some mk) (pay : Bytes) (s : State) :
    exec (mk pay) s = initCbccts Config.params v pay s ∧
      encode (mk pay) = ⟨[BitVec.ofNat 32 (0x1A000000 + v.code * 0x100000 + pay.length)], pay⟩ := by
  cases v <;> cases h <;> exact ⟨rfl, rfl⟩

/-- R240: and those over the ECB base. -/
theorem exec_initEcbcts (h : v.initCommand false = some mk) (pay : Bytes) (s : State) :
    exec (mk pay) s = initEcbcts Config.params v pay s ∧
      encode (mk pay) = ⟨[BitVec.ofNat 32 (0x1B000000 + v.code * 0x100000 + pay.length)], pay⟩ := by
  cases v <;> cases h <;> exact ⟨rfl, rfl⟩

/-- R84: the fields of an INIT word that no CTS command has. -/
theorem reservedField_initCts {bs : Nat} {w : Word} (hopc : opcOf w = 1) (hmode : field w 27 24 = 10 ∨ field w 27 24 = 11)
    (h : field w 23 20 = 0 ∨ 3 < field w 23 20 ∨ field w 19 12 ≠ 0 ∨ field w 11 8 ≠ 0) : ReservedField bs w := by
  rcases h with hsub | hsub | hseg | hrsv
  · exact .inr (.inl ⟨hopc, .inr (.inl ⟨hmode, .inl hsub⟩)⟩)
  · exact .inr (.inl ⟨hopc, .inr (.inl ⟨hmode, .inr hsub⟩)⟩)
  · exact .inl ⟨.inl hopc, .inr (.inr (.inr (.inl ⟨by omega, hseg⟩)))⟩
  · exact .inl ⟨.inl hopc, .inl hrsv⟩

end Sys2Proof.Machine

namespace Sys2Proof

open Machine

/-- Settles O20: the arm of INIT.XTS on the cleared engine, after the checks of the block size and the payload's length. -/
theorem initXtsEncryptsTheTweak : Obligations.InitXtsEncryptsTheTweak := fun pay s =>
  ⟨rfl, exec_initXts_ok, fun hl => (exec_initXts pay s).trans (initWith_wrongLength hl), fun _ => execOn_initXts_illegal,
    initFieldsMustBeZero _ (by decide) (by decide) (by decide) (by decide)⟩

/-- Settles O22: the six commands are `initCbccts` and `initEcbcts` over the variants; the words with a field out of range are
among the reserved ones. -/
theorem initCtsSelectsBaseAndVariant : Obligations.InitCtsSelectsBaseAndVariant := by
  refine ⟨fun v pay s mk hmk => ?_, fun v pay s mk hmk => ?_,
    fun w hopc hmode hfields => reservedWordsAreIllegal.2 w (reservedField_initCts hopc hmode hfields)⟩
  · obtain ⟨hexec, hencode⟩ := exec_initCbccts hmk pay s
    rw [hexec, hencode]
    exact ⟨rfl, fun hl => initWith_ok hl, fun hl => initWith_wrongLength hl⟩
  · obtain ⟨hexec, hencode⟩ := exec_initEcbcts hmk pay s
    rw [hexec, hencode]
    exact ⟨rfl, fun hl => initWith_ok (hl ▸ rfl), fun hl => initWith_wrongLength (List.length_eq_zero_iff.not.mpr hl)⟩

end Sys2Proof
end

section
/-! XTS: the tweak multiplier, whole blocks and stealing (47_xts.md R221 to R233). -/

namespace Sys2Proof.Machine

variable {p : Params} {s : State} {olen : Word} {a b data lead pa pb : Bytes} {m : Nat}

/-! ### The tweak -/

/-- R222: `mulx` loses nothing of a 16-byte string, however often it is applied. -/
theorem injOn_mulx_iterate (k : Nat) : Set.InjOn mulx^[k] {t | t.length = 16} :=
  Set.InjOn.iterate (fun a ha b hb h => by rw [← mulxInv_mulx a ha, h, mulxInv_mulx b hb]) (fun t _ => length_mulx t) k

/-! ### ENC and DEC -/

/-- R224, R225: whole blocks in either direction. -/
def xtsBlock (p : Params) (encrypt : Bool) : State → Bytes → State × Bytes :=
  if encrypt then xtsEncBlock p else xtsDecBlock p

/-- R227, R228: the stealing step of either direction. -/
def xtsSteal (p : Params) (encrypt : Bool) : State → Bytes → Bytes → State × Bytes :=
  if encrypt then xtsStealEnc p else xtsStealDec p

/-- The main cipher in either direction. -/
def cipher (p : Params) (encrypt : Bool) : Bytes → Bytes := if encrypt then p.E else p.D

theorem length_cipher (hv : p.Valid) (encrypt : Bool) (hb : b.length = p.bs) : (cipher p encrypt b).length = p.bs := by
  cases encrypt
  · exact hv.D_length b hb
  · exact hv.E_length b hb

theorem xtsBlock_eq (encrypt : Bool) (s : State) (b : Bytes) :
    xtsBlock p encrypt s b = ({ s with tw := mulx s.tw }, xorBytes (cipher p encrypt (xorBytes b s.tw)) s.tw) := by
  cases encrypt <;> rfl

theorem xtsSteal_state (encrypt : Bool) (s : State) (a b : Bytes) : (xtsSteal p encrypt s a b).1 = s.dropTw p := by
  cases encrypt <;> rfl

theorem transformArm_xts (encrypt : Bool) (hm : s.mode = .xts) (data : Bytes) :
    transformArm p encrypt s data = xtsArm (xtsBlock p encrypt) (xtsSteal p encrypt) s data := by
  cases encrypt <;> simp [transformArm, encArm, decArm, hm, xtsEncArm, xtsDecArm, xtsBlock, xtsSteal]

/-- R224, R225: the leading blocks, each masked on both sides with its tweak. -/
theorem xtsBlock_lead (hv : p.Valid) (hbs : p.bs = 16) (encrypt : Bool) (htw : s.tw.length = 16)
    (hd : data.length = m * 16) :
    let r := fold (xtsBlock p encrypt) s (chunks 16 m data)
    r.1 = { s with tw := mulx^[m] s.tw } ∧ r.2.length = data.length ∧
      ∀ k, k < m → blk 16 r.2 k =
        xorBytes (cipher p encrypt (xorBytes (blk 16 data k) (mulx^[k] s.tw))) (mulx^[k] s.tw) :=
  xts_lead _ (cipher p encrypt) (xtsBlock_eq encrypt)
    (fun _ hb => (length_cipher hv encrypt (hb.trans hbs.symm)).trans hbs) s htw m data hd

/-- R111: XTS takes any input of at least one block. -/
theorem exec_transform_xts (encrypt : Bool) (hm : s.mode = .xts) (ho : olen.toNat = data.length) (hd : 16 ≤ data.length) :
    exec (.transform encrypt olen data) s =
      let r := xtsArm (xtsBlock Config.params encrypt) (xtsSteal Config.params encrypt) s data
      .next (r.1.finish r.2) := by
  rw [exec_transform_ok encrypt olen data s (by simp [hm]) ho (by simp [lenOk, hm, hd]), transformArm_xts encrypt hm]

/-- R227, R228: an input with a tail: the leading blocks are plain, then comes the stealing step, with the tweak advanced
once for each leading block. -/
theorem exec_transform_xts_tail (encrypt : Bool) (htw : s.tw.length = 16) (hm : s.mode = .xts)
    (hlead : lead.length = m * 16) (ha : pa.length = 16) (hb : 0 < pb.length) (hb' : pb.length < 16)
    (ho : olen.toNat = (lead ++ pa ++ pb).length) :
    ∃ out, out.length = lead.length ∧
      (∀ k, k < m → blk 16 out k =
        xorBytes (cipher Config.params encrypt (xorBytes (blk 16 lead k) (mulx^[k] s.tw))) (mulx^[k] s.tw)) ∧
      ∃ t : State, t = { s with tw := t.tw, draws := t.draws } ∧ t.tw.length = 16 ∧
        exec (.transform encrypt olen (lead ++ pa ++ pb)) s = .next (t.finish (out ++
          (xtsSteal Config.params encrypt { s with tw := mulx^[m] s.tw } pa pb).2)) := by
  obtain ⟨hstate, hlen, hblocks⟩ := xtsBlock_lead Config.params_valid rfl encrypt htw hlead
  have hexec := exec_transform_xts encrypt hm ho (by simp [ha]; omega)
  simp only [xtsArm_parts _ _ s m lead pa pb hlead ha hb hb', hstate, xtsSteal_state] at hexec
  exact ⟨_, hlen, hblocks, _, rfl, length_freeBytes .., hexec⟩

/-- R227: `CC` is the last full block's own ciphertext; its first bytes are put out last, the others complete the tail. -/
theorem xtsStealEnc_eq (hcc : (xorBytes (p.E (xorBytes pa s.tw)) s.tw).length = 16) :
    (xtsStealEnc p s pa pb).2 =
      let cc := xorBytes (p.E (xorBytes pa s.tw)) s.tw
      xorBytes (p.E (xorBytes (pb ++ cc.drop pb.length) (mulx s.tw))) (mulx s.tw) ++ cc.take pb.length := by
  simp only [xtsStealEnc, slice_zero]
  rw [← slice_all _ pb.length, hcc]

/-- R228: the full block is decrypted under the later tweak first. -/
theorem xtsStealDec_eq (hpp : (xorBytes (p.D (xorBytes pa (mulx s.tw))) (mulx s.tw)).length = 16) :
    (xtsStealDec p s pa pb).2 =
      let pp := xorBytes (p.D (xorBytes pa (mulx s.tw))) (mulx s.tw)
      xorBytes (p.D (xorBytes (pb ++ pp.drop pb.length) s.tw)) s.tw ++ pp.take pb.length := by
  simp only [xtsStealDec, slice_zero]
  rw [← slice_all _ pb.length, hpp]

theorem length_mulx_iterate (htw : s.tw.length = 16) (k : Nat) : (mulx^[k] s.tw).length = 16 :=
  Set.MapsTo.iterate (s := {t : Bytes | t.length = 16}) (fun t _ => length_mulx t) k htw

/-- A block masked on both sides. -/
theorem length_masked (encrypt : Bool) (ha : a.length = 16) (hb : b.length = 16) :
    (xorBytes (cipher Config.params encrypt (xorBytes a b)) b).length = 16 := by
  have hc := length_cipher Config.params_valid encrypt (b := xorBytes a b) (by simp [ha, hb])
  simp [hc, hb]

end Sys2Proof.Machine

namespace Sys2Proof

open Machine

/-- Settles O49: both forms of `mulx` make the same number, and each function undoes the other on the 128-bit number. -/
theorem mulxIsOneFunctionWithAnInverse : Obligations.MulxIsOneFunctionWithAnInverse := fun t h =>
  ⟨mulx_eq_bytewise t h, length_mulx t, length_mulxInv t, mulxInv_mulx t h, mulx_mulxInv t h⟩

/-- Settles O53: the tweaker is injective on the IVs, and `mulx` on the tweaks. -/
theorem xtsSectorsUseDifferentTweaks : Obligations.XtsSectorsUseDifferentTweaks := by
  intro a b s t u k ha hb hab ht hu hmeet
  cases (exec_initXts_ok ha).symm.trans ht
  cases (exec_initXts_ok hb).symm.trans hu
  have hv := Config.params_valid
  exact hab (hv.T_injective a b ha hb (injOn_mulx_iterate k (hv.T_length a ha) (hv.T_length b hb) hmeet))

/-- Settles O50: on whole blocks the arm is the loop over blocks alone. -/
theorem xtsWholeBlocks : Obligations.XtsWholeBlocks := by
  intro encrypt m olen data s hi hm hm1 hd ho
  have hdiv : data.length / 16 = m := by omega
  obtain ⟨hstate, hlen, hblocks⟩ := xtsBlock_lead Config.params_valid rfl encrypt hi.tw_length hd
  have hexec := exec_transform_xts encrypt hm ho (by omega)
  simp only [xtsArm_whole _ _ s data (by omega), hdiv, hstate] at hexec
  exact ⟨_, hexec, hlen, hblocks⟩

/-- Settles O51: the leading blocks and the stealing step of ENC (`xtsStealEnc_eq`). -/
theorem xtsEncryptionSteals : Obligations.XtsEncryptionSteals := by
  intro m b olen lead pa pb s hi hm hm1 hlead ha hb hb0 hb16 ho
  subst hb
  obtain ⟨out, hlen, hblocks, t, hframe, htw, hexec⟩ :=
    exec_transform_xts_tail true hi.tw_length hm hlead ha hb0 hb16 ho
  have hcc := length_masked true ha (length_mulx_iterate hi.tw_length (m - 1))
  have hsteal := xtsStealEnc_eq (p := Config.params) (s := { s with tw := mulx^[m - 1] s.tw }) (pb := pb) hcc
  refine ⟨out, _, hexec, ?_, htw, hlen, hblocks⟩
  rw [xtsSteal, if_pos rfl, hsteal, ← List.append_assoc]
  exact congrArg (State.finish · _) hframe

/-- Settles O52: the leading blocks and the stealing step of DEC (`xtsStealDec_eq`). -/
theorem xtsDecryptionSteals : Obligations.XtsDecryptionSteals := by
  intro m b olen lead ca cb s hi hm hm1 hlead ha hb hb0 hb16 ho
  subst hb
  obtain ⟨out, hlen, hblocks, t, hframe, htw, hexec⟩ :=
    exec_transform_xts_tail false hi.tw_length hm hlead ha hb0 hb16 ho
  have hpp := length_masked false ha (length_mulx (mulx^[m - 1] s.tw))
  have hsteal := xtsStealDec_eq (p := Config.params) (s := { s with tw := mulx^[m - 1] s.tw }) (pb := cb) hpp
  refine ⟨out, _, hexec, ?_, htw, hlen, hblocks⟩
  rw [xtsSteal, if_neg Bool.false_ne_true, hsteal, ← List.append_assoc]
  exact congrArg (State.finish · _) hframe

end Sys2Proof
end

section
/-! CTS: the last two blocks, their order, and whole blocks (48_cts.md R243 to R249). -/

namespace Sys2Proof.Machine

variable {p : Params} {s u : State} {v : Variant} {olen : Word} {data lead pa pb short full : Bytes} {n d : Nat}

/-! ### The order of the last two blocks (R244) -/

/-- R244, the table: on whole blocks only CS3 puts the full block first, with a short last block every variant but CS1 with
`CS1_SHORT_POS = penultimate`. -/
theorem shortFirst_iff (p : Params) (v : Variant) (d : Nat) : shortFirst p v d = true ↔
    if d = p.bs then v ≠ .cs3 else v = .cs1 ∧ p.cs1ShortPos = .penultimate := by
  by_cases hd : d = p.bs <;> cases v <;> simp [shortFirst, hd]

theorem arrange_of_iff {P : Prop} [Decidable P] (h : shortFirst p v d = true ↔ P) (short full : Bytes) :
    arrange p v d short full = if P then short ++ full else full ++ short := by
  simp only [arrange, h]

/-- R244: on whole blocks every variant but CS3 keeps the order. -/
theorem arrange_whole (hvar : v ≠ .cs3) (short full : Bytes) : arrange p v p.bs short full = short ++ full :=
  if_pos ((shortFirst_iff p v p.bs).mpr (by rwa [if_pos rfl]))

/-- R244: CS3 exchanges the last two blocks. -/
theorem arrange_cs3 (d : Nat) (short full : Bytes) : arrange p .cs3 d short full = full ++ short := rfl

/-- R244: with a short last block CS2 puts the full block first. -/
theorem arrange_cs2_of_ne (hd : d ≠ p.bs) (short full : Bytes) : arrange p .cs2 d short full = full ++ short :=
  if_neg fun h => hd (of_decide_eq_true h)

/-! ### A message by its parts -/

theorem mul_eq_lead_add {size : Nat} (hn : 2 ≤ n) :
    (n - 1) * size = (n - 2) * size + size ∧ n * size = (n - 2) * size + size + size := by
  obtain ⟨m, rfl⟩ := Nat.exists_eq_add_of_le' hn
  exact ⟨Nat.succ_mul m size, (Nat.succ_mul (m + 1) size).trans (congrArg (· + size) (Nat.succ_mul m size))⟩

/-- R241: a message of `n` blocks, the last of which may be short. -/
theorem exists_parts_of_blocks {size : Nat} (hn : 2 ≤ n) (hlo : (n - 1) * size < data.length)
    (hhi : data.length ≤ n * size) :
    ∃ lead pa pb, data = lead ++ pa ++ pb ∧ lead.length = (n - 2) * size ∧ pa.length = size ∧
      1 ≤ pb.length ∧ pb.length ≤ size := by
  obtain ⟨hprev, hall⟩ := mul_eq_lead_add (size := size) hn
  generalize (n - 2) * size = k at *
  refine ⟨data.take k, (data.drop k).take size, (data.drop k).drop size, ?_, ?_, ?_, ?_, ?_⟩
  · rw [List.append_assoc, List.take_append_drop, List.take_append_drop]
  all_goals simp; omega

/-- R241: a message of `n` whole blocks. -/
theorem exists_whole_parts {size : Nat} (hsize : 1 ≤ size) (hn : 2 ≤ n) (hd : data.length = n * size) :
    ∃ lead pa pb, data = lead ++ pa ++ pb ∧ lead.length = (n - 2) * size ∧ pa.length = size ∧ pb.length = size := by
  obtain ⟨hprev, hall⟩ := mul_eq_lead_add (size := size) hn
  obtain ⟨lead, pa, pb, rfl, hlead, ha, -, -⟩ := exists_parts_of_blocks hn (by omega) hd.le
  rw [List.length_append, List.length_append] at hd
  exact ⟨lead, pa, pb, rfl, hlead, ha, by omega⟩

/-- A message of several blocks is whole blocks when its last block is one. -/
theorem mod_eq_zero_iff_last {size m : Nat} (hd : 1 ≤ d) (hd' : d ≤ size) : (m * size + size + d) % size = 0 ↔ d = size := by
  rw [Nat.add_comm, ← Nat.succ_mul, Nat.add_mul_mod_self_right]
  constructor
  · exact fun h => hd'.antisymm (Nat.le_of_dvd hd (Nat.dvd_of_mod_eq_zero h))
  · rintro rfl
    exact Nat.mod_self d

/-- R103: the piece of a string that stands after `k` pieces. -/
theorem blk_append_append {size k : Nat} {a b : Bytes} (ha : a.length = k * size) (hb : b.length = size) (c : Bytes) :
    blk size (a ++ b ++ c) k = b :=
  slice_mid a b c _ _ ha (by rw [ha, hb, Nat.succ_mul])

/-- The last two blocks exchanged, as pieces of the string. -/
theorem exchange_last_two {size : Nat} {out x y : Bytes} (hn : 2 ≤ n) (hout : out.length = (n - 2) * size)
    (hx : x.length = size) (hy : y.length = size) :
    out ++ (y ++ x) = (out ++ (x ++ y)).take ((n - 2) * size) ++ blk size (out ++ (x ++ y)) (n - 1) ++
      blk size (out ++ (x ++ y)) (n - 2) := by
  have houtx : (out ++ x).length = (n - 1) * size := by
    rw [List.length_append, hout, hx, (mul_eq_lead_add hn).1]
  have hlast := blk_append_append houtx hy []
  have hprev := blk_append_append hout hx y
  rw [List.append_nil] at hlast
  rw [List.take_left' hout, ← List.append_assoc out x y, hlast, hprev, List.append_assoc]

/-! ### The checks and the state afterwards -/

theorem State.finish_answers {out out' : Bytes} (h : out = out') : (s.finish out).Answers out' := h ▸ rfl

/-- R111: CTS takes any input of at least one block. -/
theorem exec_transform_cts (encrypt : Bool) (hm : s.mode = .cbccts ∨ s.mode = .ecbcts) (ho : olen.toNat = data.length)
    (hd : Config.BS ≤ data.length) :
    exec (.transform encrypt olen data) s =
      let r := if encrypt then ctsEncArm Config.params s data else ctsDecArm Config.params s data
      .next (r.1.finish r.2) := by
  obtain ⟨hnone, hl⟩ := cts_lenOk (p := Config.params) s data.length hm hd
  rw [exec_transform_ok encrypt olen data s hnone ho hl, transformArm_cts encrypt s data hm]

/-- R249: the command leaves `IV` with its width, and ECBCTS leaves all as it was. -/
theorem CtsFrame.finish (h : CtsFrame s u) (hi : u.Inv p) (out : Bytes) :
    let t := u.finish out
    t = { s with iv := t.iv, draws := t.draws, resp := t.resp } ∧ t.iv.length = p.bs ∧
      (s.mode = .ecbcts → t.iv = s.iv ∧ t.draws = s.draws) := by
  obtain ⟨hframe, hecb⟩ := h
  refine ⟨congrArg (State.finish · out) hframe, hi.iv_length, fun hm => ?_⟩
  rw [hecb (by simp [hm])]
  exact ⟨rfl, rfl⟩

/-! ### The base transform (R242) -/

theorem baseEncOf_eq (p : Params) (P : Prop) [Decidable P] :
    baseEncOf p (decide P) = if P then (fun m v => p.E (xorBytes m v)) else (fun m _ => p.E m) := by
  by_cases h : P
  · rw [if_pos h, decide_eq_true h]; rfl
  · rw [if_neg h, decide_eq_false h]; rfl

theorem baseDecOf_eq (p : Params) (P : Prop) [Decidable P] :
    baseDecOf p (decide P) = if P then (fun c v => xorBytes (p.D c) v) else (fun c _ => p.D c) := by
  by_cases h : P
  · rw [if_pos h, decide_eq_true h]; rfl
  · rw [if_neg h, decide_eq_false h]; rfl

/-- R242: over the ECB base the chaining value plays no part. -/
theorem baseEncOf_congr {cbc : Bool} {m v w : Bytes} (h : cbc = true → v = w) : baseEncOf p cbc m v = baseEncOf p cbc m w := by
  cases cbc
  · rfl
  · rw [h rfl]

theorem baseDecOf_congr {cbc : Bool} {c v w : Bytes} (h : cbc = true → v = w) : baseDecOf p cbc c v = baseDecOf p cbc c w := by
  cases cbc
  · rfl
  · rw [h rfl]

/-- The leading blocks do not depend on the variant. -/
theorem fold_baseEnc_setVariant (s : State) (v : Variant) (as : List Bytes) :
    fold (baseEnc p) { s with variant := v } as =
      ({ (fold (baseEnc p) s as).1 with variant := v }, (fold (baseEnc p) s as).2) := by
  induction as generalizing s with
  | nil => rfl
  | cons a as ih =>
    have hone : baseEnc p { s with variant := v } a = ({ (baseEnc p s a).1 with variant := v }, (baseEnc p s a).2) := by
      simp only [baseEnc_eq]
    simp only [fold_cons, hone, ih]

/-! ### ENC (R243) -/

/-- R243: `Y`, from the last block and the base transform's output `x` for the last full block. -/
def ctsFullBlock (p : Params) (cbc : Bool) (x pb : Bytes) : Bytes :=
  if cbc then p.E (xorBytes (pb ++ zeros (p.bs - pb.length)) x) else p.E (pb ++ x.drop pb.length)

theorem length_ctsFullBlock (hv : p.Valid) (cbc : Bool) {x : Bytes} (hx : x.length = p.bs) (hb : pb.length ≤ p.bs) :
    (ctsFullBlock p cbc x pb).length = p.bs := by
  cases cbc
  · exact hv.E_length _ (by simp [hx]; omega)
  · exact hv.E_length _ (by simp [hx]; omega)

theorem ctsFullBlock_eq (p : Params) (P : Prop) [Decidable P] (x pb : Bytes) : ctsFullBlock p (decide P) x pb =
    if P then p.E (xorBytes (pb ++ zeros (p.bs - pb.length)) x) else p.E (pb ++ x.drop pb.length) := by
  simp only [ctsFullBlock, decide_eq_true_eq]

/-- R243: the last two blocks of ENC. -/
theorem ctsStealEnc_arrange (x : Bytes) (hx : x.length = p.bs)
    (hbase : baseEncOf p (decide (s.mode = .cbccts)) pa s.iv = x) :
    (ctsStealEnc p s pa pb).2 =
      arrange p s.variant pb.length (x.take pb.length) (ctsFullBlock p (decide (s.mode = .cbccts)) x pb) := by
  rw [ctsStealEnc_eq, hbase, slice_zero, ← hx, slice_all, ctsFullBlock_eq, hx]

theorem fold_baseEnc_inv (hv : p.Valid) (hi : s.Inv p) (hm : s.mode = .cbccts ∨ s.mode = .ecbcts)
    (hlead : lead.length = n * p.bs) :
    let t := (fold (baseEnc p) s (chunks p.bs n lead)).1
    t.Inv p ∧ t.mode = s.mode :=
  (blocks_spec (baseEnc p) (fun t => t.Inv p ∧ t.mode = s.mode) p.bs (fun t b ⟨hi, hmode⟩ hb => by
    obtain ⟨hinv, hlen⟩ := baseEnc_inv hv t b hi (hmode ▸ hm) hb
    exact ⟨⟨hinv, (baseEnc_mode t b).trans hmode⟩, hlen⟩) s lead n ⟨hi, rfl⟩ hlead).1

/-- R243, R244: ENC of at least two blocks. The variant decides the order of the last two blocks and nothing else. -/
theorem ctsEncArm_arranges (hv : p.Valid) (hi : s.Inv p) (hm : s.mode = .cbccts ∨ s.mode = .ecbcts) (hn : 2 ≤ n)
    (hlead : lead.length = (n - 2) * p.bs) (ha : pa.length = p.bs) (hb : 1 ≤ pb.length) (hb' : pb.length ≤ p.bs) :
    ∃ out x, out.length = lead.length ∧
      (∀ k, k < n - 2 → blk p.bs out k =
        baseEncOf p (decide (s.mode = .cbccts)) (blk p.bs lead k) (chainBefore p s.iv out k)) ∧
      x = baseEncOf p (decide (s.mode = .cbccts)) pa (chainBefore p s.iv out (n - 2)) ∧ x.length = p.bs ∧
      ∀ v, (ctsEncArm p { s with variant := v } (lead ++ pa ++ pb)).2 = out ++
        arrange p v pb.length (x.take pb.length) (ctsFullBlock p (decide (s.mode = .cbccts)) x pb) := by
  obtain ⟨hstate, hlen, hblocks⟩ := cts_lead_enc hv s hi hm (n - 2) lead hlead
  obtain ⟨hinv, hmode⟩ := fold_baseEnc_inv hv hi hm hlead
  have hx := (baseEnc_inv hv _ pa hinv (hmode ▸ hm) ha).2
  refine ⟨_, _, hlen, hblocks, ?_, hx, fun v => ?_⟩
  · rw [baseEnc_eq, hstate]
    exact baseEncOf_congr fun h => if_pos (of_decide_eq_true h)
  · rw [ctsEncArm_parts hv.bs_pos _ n lead pa pb hn hlead ha hb hb', fold_baseEnc_setVariant, ← hmode]
    exact congrArg _ (ctsStealEnc_arrange _ hx (by rw [baseEnc_eq]))

/-! ### DEC (R245) -/

/-- R245: the last two blocks of DEC, given in R244's order. -/
theorem ctsStealDec_out (hs : short.length = d) (hf : full.length = p.bs) (hz : (p.D full).length = p.bs) :
    (ctsStealDec p s d (arrange p s.variant d short full)).2 =
      baseDecOf p (decide (s.mode = .cbccts)) (short ++ (p.D full).drop d) s.iv ++
        if s.mode = .cbccts then xorBytes ((p.D full).take d) short else (p.D full).take d := by
  simp only [ctsStealDec_arrange s d short full hs hf, baseDec_eq, slice_zero]
  rw [← hz, slice_all]

/-- R245: DEC of at least two blocks. -/
theorem ctsDecArm_rebuilds (hv : p.Valid) (hi : s.Inv p) (hm : s.mode = .cbccts ∨ s.mode = .ecbcts) (hn : 2 ≤ n)
    (hlead : lead.length = (n - 2) * p.bs) (hs : short.length = d) (hf : full.length = p.bs) (hd : 1 ≤ d) (hd' : d ≤ p.bs) :
    ∃ out, out.length = lead.length ∧
      (∀ k, k < n - 2 → blk p.bs out k =
        baseDecOf p (decide (s.mode = .cbccts)) (blk p.bs lead k) (chainBefore p s.iv lead k)) ∧
      (ctsDecArm p s (lead ++ arrange p s.variant d short full)).2 = out ++
        baseDecOf p (decide (s.mode = .cbccts)) (short ++ (p.D full).drop d) (chainBefore p s.iv lead (n - 2)) ++
        if s.mode = .cbccts then xorBytes ((p.D full).take d) short else (p.D full).take d := by
  obtain ⟨hstate, hlen, hblocks⟩ := cts_lead_dec hv s hi hm (n - 2) lead hlead
  have htail : (arrange p s.variant d short full).length = p.bs + d := by rw [length_arrange, hs, hf, Nat.add_comm]
  refine ⟨_, hlen, hblocks, ?_⟩
  rw [ctsDecArm_parts hv.bs_pos s n d lead _ hn hlead htail hd hd', hstate]
  have hsteal := ctsStealDec_out (p := p)
    (s := { s with iv := if s.mode = .cbccts then chainBefore p s.iv lead (n - 2) else s.iv }) hs hf (hv.D_length full hf)
  rw [List.append_assoc]
  refine congrArg (_ ++ ·) (hsteal.trans (congrArg (· ++ _) ?_))
  exact baseDecOf_congr fun h => if_pos (of_decide_eq_true h)

/-! ### Whole blocks (R247, R248) -/

/-- On whole blocks `Y` is the base transform of the last block, chained to `x`. -/
theorem ctsStealEnc_whole (hb : pb.length = p.bs) (hx : (baseEnc p s pa).2.length = p.bs) :
    (ctsStealEnc p s pa pb).2 =
      arrange p s.variant p.bs (baseEnc p s pa).2 (baseEnc p (baseEnc p s pa).1 pb).2 := by
  rw [ctsStealEnc_arrange _ hx (by rw [baseEnc_eq]), hb, ← hx, List.take_length, hx, baseEnc_eq (baseEnc p s pa).1]
  by_cases hm : s.mode = .cbccts
  · simp [ctsFullBlock, baseEncOf, hm, baseEnc_eq, hb, zeros]
  · simp [ctsFullBlock, baseEncOf, hm, baseEnc_eq, hb, ← hx]

/-- R247: on whole blocks CS1 and CS2 are the base mode. -/
theorem ctsEncArm_whole (hv : p.Valid) (hi : s.Inv p) (hm : s.mode = .cbccts ∨ s.mode = .ecbcts) (hvar : s.variant ≠ .cs3)
    (hn : 2 ≤ n) (hd : data.length = n * p.bs) :
    (ctsEncArm p s data).2 = (fold (baseEnc p) s (chunks p.bs n data)).2 := by
  obtain ⟨lead, pa, pb, rfl, hlead, ha, hb⟩ := exists_whole_parts hv.bs_pos hn hd
  obtain ⟨hinv, hmode⟩ := fold_baseEnc_inv hv hi hm hlead
  have hx := (baseEnc_inv hv _ pa hinv (hmode ▸ hm) ha).2
  have hchunks : chunks p.bs n (lead ++ pa ++ pb) = chunks p.bs (n - 2) lead ++ [pa, pb] := by
    have htail : chunks p.bs 2 (pa ++ pb) = [pa, pb] := by simp [chunks, ← ha, hb]
    rw [List.append_assoc, ← htail, ← chunks_append p.bs (n - 2) 2 lead _ hlead, Nat.sub_add_cancel hn]
  rw [ctsEncArm_parts hv.bs_pos s n lead pa pb hn hlead ha (hb ▸ hv.bs_pos) hb.le, hchunks, fold_append,
    ctsStealEnc_whole hb hx, fold_baseEnc_variant, arrange_whole hvar]
  simp [fold_cons]

/-- R247: over the CBC base the blocks are those of CBC. -/
theorem fold_baseEnc_eq_cbc (hm : s.mode = .cbccts) (as : List Bytes) :
    (fold (baseEnc p) s as).2 = (fold (cbcEncBlock p) { s with mode := .cbc } as).2 := by
  have hsim := (fold_sim (baseEnc p) (cbcEncBlock p) id (fun t u => t.mode = .cbccts ∧ t.iv = u.iv) (fun _ => True)
    (fun t u b ⟨hmode, hiv⟩ _ => by simp [baseEnc, hmode, cbcEncBlock, hiv]) s { s with mode := .cbc } as ⟨hm, rfl⟩
    fun _ _ => trivial).2
  rwa [List.map_id] at hsim

/-- R247: ENC of whole blocks by CS1 or CS2 is the loop of the base mode. -/
theorem exec_enc_cts_whole (hi : s.Inv) (hm : s.mode = .cbccts ∨ s.mode = .ecbcts) (hvar : s.variant ≠ .cs3) (hn : 2 ≤ n)
    (hd : data.length = n * Config.BS) (ho : olen.toNat = data.length) :
    exec (.enc olen data) s = .next ((ctsEncArm Config.params s data).1.finish
      (fold (baseEnc Config.params) s (chunks Config.BS n data)).2) := by
  have hge : Config.BS ≤ data.length := hd ▸ Nat.le_mul_of_pos_left _ (by omega)
  exact (exec_transform_cts true hm ho hge).trans
    (congrArg (fun out => Host.Outcome.next (State.finish _ out)) (ctsEncArm_whole Config.params_valid hi hm hvar hn hd))


/-- R248: exactly one block is the base mode's, whatever the variant. -/
theorem exec_transform_cts_one (hm : s.mode = .cbccts ∨ s.mode = .ecbcts) (hd : data.length = Config.BS)
    (ho : olen.toNat = Config.BS) :
    ∃ t u, exec (.enc olen data) s = .next t ∧
      t.Answers (baseEncOf Config.params (decide (s.mode = .cbccts)) data s.iv) ∧
      exec (.dec olen data) s = .next u ∧
      u.Answers (baseDecOf Config.params (decide (s.mode = .cbccts)) data s.iv) := by
  have hbs := Config.params_valid.bs_pos
  refine ⟨_, _, exec_transform_cts true hm (ho.trans hd.symm) hd.ge, State.finish_answers ?_,
    exec_transform_cts false hm (ho.trans hd.symm) hd.ge, State.finish_answers ?_⟩
  · rw [if_pos rfl, ctsEncArm_one hbs s data hd, baseEnc_eq]
  · rw [if_neg Bool.false_ne_true, ctsDecArm_one hbs s data hd, baseDec_eq]

end Sys2Proof.Machine

namespace Sys2Proof

open Machine

/-- Settles O54: the parts of the output by `ctsEncArm_arranges`, in the order of R244's table (`shortFirst_iff`). -/
theorem ctsEncryptionArranges : Obligations.CtsEncryptionArranges := by
  intro n d olen lead pa pb s hi hm hn hlead ha hb hd hd' ho
  subst hb
  obtain ⟨out, x, hlen, hblocks, hx, hxlen, harm⟩ :=
    ctsEncArm_arranges Config.params_valid hi hm hn hlead ha hd hd'
  have hge : Config.BS ≤ (lead ++ pa ++ pb).length := by simp [ha]; omega
  obtain ⟨hframe, hiv, hecb⟩ := (ctsEncArm_frame s (lead ++ pa ++ pb)).finish
    (ctsEncArm_spec Config.params_valid s _ hi hm hge).1 (ctsEncArm Config.params s (lead ++ pa ++ pb)).2
  have hexec := exec_transform_cts true hm ho hge
  rw [baseEncOf_eq] at hblocks hx
  refine ⟨out, x, _, hexec, State.finish_answers ?_, hlen, hblocks, hx, hframe, hiv, hecb⟩
  refine (harm s.variant).trans (congrArg (out ++ ·) ?_)
  rw [arrange_of_iff (shortFirst_iff _ _ _), ctsFullBlock_eq]
  rfl

/-- Settles O55: the input's last two blocks stand in the order of R244's table, from which `ctsDecArm_rebuilds` takes them. -/
theorem ctsDecryptionRebuilds : Obligations.CtsDecryptionRebuilds := by
  intro n d olen lead short full s hi hm hn hlead hs hf hd hd' shortFirst data ho
  have hdata : data = lead ++ arrange Config.params s.variant d short full :=
    congrArg (lead ++ ·) (arrange_of_iff (shortFirst_iff Config.params s.variant d) short full).symm
  obtain ⟨out, hlen, hblocks, harm⟩ := ctsDecArm_rebuilds Config.params_valid hi hm hn hlead hs hf hd hd'
  rw [← hdata] at harm
  have hge : Config.BS ≤ data.length := by
    rw [hdata, List.length_append, length_arrange, hf]
    omega
  obtain ⟨hframe, hiv, hecb⟩ := (ctsDecArm_frame s data).finish
    (ctsDecArm_spec Config.params_valid s data hi hm hge).1 (ctsDecArm Config.params s data).2
  rw [baseDecOf_eq] at hblocks harm
  exact ⟨out, _, exec_transform_cts false hm ho hge, State.finish_answers harm, hlen, hblocks, hframe, hiv, hecb⟩

/-- Settles O56: one block is the base transform (`exec_transform_cts_one`), and more whole blocks are its loop in CS1 and CS2
(`exec_enc_cts_whole`), which over the CBC base is CBC's. -/
theorem ctsWholeBlocksAreTheBaseMode : Obligations.CtsWholeBlocksAreTheBaseMode := by
  refine ⟨fun olen data s _ hd ho => ⟨fun hm => ?_, fun hm => ?_⟩, fun n olen data s hi hn hd ho hvar => ?_⟩
  · have hone := exec_transform_cts_one (.inl hm) hd ho
    rwa [baseEncOf_eq, baseDecOf_eq, if_pos hm, if_pos hm] at hone
  · have hone := exec_transform_cts_one (.inr hm) hd ho
    rwa [baseEncOf_eq, baseDecOf_eq, if_neg (by simp [hm]), if_neg (by simp [hm])] at hone
  · have hcs3 : s.variant ≠ .cs3 := by rcases hvar with h | h <;> simp [h]
    refine ⟨fun hm => ?_, fun hm => ?_⟩
    · obtain ⟨-, hlen, hblocks⟩ := cts_lead_enc Config.params_valid s hi (.inr hm) n data hd
      refine ⟨_, _, exec_enc_cts_whole hi (.inr hm) hcs3 hn hd ho, rfl, hlen, fun k hk => (hblocks k hk).trans ?_⟩
      rw [baseEncOf_eq, if_neg (by simp [hm])]
      rfl
    · refine ⟨_, _, exec_enc_cts_whole hi (.inl hm) hcs3 hn hd ho, exec_transform_cbc true rfl hd ho, ?_⟩
      rw [fold_baseEnc_eq_cbc hm]
      rfl

/-- Settles O57: the variants put out the same blocks (`ctsEncArm_arranges`), which they arrange by R244's table. -/
theorem ctsVariantsDifferInOrderOnly : Obligations.CtsVariantsDifferInOrderOnly := by
  intro n olen data s hi hm ho hlo hhi hn
  obtain ⟨lead, pa, pb, rfl, hlead, ha, hb, hb'⟩ := exists_parts_of_blocks hn hlo hhi
  have hlen : (lead ++ pa ++ pb).length = (n - 2) * Config.BS + Config.BS + pb.length := by simp [hlead, ha]; omega
  obtain ⟨out, x, hout, -, -, hx, harm⟩ := ctsEncArm_arranges Config.params_valid hi hm hn hlead ha hb hb'
  have hlast : (lead ++ pa ++ pb).length % Config.BS = 0 ↔ pb.length = Config.BS := by
    rw [hlen, mod_eq_zero_iff_last hb hb']
  have hexec := fun v => exec_transform_cts (s := { s with variant := v }) true hm ho (by omega)
  simp only [if_true, harm] at hexec
  refine ⟨_, _, _, _, _, _, hexec .cs1, rfl, hexec .cs2, rfl, hexec .cs3, rfl, fun hshort => ?_, fun hwhole => ?_⟩
  · rw [arrange_cs2_of_ne fun hd => hshort (hlast.mpr hd), arrange_cs3]
  · have hd : pb.length = Config.params.bs := hlast.mp hwhole
    have hy := length_ctsFullBlock Config.params_valid (decide (s.mode = .cbccts)) hx hb'
    rw [hd, arrange_whole (by decide), arrange_whole (by decide), arrange_cs3, ← hx, List.take_length]
    exact ⟨rfl, exchange_last_two hn (hout.trans hlead) hx hy⟩

end Sys2Proof
end
